-- ==== Sys2Proof/Word.lean ====
section
/-! DEFINITION. The byte and the word of the machine (spec/00_scope.md R7, R10). -/

namespace Sys2Proof

/-- An unsigned byte, the spec's `u8` (R10): data, the 8-bit registers, one bus transfer. -/
abbrev Byte := BitVec 8

/-- An unsigned 16-bit word, the spec's `u16` (R10): addresses and the program counter.
Out-of-range addresses cannot be written down (R60). -/
abbrev Word := BitVec 16

end Sys2Proof
end

