-- ==== Sys2Proof/Syntax.lean ====
section
/-! DEFINITION. The instructions as syntax (spec/30_encoding.md R101, R110): one constructor per mnemonic of
spec/opcode_table.json, whose rows (one per mnemonic and format) are the constructor with an operand form. -/

namespace Sys2Proof

/-- The table's `format`: the addressing mode that fixes an instruction's length and bus cycles (R101). `none` is the
format of an illegal opcode. -/
inductive Mode
  | imp | acc | imm | zp | zpx | zpy | abs | abx | aby | izx | izy
  | rel | ind | absjmp | jsr | rts | rti | push | pull | brk | none
  deriving DecidableEq, Repr

/-- The operand forms of the loads, stores, ALU and read-modify-write instructions (R101 to R106). -/
inductive Operand
  | acc
  | imm (v : Byte)
  | zp (a : Byte)
  | zpx (a : Byte)
  | zpy (a : Byte)
  | abs (a : Word)
  | abx (a : Word)
  | aby (a : Word)
  | izx (a : Byte)
  | izy (a : Byte)
  deriving DecidableEq, Repr

/-- The two operand forms of JMP (R269, R270). -/
inductive JumpOperand
  | abs (t : Word)
  | ind (p : Word)
  deriving DecidableEq, Repr

/-- The table's mnemonics. -/
inductive Mnem
  | lda | ldx | ldy | sta | stx | sty | tax | tay | txa | tya | tsx | txs | adc | sbc | and | ora | eor
  | bit | cmp | cpx | cpy | asl | lsr | rol | ror | inc | dec | inx | iny | dex | dey | bpl | bmi | bvc
  | bvs | bcc | bcs | bne | beq | jmp | jsr | rts | brk | rti | pha | php | pla | plp | clc | sec | cli
  | sei | cld | sed | clv | nop | slo | rla | sre | rra | sax | lax | dcp | isc | illegal
  deriving DecidableEq, Repr

/-- The instructions. Each constructor's comment names the rule of spec/41 to 46 that gives its meaning. -/
inductive Instr
  /-- R180, load accumulator. -/
  | lda (m : Operand)
  /-- R181, load X. -/
  | ldx (m : Operand)
  /-- R182, load Y. -/
  | ldy (m : Operand)
  /-- R183, store accumulator. -/
  | sta (m : Operand)
  /-- R184, store X. -/
  | stx (m : Operand)
  /-- R185, store Y. -/
  | sty (m : Operand)
  /-- R186, transfer A to X. -/
  | tax
  /-- R187, transfer A to Y. -/
  | tay
  /-- R188, transfer X to A. -/
  | txa
  /-- R189, transfer Y to A. -/
  | tya
  /-- R190, transfer SP to X. -/
  | tsx
  /-- R191, transfer X to SP. -/
  | txs
  /-- R201, add with carry. -/
  | adc (m : Operand)
  /-- R202, subtract with borrow. -/
  | sbc (m : Operand)
  /-- R205, bitwise and into A. -/
  | and (m : Operand)
  /-- R206, bitwise or into A. -/
  | ora (m : Operand)
  /-- R207, bitwise exclusive-or into A. -/
  | eor (m : Operand)
  /-- R208, test bits. -/
  | bit (m : Operand)
  /-- R210, compare with A. -/
  | cmp (m : Operand)
  /-- R211, compare with X. -/
  | cpx (m : Operand)
  /-- R212, compare with Y. -/
  | cpy (m : Operand)
  /-- R230, arithmetic shift left. -/
  | asl (m : Operand)
  /-- R231, logical shift right. -/
  | lsr (m : Operand)
  /-- R232, rotate left through carry. -/
  | rol (m : Operand)
  /-- R233, rotate right through carry. -/
  | ror (m : Operand)
  /-- R234, increment memory. -/
  | inc (m : Operand)
  /-- R235, decrement memory. -/
  | dec (m : Operand)
  /-- R236, increment X. -/
  | inx
  /-- R237, increment Y. -/
  | iny
  /-- R238, decrement X. -/
  | dex
  /-- R239, decrement Y. -/
  | dey
  /-- R261, branch if plus. -/
  | bpl (off : Byte)
  /-- R262, branch if minus. -/
  | bmi (off : Byte)
  /-- R263, branch if overflow clear. -/
  | bvc (off : Byte)
  /-- R264, branch if overflow set. -/
  | bvs (off : Byte)
  /-- R265, branch if carry clear. -/
  | bcc (off : Byte)
  /-- R266, branch if carry set. -/
  | bcs (off : Byte)
  /-- R267, branch if not equal. -/
  | bne (off : Byte)
  /-- R268, branch if equal. -/
  | beq (off : Byte)
  /-- R269 and R270, absolute. -/
  | jmp (t : JumpOperand)
  /-- R271, jump to subroutine. -/
  | jsr (t : Word)
  /-- R272, return from subroutine. -/
  | rts
  /-- R273, software interrupt. -/
  | brk (pad : Byte)
  /-- R274, return from interrupt. -/
  | rti
  /-- R290, push accumulator. -/
  | pha
  /-- R291, push processor status. -/
  | php
  /-- R292, pull accumulator. -/
  | pla
  /-- R293, pull processor status. -/
  | plp
  /-- R294, clear carry. -/
  | clc
  /-- R295, set carry. -/
  | sec
  /-- R296, clear interrupt disable. -/
  | cli
  /-- R297, set interrupt disable. -/
  | sei
  /-- R298, clear decimal. -/
  | cld
  /-- R299, set decimal. -/
  | sed
  /-- R300, clear overflow. -/
  | clv
  /-- R301, no operation. -/
  | nop
  /-- R313, shift left then OR. -/
  | slo (m : Operand)
  /-- R314, rotate left then AND. -/
  | rla (m : Operand)
  /-- R315, shift right then EOR. -/
  | sre (m : Operand)
  /-- R316, rotate right then ADC. -/
  | rra (m : Operand)
  /-- R317, store A AND X. -/
  | sax (m : Operand)
  /-- R318, load A and X. -/
  | lax (m : Operand)
  /-- R319, decrement then compare. -/
  | dcp (m : Operand)
  /-- R320, increment then SBC. -/
  | isc (m : Operand)
  /-- R321, an illegal opcode byte: fatal. -/
  | illegal (opc : Byte)
  deriving DecidableEq, Repr

/-- The operand form's addressing mode. -/
def Operand.mode : Operand → Mode
  | .acc => .acc
  | .imm _ => .imm
  | .zp _ => .zp
  | .zpx _ => .zpx
  | .zpy _ => .zpy
  | .abs _ => .abs
  | .abx _ => .abx
  | .aby _ => .aby
  | .izx _ => .izx
  | .izy _ => .izy

def JumpOperand.mode : JumpOperand → Mode
  | .abs _ => .absjmp
  | .ind _ => .ind

/-- The instruction's mnemonic. -/
def Instr.mnem : Instr → Mnem
  | .lda _ => .lda
  | .ldx _ => .ldx
  | .ldy _ => .ldy
  | .sta _ => .sta
  | .stx _ => .stx
  | .sty _ => .sty
  | .tax => .tax
  | .tay => .tay
  | .txa => .txa
  | .tya => .tya
  | .tsx => .tsx
  | .txs => .txs
  | .adc _ => .adc
  | .sbc _ => .sbc
  | .and _ => .and
  | .ora _ => .ora
  | .eor _ => .eor
  | .bit _ => .bit
  | .cmp _ => .cmp
  | .cpx _ => .cpx
  | .cpy _ => .cpy
  | .asl _ => .asl
  | .lsr _ => .lsr
  | .rol _ => .rol
  | .ror _ => .ror
  | .inc _ => .inc
  | .dec _ => .dec
  | .inx => .inx
  | .iny => .iny
  | .dex => .dex
  | .dey => .dey
  | .bpl _ => .bpl
  | .bmi _ => .bmi
  | .bvc _ => .bvc
  | .bvs _ => .bvs
  | .bcc _ => .bcc
  | .bcs _ => .bcs
  | .bne _ => .bne
  | .beq _ => .beq
  | .jmp _ => .jmp
  | .jsr _ => .jsr
  | .rts => .rts
  | .brk _ => .brk
  | .rti => .rti
  | .pha => .pha
  | .php => .php
  | .pla => .pla
  | .plp => .plp
  | .clc => .clc
  | .sec => .sec
  | .cli => .cli
  | .sei => .sei
  | .cld => .cld
  | .sed => .sed
  | .clv => .clv
  | .nop => .nop
  | .slo _ => .slo
  | .rla _ => .rla
  | .sre _ => .sre
  | .rra _ => .rra
  | .sax _ => .sax
  | .lax _ => .lax
  | .dcp _ => .dcp
  | .isc _ => .isc
  | .illegal _ => .illegal

/-- The instruction's format, the table's `format` field (R101). -/
def Instr.mode : Instr → Mode
  | .lda m => m.mode
  | .ldx m => m.mode
  | .ldy m => m.mode
  | .sta m => m.mode
  | .stx m => m.mode
  | .sty m => m.mode
  | .tax => .imp
  | .tay => .imp
  | .txa => .imp
  | .tya => .imp
  | .tsx => .imp
  | .txs => .imp
  | .adc m => m.mode
  | .sbc m => m.mode
  | .and m => m.mode
  | .ora m => m.mode
  | .eor m => m.mode
  | .bit m => m.mode
  | .cmp m => m.mode
  | .cpx m => m.mode
  | .cpy m => m.mode
  | .asl m => m.mode
  | .lsr m => m.mode
  | .rol m => m.mode
  | .ror m => m.mode
  | .inc m => m.mode
  | .dec m => m.mode
  | .inx => .imp
  | .iny => .imp
  | .dex => .imp
  | .dey => .imp
  | .bpl _ => .rel
  | .bmi _ => .rel
  | .bvc _ => .rel
  | .bvs _ => .rel
  | .bcc _ => .rel
  | .bcs _ => .rel
  | .bne _ => .rel
  | .beq _ => .rel
  | .jmp t => t.mode
  | .jsr _ => .jsr
  | .rts => .rts
  | .brk _ => .brk
  | .rti => .rti
  | .pha => .push
  | .php => .push
  | .pla => .pull
  | .plp => .pull
  | .clc => .imp
  | .sec => .imp
  | .cli => .imp
  | .sei => .imp
  | .cld => .imp
  | .sed => .imp
  | .clv => .imp
  | .nop => .imp
  | .slo m => m.mode
  | .rla m => m.mode
  | .sre m => m.mode
  | .rra m => m.mode
  | .sax m => m.mode
  | .lax m => m.mode
  | .dcp m => m.mode
  | .isc m => m.mode
  | .illegal _ => .none

end Sys2Proof
end

