-- ==== Sys2Proof/WellFormed.lean ====
section
/-! DEFINITION. Which terms of `Instr` are instructions: the operand forms each rule of spec/41 to 46 gives its
mnemonic, and the illegal byte values of R112. -/

namespace Sys2Proof

/-- The formats that an instruction's rule lists under "Opcodes". -/
def Mnem.forms : Mnem → List Mode
  | .lda | .adc | .sbc | .and | .ora | .eor | .cmp =>
    [.imm, .zp, .zpx, .abs, .abx, .aby, .izx, .izy]
  | .ldx =>
    [.imm, .zp, .zpy, .abs, .aby]
  | .ldy =>
    [.imm, .zp, .zpx, .abs, .abx]
  | .sta | .slo | .rla | .sre | .rra | .dcp | .isc =>
    [.zp, .zpx, .abs, .abx, .aby, .izx, .izy]
  | .stx =>
    [.zp, .zpy, .abs]
  | .sty =>
    [.zp, .zpx, .abs]
  | .tax | .tay | .txa | .tya | .tsx | .txs | .inx | .iny | .dex | .dey | .clc | .sec | .cli
  | .sei | .cld | .sed | .clv | .nop =>
    [.imp]
  | .bit =>
    [.zp, .abs]
  | .cpx | .cpy =>
    [.imm, .zp, .abs]
  | .asl | .lsr | .rol | .ror =>
    [.acc, .zp, .zpx, .abs, .abx]
  | .inc | .dec =>
    [.zp, .zpx, .abs, .abx]
  | .bpl | .bmi | .bvc | .bvs | .bcc | .bcs | .bne | .beq =>
    [.rel]
  | .jmp =>
    [.absjmp, .ind]
  | .jsr =>
    [.jsr]
  | .rts =>
    [.rts]
  | .brk =>
    [.brk]
  | .rti =>
    [.rti]
  | .pha | .php =>
    [.push]
  | .pla | .plp =>
    [.pull]
  | .sax =>
    [.zp, .zpy, .abs, .izx]
  | .lax =>
    [.zp, .zpy, .abs, .aby, .izx, .izy]
  | .illegal =>
    [.none]

/-- The 53 illegal opcodes of R112 and R321. -/
def illegalOpcodes : List Byte :=
  [0x02, 0x04, 0x0B, 0x0C, 0x12, 0x14, 0x1A, 0x1C, 0x22, 0x2B, 0x32, 0x34, 0x3A, 0x3C]
    ++ [0x42, 0x44, 0x4B, 0x52, 0x54, 0x5A, 0x5C, 0x62, 0x64, 0x6B, 0x72, 0x74, 0x7A, 0x7C]
    ++ [0x80, 0x82, 0x89, 0x8B, 0x92, 0x93, 0x9B, 0x9C, 0x9E, 0x9F, 0xAB, 0xB2, 0xBB, 0xC2]
    ++ [0xCB, 0xD2, 0xD4, 0xDA, 0xDC, 0xE2, 0xEB, 0xF2, 0xF4, 0xFA, 0xFC]

/-- The operand form is one the instruction has; an `illegal` byte is one of R112's list. -/
def Instr.wellFormed (i : Instr) : Bool :=
  match i with
  | .illegal opc => illegalOpcodes.contains opc
  | i => i.mnem.forms.contains i.mode

/-- A well-formed instruction: a row of spec/opcode_table.json with operand bytes. -/
abbrev WellFormed (i : Instr) : Prop := i.wellFormed = true

end Sys2Proof
end

