-- ==== Sys2Proof/Decode.lean ====
section
/-! DEFINITION. Decoding, from the opcode map of spec/30_encoding.md R110, and encoding, from the opcode lists of the
instruction rules R180 to R320 (two places of the spec, so that each checks the other); operand assembly R101 to R106;
the byte-order helpers. -/

namespace Sys2Proof

/-- `hi(w)` (R10). -/
def hi (w : Word) : Byte := w.extractLsb' 8 8

/-- `lo(w)` (R10). -/
def lo (w : Word) : Byte := w.extractLsb' 0 8

/-- `h:l`, the word of two bytes (R10): the low byte is the one at the lower address (R80). -/
def word (h l : Byte) : Word := h ++ l

/-- Row 0x of R110. -/
def mapRow0 : List (Mnem × Mode) :=
  [(.brk, .brk), (.ora, .izx), (.illegal, .none), (.slo, .izx), (.illegal, .none), (.ora, .zp), (.asl, .zp), (.slo, .zp),
   (.php, .push), (.ora, .imm), (.asl, .acc), (.illegal, .none), (.illegal, .none), (.ora, .abs), (.asl, .abs), (.slo, .abs)]

/-- Row 1x of R110. -/
def mapRow1 : List (Mnem × Mode) :=
  [(.bpl, .rel), (.ora, .izy), (.illegal, .none), (.slo, .izy), (.illegal, .none), (.ora, .zpx), (.asl, .zpx), (.slo, .zpx),
   (.clc, .imp), (.ora, .aby), (.illegal, .none), (.slo, .aby), (.illegal, .none), (.ora, .abx), (.asl, .abx), (.slo, .abx)]

/-- Row 2x of R110. -/
def mapRow2 : List (Mnem × Mode) :=
  [(.jsr, .jsr), (.and, .izx), (.illegal, .none), (.rla, .izx), (.bit, .zp), (.and, .zp), (.rol, .zp), (.rla, .zp),
   (.plp, .pull), (.and, .imm), (.rol, .acc), (.illegal, .none), (.bit, .abs), (.and, .abs), (.rol, .abs), (.rla, .abs)]

/-- Row 3x of R110. -/
def mapRow3 : List (Mnem × Mode) :=
  [(.bmi, .rel), (.and, .izy), (.illegal, .none), (.rla, .izy), (.illegal, .none), (.and, .zpx), (.rol, .zpx), (.rla, .zpx),
   (.sec, .imp), (.and, .aby), (.illegal, .none), (.rla, .aby), (.illegal, .none), (.and, .abx), (.rol, .abx), (.rla, .abx)]

/-- Row 4x of R110. -/
def mapRow4 : List (Mnem × Mode) :=
  [(.rti, .rti), (.eor, .izx), (.illegal, .none), (.sre, .izx), (.illegal, .none), (.eor, .zp), (.lsr, .zp), (.sre, .zp),
   (.pha, .push), (.eor, .imm), (.lsr, .acc), (.illegal, .none), (.jmp, .absjmp), (.eor, .abs), (.lsr, .abs), (.sre, .abs)]

/-- Row 5x of R110. -/
def mapRow5 : List (Mnem × Mode) :=
  [(.bvc, .rel), (.eor, .izy), (.illegal, .none), (.sre, .izy), (.illegal, .none), (.eor, .zpx), (.lsr, .zpx), (.sre, .zpx),
   (.cli, .imp), (.eor, .aby), (.illegal, .none), (.sre, .aby), (.illegal, .none), (.eor, .abx), (.lsr, .abx), (.sre, .abx)]

/-- Row 6x of R110. -/
def mapRow6 : List (Mnem × Mode) :=
  [(.rts, .rts), (.adc, .izx), (.illegal, .none), (.rra, .izx), (.illegal, .none), (.adc, .zp), (.ror, .zp), (.rra, .zp),
   (.pla, .pull), (.adc, .imm), (.ror, .acc), (.illegal, .none), (.jmp, .ind), (.adc, .abs), (.ror, .abs), (.rra, .abs)]

/-- Row 7x of R110. -/
def mapRow7 : List (Mnem × Mode) :=
  [(.bvs, .rel), (.adc, .izy), (.illegal, .none), (.rra, .izy), (.illegal, .none), (.adc, .zpx), (.ror, .zpx), (.rra, .zpx),
   (.sei, .imp), (.adc, .aby), (.illegal, .none), (.rra, .aby), (.illegal, .none), (.adc, .abx), (.ror, .abx), (.rra, .abx)]

/-- Row 8x of R110. -/
def mapRow8 : List (Mnem × Mode) :=
  [(.illegal, .none), (.sta, .izx), (.illegal, .none), (.sax, .izx), (.sty, .zp), (.sta, .zp), (.stx, .zp), (.sax, .zp),
   (.dey, .imp), (.illegal, .none), (.txa, .imp), (.illegal, .none), (.sty, .abs), (.sta, .abs), (.stx, .abs), (.sax, .abs)]

/-- Row 9x of R110. -/
def mapRow9 : List (Mnem × Mode) :=
  [(.bcc, .rel), (.sta, .izy), (.illegal, .none), (.illegal, .none), (.sty, .zpx), (.sta, .zpx), (.stx, .zpy), (.sax, .zpy),
   (.tya, .imp), (.sta, .aby), (.txs, .imp), (.illegal, .none), (.illegal, .none), (.sta, .abx), (.illegal, .none), (.illegal, .none)]

/-- Row Ax of R110. -/
def mapRowA : List (Mnem × Mode) :=
  [(.ldy, .imm), (.lda, .izx), (.ldx, .imm), (.lax, .izx), (.ldy, .zp), (.lda, .zp), (.ldx, .zp), (.lax, .zp),
   (.tay, .imp), (.lda, .imm), (.tax, .imp), (.illegal, .none), (.ldy, .abs), (.lda, .abs), (.ldx, .abs), (.lax, .abs)]

/-- Row Bx of R110. -/
def mapRowB : List (Mnem × Mode) :=
  [(.bcs, .rel), (.lda, .izy), (.illegal, .none), (.lax, .izy), (.ldy, .zpx), (.lda, .zpx), (.ldx, .zpy), (.lax, .zpy),
   (.clv, .imp), (.lda, .aby), (.tsx, .imp), (.illegal, .none), (.ldy, .abx), (.lda, .abx), (.ldx, .aby), (.lax, .aby)]

/-- Row Cx of R110. -/
def mapRowC : List (Mnem × Mode) :=
  [(.cpy, .imm), (.cmp, .izx), (.illegal, .none), (.dcp, .izx), (.cpy, .zp), (.cmp, .zp), (.dec, .zp), (.dcp, .zp),
   (.iny, .imp), (.cmp, .imm), (.dex, .imp), (.illegal, .none), (.cpy, .abs), (.cmp, .abs), (.dec, .abs), (.dcp, .abs)]

/-- Row Dx of R110. -/
def mapRowD : List (Mnem × Mode) :=
  [(.bne, .rel), (.cmp, .izy), (.illegal, .none), (.dcp, .izy), (.illegal, .none), (.cmp, .zpx), (.dec, .zpx), (.dcp, .zpx),
   (.cld, .imp), (.cmp, .aby), (.illegal, .none), (.dcp, .aby), (.illegal, .none), (.cmp, .abx), (.dec, .abx), (.dcp, .abx)]

/-- Row Ex of R110. -/
def mapRowE : List (Mnem × Mode) :=
  [(.cpx, .imm), (.sbc, .izx), (.illegal, .none), (.isc, .izx), (.cpx, .zp), (.sbc, .zp), (.inc, .zp), (.isc, .zp),
   (.inx, .imp), (.sbc, .imm), (.nop, .imp), (.illegal, .none), (.cpx, .abs), (.sbc, .abs), (.inc, .abs), (.isc, .abs)]

/-- Row Fx of R110. -/
def mapRowF : List (Mnem × Mode) :=
  [(.beq, .rel), (.sbc, .izy), (.illegal, .none), (.isc, .izy), (.illegal, .none), (.sbc, .zpx), (.inc, .zpx), (.isc, .zpx),
   (.sed, .imp), (.sbc, .aby), (.illegal, .none), (.isc, .aby), (.illegal, .none), (.sbc, .abx), (.inc, .abx), (.isc, .abx)]

/-- The complete opcode map of R110, by the opcode's high nibble. -/
def opcodeMap : List (List (Mnem × Mode)) :=
  [mapRow0, mapRow1, mapRow2, mapRow3, mapRow4, mapRow5, mapRow6, mapRow7,
   mapRow8, mapRow9, mapRowA, mapRowB, mapRowC, mapRowD, mapRowE, mapRowF]

/-- The operation and the addressing mode an opcode byte selects (R111, R133). Decoding is total: every byte is in
exactly one class. -/
def opcodeRow (opc : Byte) : Mnem × Mode :=
  (opcodeMap.getD (opc.toNat / 16) []).getD (opc.toNat % 16) (.illegal, .none)

/-- The length in bytes that a mode fixes (R115); an illegal opcode has length 1. -/
def Mode.length : Mode → Nat
  | .imp | .acc | .rts | .rti | .push | .pull | .none => 1
  | .imm | .zp | .zpx | .zpy | .izx | .izy | .rel | .brk => 2
  | .abs | .abx | .aby | .ind | .absjmp | .jsr => 3

/-- The operand form of a mode with the instruction's second and third bytes (R101 to R104, R106): a two-byte
quantity has its low byte first. -/
def operandOf (m : Mode) (b2 b3 : Byte) : Operand :=
  match m with
  | .imm => .imm b2
  | .zp => .zp b2
  | .zpx => .zpx b2
  | .zpy => .zpy b2
  | .abs => .abs (word b3 b2)
  | .abx => .abx (word b3 b2)
  | .aby => .aby (word b3 b2)
  | .izx => .izx b2
  | .izy => .izy b2
  | _ => .acc

def jumpOperandOf (m : Mode) (b2 b3 : Byte) : JumpOperand :=
  match m with
  | .ind => .ind (word b3 b2)
  | _ => .abs (word b3 b2)

/-- The instruction of a mnemonic and a mode, with its opcode byte and its second and third bytes. -/
def assemble (k : Mnem) (m : Mode) (opc b2 b3 : Byte) : Instr :=
  match k with
  | .lda => .lda (operandOf m b2 b3)
  | .ldx => .ldx (operandOf m b2 b3)
  | .ldy => .ldy (operandOf m b2 b3)
  | .sta => .sta (operandOf m b2 b3)
  | .stx => .stx (operandOf m b2 b3)
  | .sty => .sty (operandOf m b2 b3)
  | .tax => .tax
  | .tay => .tay
  | .txa => .txa
  | .tya => .tya
  | .tsx => .tsx
  | .txs => .txs
  | .adc => .adc (operandOf m b2 b3)
  | .sbc => .sbc (operandOf m b2 b3)
  | .and => .and (operandOf m b2 b3)
  | .ora => .ora (operandOf m b2 b3)
  | .eor => .eor (operandOf m b2 b3)
  | .bit => .bit (operandOf m b2 b3)
  | .cmp => .cmp (operandOf m b2 b3)
  | .cpx => .cpx (operandOf m b2 b3)
  | .cpy => .cpy (operandOf m b2 b3)
  | .asl => .asl (operandOf m b2 b3)
  | .lsr => .lsr (operandOf m b2 b3)
  | .rol => .rol (operandOf m b2 b3)
  | .ror => .ror (operandOf m b2 b3)
  | .inc => .inc (operandOf m b2 b3)
  | .dec => .dec (operandOf m b2 b3)
  | .inx => .inx
  | .iny => .iny
  | .dex => .dex
  | .dey => .dey
  | .bpl => .bpl b2
  | .bmi => .bmi b2
  | .bvc => .bvc b2
  | .bvs => .bvs b2
  | .bcc => .bcc b2
  | .bcs => .bcs b2
  | .bne => .bne b2
  | .beq => .beq b2
  | .jmp => .jmp (jumpOperandOf m b2 b3)
  | .jsr => .jsr (word b3 b2)
  | .rts => .rts
  | .brk => .brk b2
  | .rti => .rti
  | .pha => .pha
  | .php => .php
  | .pla => .pla
  | .plp => .plp
  | .clc => .clc
  | .sec => .sec
  | .cli => .cli
  | .sei => .sei
  | .cld => .cld
  | .sed => .sed
  | .clv => .clv
  | .nop => .nop
  | .slo => .slo (operandOf m b2 b3)
  | .rla => .rla (operandOf m b2 b3)
  | .sre => .sre (operandOf m b2 b3)
  | .rra => .rra (operandOf m b2 b3)
  | .sax => .sax (operandOf m b2 b3)
  | .lax => .lax (operandOf m b2 b3)
  | .dcp => .dcp (operandOf m b2 b3)
  | .isc => .isc (operandOf m b2 b3)
  | .illegal => .illegal opc

/-- The instruction whose first byte is `opc` and whose further bytes, as far as it has any, are `b2` and `b3`. -/
def instrOf (opc b2 b3 : Byte) : Instr :=
  assemble (opcodeRow opc).1 (opcodeRow opc).2 opc b2 b3

/-- The number of bytes of the instruction that begins with `opc` (R115). -/
def lengthOf (opc : Byte) : Nat := (opcodeRow opc).2.length

/-- Why bytes are no instruction. -/
inductive DecodeError
  /-- There is no byte at all. -/
  | noBytes
  /-- The opcode's operand bytes are not all there. -/
  | truncated (opc : Byte)
  deriving DecidableEq, Repr

/-- Decodes the instruction at the head of a list of bytes, and gives the bytes after it. Total: every opcode byte
has a row (R111), so only missing operand bytes are rejected. -/
def decode : List Byte → Except DecodeError (Instr × List Byte)
  | [] => .error .noBytes
  | opc :: rest =>
    match lengthOf opc, rest with
    | 1, rest => .ok (instrOf opc 0 0, rest)
    | 2, b2 :: rest => .ok (instrOf opc b2 0, rest)
    | 3, b2 :: b3 :: rest => .ok (instrOf opc b2 b3, rest)
    | _, _ => .error (.truncated opc)

/-- The opcodes that an instruction's rule lists, one per mode. -/
def Mnem.opcodes : Mnem → List (Mode × Byte)
  | .lda =>
    [(.imm, 0xA9), (.zp, 0xA5), (.zpx, 0xB5), (.abs, 0xAD), (.abx, 0xBD), (.aby, 0xB9), (.izx, 0xA1), (.izy, 0xB1)]
  | .ldx => [(.imm, 0xA2), (.zp, 0xA6), (.zpy, 0xB6), (.abs, 0xAE), (.aby, 0xBE)]
  | .ldy => [(.imm, 0xA0), (.zp, 0xA4), (.zpx, 0xB4), (.abs, 0xAC), (.abx, 0xBC)]
  | .sta =>
    [(.zp, 0x85), (.zpx, 0x95), (.abs, 0x8D), (.abx, 0x9D), (.aby, 0x99), (.izx, 0x81), (.izy, 0x91)]
  | .stx => [(.zp, 0x86), (.zpy, 0x96), (.abs, 0x8E)]
  | .sty => [(.zp, 0x84), (.zpx, 0x94), (.abs, 0x8C)]
  | .tax => [(.imp, 0xAA)]
  | .tay => [(.imp, 0xA8)]
  | .txa => [(.imp, 0x8A)]
  | .tya => [(.imp, 0x98)]
  | .tsx => [(.imp, 0xBA)]
  | .txs => [(.imp, 0x9A)]
  | .adc =>
    [(.imm, 0x69), (.zp, 0x65), (.zpx, 0x75), (.abs, 0x6D), (.abx, 0x7D), (.aby, 0x79), (.izx, 0x61), (.izy, 0x71)]
  | .sbc =>
    [(.imm, 0xE9), (.zp, 0xE5), (.zpx, 0xF5), (.abs, 0xED), (.abx, 0xFD), (.aby, 0xF9), (.izx, 0xE1), (.izy, 0xF1)]
  | .and =>
    [(.imm, 0x29), (.zp, 0x25), (.zpx, 0x35), (.abs, 0x2D), (.abx, 0x3D), (.aby, 0x39), (.izx, 0x21), (.izy, 0x31)]
  | .ora =>
    [(.imm, 0x09), (.zp, 0x05), (.zpx, 0x15), (.abs, 0x0D), (.abx, 0x1D), (.aby, 0x19), (.izx, 0x01), (.izy, 0x11)]
  | .eor =>
    [(.imm, 0x49), (.zp, 0x45), (.zpx, 0x55), (.abs, 0x4D), (.abx, 0x5D), (.aby, 0x59), (.izx, 0x41), (.izy, 0x51)]
  | .bit => [(.zp, 0x24), (.abs, 0x2C)]
  | .cmp =>
    [(.imm, 0xC9), (.zp, 0xC5), (.zpx, 0xD5), (.abs, 0xCD), (.abx, 0xDD), (.aby, 0xD9), (.izx, 0xC1), (.izy, 0xD1)]
  | .cpx => [(.imm, 0xE0), (.zp, 0xE4), (.abs, 0xEC)]
  | .cpy => [(.imm, 0xC0), (.zp, 0xC4), (.abs, 0xCC)]
  | .asl => [(.acc, 0x0A), (.zp, 0x06), (.zpx, 0x16), (.abs, 0x0E), (.abx, 0x1E)]
  | .lsr => [(.acc, 0x4A), (.zp, 0x46), (.zpx, 0x56), (.abs, 0x4E), (.abx, 0x5E)]
  | .rol => [(.acc, 0x2A), (.zp, 0x26), (.zpx, 0x36), (.abs, 0x2E), (.abx, 0x3E)]
  | .ror => [(.acc, 0x6A), (.zp, 0x66), (.zpx, 0x76), (.abs, 0x6E), (.abx, 0x7E)]
  | .inc => [(.zp, 0xE6), (.zpx, 0xF6), (.abs, 0xEE), (.abx, 0xFE)]
  | .dec => [(.zp, 0xC6), (.zpx, 0xD6), (.abs, 0xCE), (.abx, 0xDE)]
  | .inx => [(.imp, 0xE8)]
  | .iny => [(.imp, 0xC8)]
  | .dex => [(.imp, 0xCA)]
  | .dey => [(.imp, 0x88)]
  | .bpl => [(.rel, 0x10)]
  | .bmi => [(.rel, 0x30)]
  | .bvc => [(.rel, 0x50)]
  | .bvs => [(.rel, 0x70)]
  | .bcc => [(.rel, 0x90)]
  | .bcs => [(.rel, 0xB0)]
  | .bne => [(.rel, 0xD0)]
  | .beq => [(.rel, 0xF0)]
  | .jmp => [(.absjmp, 0x4C), (.ind, 0x6C)]
  | .jsr => [(.jsr, 0x20)]
  | .rts => [(.rts, 0x60)]
  | .brk => [(.brk, 0x00)]
  | .rti => [(.rti, 0x40)]
  | .pha => [(.push, 0x48)]
  | .php => [(.push, 0x08)]
  | .pla => [(.pull, 0x68)]
  | .plp => [(.pull, 0x28)]
  | .clc => [(.imp, 0x18)]
  | .sec => [(.imp, 0x38)]
  | .cli => [(.imp, 0x58)]
  | .sei => [(.imp, 0x78)]
  | .cld => [(.imp, 0xD8)]
  | .sed => [(.imp, 0xF8)]
  | .clv => [(.imp, 0xB8)]
  | .nop => [(.imp, 0xEA)]
  | .slo =>
    [(.zp, 0x07), (.zpx, 0x17), (.abs, 0x0F), (.abx, 0x1F), (.aby, 0x1B), (.izx, 0x03), (.izy, 0x13)]
  | .rla =>
    [(.zp, 0x27), (.zpx, 0x37), (.abs, 0x2F), (.abx, 0x3F), (.aby, 0x3B), (.izx, 0x23), (.izy, 0x33)]
  | .sre =>
    [(.zp, 0x47), (.zpx, 0x57), (.abs, 0x4F), (.abx, 0x5F), (.aby, 0x5B), (.izx, 0x43), (.izy, 0x53)]
  | .rra =>
    [(.zp, 0x67), (.zpx, 0x77), (.abs, 0x6F), (.abx, 0x7F), (.aby, 0x7B), (.izx, 0x63), (.izy, 0x73)]
  | .sax => [(.zp, 0x87), (.zpy, 0x97), (.abs, 0x8F), (.izx, 0x83)]
  | .lax =>
    [(.zp, 0xA7), (.zpy, 0xB7), (.abs, 0xAF), (.aby, 0xBF), (.izx, 0xA3), (.izy, 0xB3)]
  | .dcp =>
    [(.zp, 0xC7), (.zpx, 0xD7), (.abs, 0xCF), (.abx, 0xDF), (.aby, 0xDB), (.izx, 0xC3), (.izy, 0xD3)]
  | .isc =>
    [(.zp, 0xE7), (.zpx, 0xF7), (.abs, 0xEF), (.abx, 0xFF), (.aby, 0xFB), (.izx, 0xE3), (.izy, 0xF3)]
  | .illegal => []

/-- The opcode byte of an instruction; none for a term that is no instruction. -/
def Instr.opcode (i : Instr) : Option Byte :=
  match i with
  | .illegal opc => if illegalOpcodes.contains opc then some opc else none
  | i => i.mnem.opcodes.lookup i.mode

/-- The operand bytes of an operand form, in memory order (R80, R101). -/
def Operand.bytes : Operand → List Byte
  | .acc => []
  | .imm b | .zp b | .zpx b | .zpy b | .izx b | .izy b => [b]
  | .abs w | .abx w | .aby w => [lo w, hi w]

def JumpOperand.bytes : JumpOperand → List Byte
  | .abs w | .ind w => [lo w, hi w]

/-- The bytes after the opcode, in memory order (R101). -/
def Instr.operandBytes : Instr → List Byte
  | .lda m | .ldx m | .ldy m | .sta m | .stx m | .sty m | .adc m | .sbc m | .and m | .ora m | .eor m
  | .bit m | .cmp m | .cpx m | .cpy m | .asl m | .lsr m | .rol m | .ror m | .inc m | .dec m | .slo m
  | .rla m | .sre m | .rra m | .sax m | .lax m | .dcp m | .isc m => m.bytes
  | .jmp t => t.bytes
  | .jsr t => [lo t, hi t]
  | .bpl b | .bmi b | .bvc b | .bvs b | .bcc b | .bcs b | .bne b | .beq b | .brk b => [b]
  | .tax | .tay | .txa | .tya | .tsx | .txs | .inx | .iny | .dex | .dey | .rts | .rti | .pha
  | .php | .pla | .plp | .clc | .sec | .cli | .sei | .cld | .sed | .clv | .nop => []
  | .illegal _ => []

/-- The words of a well-formed instruction: its opcode byte and its operand bytes. A term that is no instruction has
none. -/
def encode (i : Instr) : List Byte :=
  match i.opcode with
  | some opc => opc :: i.operandBytes
  | none => []

/-- The instruction the decoder reads from bits numbered as spec/opcode_table.json numbers them: the first byte is
bits 7..0, the second bits 15..8; the bits at and above `nbits` are 0. -/
def decodeTableWord (nbits w : Nat) : Option Instr :=
  let v := w % 2 ^ nbits
  match decode [BitVec.ofNat 8 v, BitVec.ofNat 8 (v / 256), BitVec.ofNat 8 (v / 65536)] with
  | .ok (i, _) => some i
  | .error _ => none

end Sys2Proof
end

