-- ==== Sys2Proof/Config.lean ====
section
/-! DEFINITION. What the spec leaves to the machine's surroundings: the OPEN parameters and the oracles of
spec/00_scope.md R8, as constants with no body, so that no proof can see a value of them. -/

namespace Sys2Proof

/-- One bus cycle as seen on the bus (R6, R13): a read with the value it returned, a write with its value and the
CPU's PC as it stands in the write cycle (R75; DEDUCED, log 20), or an idle cycle (R13, R155). -/
inductive BusCycle
  | read (addr : Word) (value : Byte)
  | write (addr : Word) (value : Byte) (pc : Word)
  | idle
  deriving DecidableEq, Repr

/-- The two I/O chips of R355. -/
inductive CiaId
  | cia1
  | cia2
  deriving DecidableEq, Repr

/-- `CHAR_SHADOW_BYTE` (R71, decision D7): OPEN, one fixed byte. DESIGN CHOICE: opaque (log 5). -/
opaque Config.charShadowByte : Byte

/-- `VIC_GAP_BYTE` (R69, decision D8): OPEN, one fixed byte. DESIGN CHOICE: opaque (log 5). -/
opaque Config.vicGapByte : Byte

/-- `vic_read(off)` (R356): the external video controller's answer. It may depend on anything outside the block,
earlier writes included: on how often the host has advanced the peripherals (`ext`), on every bus cycle so far
(`history`, newest first) and on the offset. DESIGN CHOICE: these arguments, for all four oracles (log 6). -/
opaque Config.vicRead (ext : Nat) (history : List BusCycle) (off : BitVec 6) : Byte

/-- `cia_read(n, off)` (R358): the external chip's answer for offsets 4 to 15. -/
opaque Config.ciaRead (n : CiaId) (ext : Nat) (history : List BusCycle) (off : BitVec 4) : Byte

/-- `cia_ext_a(n)` (R358): the external levels at port A's pins. -/
opaque Config.ciaExtA (n : CiaId) (ext : Nat) (history : List BusCycle) : Byte

/-- `cia_ext_b(n)` (R358): the external levels at port B's pins. -/
opaque Config.ciaExtB (n : CiaId) (ext : Nat) (history : List BusCycle) : Byte

end Sys2Proof
end

