-- ==== Sys2Proof/Machine/State.lean ====
section
/-! DEFINITION. The machine's state (spec/10_state.md), its reasons to stop, and its state after reset. Plain data. -/

namespace Sys2Proof.Machine

/-- The six stored bits of the status word P (R25). Break and unused are not storage (R26). -/
structure Flags where
  n : Bool
  v : Bool
  d : Bool
  i : Bool
  z : Bool
  c : Bool
  deriving DecidableEq, Repr

/-- A selected micro-step sequence: the addressing mode with its access class, or a fixed sequence, or IRQ entry
(R29, R133). -/
inductive Seq
  /-- R137: `imp` and `acc`. -/
  | internal
  /-- R138 to R144, read form. -/
  | read (m : Mode)
  /-- R139 to R144, write form. -/
  | write (m : Mode)
  /-- R139 to R144, read-modify-write form. -/
  | rmw (m : Mode)
  /-- R145. -/
  | branch
  /-- R146. -/
  | jmpAbs
  /-- R147. -/
  | jmpInd
  /-- R148. -/
  | jsr
  /-- R149. -/
  | rts
  /-- R150. -/
  | rti
  /-- R151. -/
  | push
  /-- R152. -/
  | pull
  /-- R153. -/
  | brk
  /-- R154. -/
  | irq
  /-- R155: `len` bytes long, `cycles` cycles in all. -/
  | nop (len cycles : Nat)
  deriving DecidableEq, Repr

/-- The internal latches of R31. DEDUCED: an instruction boundary holds none (log 8). -/
structure Latches where
  bal : Byte := 0
  bah : Byte := 0
  ptr : Byte := 0
  ea : Word := 0
  eau : Word := 0
  fix : Bool := false
  dat : Byte := 0
  tgt : Word := 0
  deriving DecidableEq, Repr

/-- An instruction in progress (R29, R31): the opcode being executed, its sequence, the index of the next cycle, and
the latches. -/
structure InFlight where
  opc : Byte
  seq : Seq
  t : Nat
  latches : Latches
  deriving DecidableEq, Repr

/-- The outer state of the core (R30). At an instruction boundary no sequence is selected. -/
inductive Phase
  | fetchOpcode
  | runMicroSteps (f : InFlight)
  deriving DecidableEq, Repr

/-- The halt state (R34). DESIGN CHOICE: a halted core is a next state, not a fault (log 9). -/
inductive Halt
  | none
  | fatalHalt (pc : Word) (opcode : Byte)
  | unimplementedOpcode (pc : Word) (opcode : Byte)
  deriving DecidableEq, Repr

/-- The port bytes of one I/O chip (R357). -/
structure CiaPorts where
  pra : Byte
  prb : Byte
  ddra : Byte
  ddrb : Byte
  deriving DecidableEq, Repr

/-- The states of the serial-bus machine (R38). -/
inductive SerialState
  | idle
  | waitCommand
  | waitSecondaryAddress
  | eoi
  | listen
  | talk
  deriving DecidableEq, Repr

/-- A notification of the serial-bus machine to the host (R38, R376). -/
inductive Event
  | openFile (primary secondary : Byte) (name : List Byte)
  deriving DecidableEq, Repr

/-- The serial-bus state (R38). `ack` is true when the acknowledgement line is asserted (R371); `events` is oldest
first. -/
structure SerialBus where
  sstate : SerialState
  nbits : Nat
  shreg : Byte
  primary : Byte
  secondary : Byte
  queue : List Byte
  ack : Bool
  events : List Event
  deriving DecidableEq, Repr

/-- `DECIMAL_MODE` (R200). -/
inductive DecimalMode
  | binary
  | nmosBcd
  deriving DecidableEq, Repr

/-- `UNOFFICIAL_POLICY` (R310). -/
inductive UnofficialPolicy
  | error
  | nopWithCycles
  | implement
  deriving DecidableEq, Repr

/-- `ACK_POLARITY` (R371). -/
inductive AckPolarity
  | activeLow
  | activeHigh
  deriving DecidableEq, Repr

/-- The parameters of R8 that have a default. They are fixed for a run (R39): no step and no host action changes
them. DESIGN CHOICE: they stand in the state, so that every statement about a state is one about every choice of them
(log 4). -/
structure Params where
  decimalMode : DecimalMode
  unofficialPolicy : UnofficialPolicy
  ackPolarity : AckPolarity
  deriving DecidableEq, Repr

/-- The peripherals outside the block that a write is delivered to (R355). -/
inductive Peripheral
  | vic
  | cia (n : CiaId)
  deriving DecidableEq, Repr

/-- One call `peripheral.write(offset, value, currentPC)` (R75) that leaves the block. -/
structure Delivery where
  target : Peripheral
  offset : Nat
  value : Byte
  pc : Word
  deriving DecidableEq, Repr

/-- Bytes by address: addresses strictly rising, and no entry equal to what an unlisted address reads as. -/
abbrev Memory := List Host.Cell

/-- The whole state of the block. -/
structure State where
  /-- The registers of R20. -/
  a : Byte
  x : Byte
  y : Byte
  sp : Byte
  pc : Word
  p : Flags
  /-- The instruction state of R29 to R31. -/
  phase : Phase
  /-- The latches of R32 and R33. -/
  irqPending : Bool
  pausePending : Bool
  halt : Halt
  /-- The memory state of R35: the 64 KiB of RAM, and the ROM images by offset. -/
  ram : Memory
  kernalRom : Memory
  basicRom : Option Memory
  /-- The model's own (DESIGN CHOICE, log 14): the ROM images may still be loaded. They are loaded once, and before the
  first `reset()` (R402). -/
  romsOpen : Bool
  /-- R36. -/
  redrawNeeded : Bool
  /-- The windows' state of R37. -/
  cia1 : CiaPorts
  cia2 : CiaPorts
  outA2 : Byte
  /-- R38. -/
  serial : SerialBus
  params : Params
  /-- The model's own (DESIGN CHOICE, log 14): every bus cycle so far, newest first, which R6 calls observable. -/
  history : List BusCycle
  /-- The model's own (log 14): the writes delivered out of the block (R356, R361), oldest first. -/
  deliveries : List Delivery
  /-- The model's own (log 14): how often the host has advanced the external peripherals (R388). -/
  extTime : Nat
  deriving DecidableEq, Repr

/-- The reasons a step can stop with a fault. The spec gives the hardware none: its error states are the halt state
(R331) and its other failures are dropped or unreachable (R334, R335, R336). -/
inductive Fault
  /-- Raised by a micro-step when the state names a cycle that its sequence does not have. No run reaches such a
  state (`Inv`, Safety.lean). DESIGN CHOICE, safe: the machine stops where the spec says nothing (log 10). -/
  | noSuchCycle
  deriving DecidableEq, Repr

/-- The reasons a step can be refused. -/
inductive Refusal
  /-- An instruction whose arm of `exec` gives it no meaning. Safe. -/
  | notModelled (mnemonic : String)
  /-- Raised by a bus read of the BASIC range while LORAM and HIRAM are set and no BASIC image is loaded: the spec
  itself refuses it (R67, R332). DEDUCED, safe (log 16). -/
  | basicRomAbsent
  /-- Raised by `exec` on a term of `Instr` that is no instruction (not `WellFormed`); the decoder gives none. DESIGN CHOICE,
  safe (log 11). -/
  | illFormed
  deriving DecidableEq, Repr

/-- The result of a meaning or an operation of the machine. -/
abbrev Result (α : Type) := Host.Outcome α Fault Refusal

/-- The state right after reset: power-on (R400), the ROM images loaded (R402), then `reset()` (R403). The values the
spec gives are those of R40's "after `reset()`" and "after power-on" columns. DESIGN CHOICE: A, X, Y and N, V, D, Z, C
are 0 (log 1), unlisted RAM reads 0 (log 2), both ROM images are loaded and hold 0 but for the reset vector 0xC000 of
spec/95_test_vectors.md (log 3). The parameters have the spec's defaults (R8). RAM[0x0001] = 0x37 is what the unlisted
address 1 reads as (`ramUnlisted`). -/
def State.reset : State where
  a := 0x00
  x := 0x00
  y := 0x00
  sp := 0xFF
  pc := 0xC000
  p := { n := false, v := false, d := false, i := true, z := false, c := false }
  phase := .fetchOpcode
  irqPending := false
  pausePending := false
  halt := .none
  ram := []
  kernalRom := [(0x1FFD, 0xC0)]
  basicRom := some []
  romsOpen := false
  redrawNeeded := false
  cia1 := { pra := 0, prb := 0, ddra := 0, ddrb := 0 }
  cia2 := { pra := 0, prb := 0, ddra := 0, ddrb := 0 }
  outA2 := 0x00
  serial :=
    { sstate := .idle, nbits := 0, shreg := 0, primary := 0, secondary := 0, queue := [], ack := false, events := [] }
  params := { decimalMode := .binary, unofficialPolicy := .error, ackPolarity := .activeLow }
  history := []
  deliveries := []
  extTime := 0

end Sys2Proof.Machine
end

