-- ==== Sys2Proof/Machine/Serial.lean ====
section
/-! DEFINITION. The serial-bus protocol state machine (spec/60_exceptions.md R365 to R380). Its one entry point is
`edgeNotify`. -/

namespace Sys2Proof.Machine

/-- `Clear()` (R366). -/
def SerialBus.clear (b : SerialBus) : SerialBus := { b with nbits := 0, shreg := 0 }

/-- `Shift(bit)` (R366, R369): the bit goes into position `nbits`, least significant first. -/
def SerialBus.shift (bit : Bool) (b : SerialBus) : SerialBus :=
  { b with shreg := b.shreg ||| ((BitVec.ofBool bit).setWidth 8 <<< b.nbits), nbits := b.nbits + 1 }

/-- ATN asserted in an output byte (R367). -/
def lineAtn (out : Byte) : Bool := out.getLsbD 3

/-- CLK held low in an output byte (R367). -/
def lineClkLow (out : Byte) : Bool := out.getLsbD 4

/-- The data bit of an output byte: 1 when bit 0x20 is 0 (R366, R367). -/
def lineBit (out : Byte) : Bool := !out.getLsbD 5

/-- A CLK rise: bit 0x10 changed, and is now 0 (R368). -/
def clkRise (ch out : Byte) : Bool := ch.getLsbD 4 && !lineClkLow out

/-- `IdleStep` (R370). -/
def SerialBus.idleStep (atn clkLow : Bool) (b : SerialBus) : SerialBus :=
  if atn && clkLow then ({ b with sstate := .waitCommand, ack := true }).clear else b

/-- A complete command byte (R372). Every byte that is neither LISTEN nor TALK is dropped (R334, R378). -/
def SerialBus.command (cmd : Byte) (b : SerialBus) : SerialBus :=
  if 0x20 ≤ cmd ∧ cmd ≤ 0x3E then
    { b with primary := cmd &&& 0x1F, ack := false, sstate := .waitSecondaryAddress }
  else if 0x40 ≤ cmd ∧ cmd ≤ 0x5E then
    { b with primary := cmd &&& 0x1F, ack := false, sstate := .talk }
  else b

/-- `CommandBit` (R372). -/
def SerialBus.commandBit (bit : Bool) (b : SerialBus) : SerialBus :=
  let b := b.shift bit
  if b.nbits = 8 then (b.clear).command b.shreg else b

/-- `SecondaryBit` (R373). -/
def SerialBus.secondaryBit (bit : Bool) (b : SerialBus) : SerialBus :=
  let b := b.shift bit
  if b.nbits = 8 then { b.clear with secondary := b.shreg, ack := false, sstate := .eoi } else b

/-- `EoiPulse` (R374). -/
def SerialBus.eoiPulse (b : SerialBus) : SerialBus := ({ b with sstate := .listen }).clear

/-- `Unlisten` (R376). -/
def SerialBus.unlisten (b : SerialBus) : SerialBus :=
  { b with events := b.events ++ [.openFile b.primary b.secondary b.queue], queue := [], ack := false, sstate := .idle }

/-- A complete byte in Listen (R375): with ATN only UNLISTEN counts, without ATN the byte is payload. -/
def SerialBus.listenByte (byte : Byte) (atn : Bool) (b : SerialBus) : SerialBus :=
  if atn then
    if byte = 0x3F then b.unlisten else b
  else { b with queue := b.queue ++ [byte] }

/-- `ListenBit` (R375). -/
def SerialBus.listenBit (bit atn : Bool) (b : SerialBus) : SerialBus :=
  let b := b.shift bit
  if b.nbits = 8 then (b.clear).listenByte b.shreg atn else b

/-- `edgeNotify(ch)` (R366) with the output byte `out` that has just changed in the bits `ch`. -/
def SerialBus.edgeNotify (ch out : Byte) (b : SerialBus) : SerialBus :=
  let rise := clkRise ch out
  match b.sstate with
  | .idle => b.idleStep (lineAtn out) (lineClkLow out)
  | .waitCommand => if rise then b.commandBit (lineBit out) else b
  | .waitSecondaryAddress => if rise then b.secondaryBit (lineBit out) else b
  | .eoi => if rise then b.eoiPulse else b
  | .listen => if rise then b.listenBit (lineBit out) (lineAtn out) else b
  | .talk => b

end Sys2Proof.Machine
end

