-- ==== Sys2Proof/Machine/Bus.lean ====
section
/-! DEFINITION. Memory in canonical form, the AddressBus decode (spec/20_memory.md), the peripheral windows
(spec/60_exceptions.md R355 to R362), and the two bus operations `Read` and `Write`. -/

namespace Sys2Proof.Machine

/-! ## Outcomes -/

/-- Goes on with the value of a result; a fault or a refusal ends it. -/
def andThen {α β : Type} (r : Result α) (k : α → Result β) : Result β :=
  match r with
  | .next v => k v
  | .fault f => .fault f
  | .refused q => .refused q

/-! ## Memory -/

/-- The byte at an address: the entry, or what an unlisted address reads as. -/
def Memory.get (unlisted : Nat → Byte) : Memory → Nat → Byte
  | [], a => unlisted a
  | (k, v) :: m, a => if a = k then v else Memory.get unlisted m a

/-- Removes an address's entry. -/
def Memory.erase : Memory → Nat → Memory
  | [], _ => []
  | (k, v) :: m, a => if a = k then Memory.erase m a else (k, v) :: Memory.erase m a

/-- Puts an entry in its place by address. -/
def Memory.insert : Memory → Nat → Byte → Memory
  | [], a, v => [(a, v)]
  | (k, w) :: m, a, v => if a < k then (a, v) :: (k, w) :: m else (k, w) :: Memory.insert m a v

/-- Writes a byte, and keeps the canonical form: writing what an unlisted address reads as removes the entry. -/
def Memory.set (unlisted : Nat → Byte) (m : Memory) (a : Nat) (v : Byte) : Memory :=
  if v = unlisted a then m.erase a else (m.erase a).insert a v

/-- Addresses strictly rise. -/
def Memory.rising : Memory → Bool
  | (a, _) :: (b, w) :: m => decide (a < b) && Memory.rising ((b, w) :: m)
  | _ => true

/-- The canonical form: rising addresses below `size`, no entry equal to what the unlisted address reads as. -/
def Memory.wf (unlisted : Nat → Byte) (size : Nat) (m : Memory) : Bool :=
  m.rising && m.all fun c => decide (c.1 < size) && decide (c.2 ≠ unlisted c.1)

/-- What a RAM byte that nothing has written reads as: 0x37 at address 1 (R401), and elsewhere 0, a DESIGN CHOICE
(log 2) for the spec's `RAM_INIT`. -/
def ramUnlisted (a : Nat) : Byte := if a = 1 then 0x37 else 0x00

/-- What an unlisted byte of a ROM image is: 0, a DESIGN CHOICE (log 3). -/
def romUnlisted (_ : Nat) : Byte := 0x00

/-- The RAM array's byte (R35), with no bank decode. -/
def ramRead (s : State) (a : Word) : Byte := s.ram.get ramUnlisted a.toNat

/-- Stores into the RAM array, with no bank decode. -/
def ramWrite (a : Word) (v : Byte) (s : State) : State := { s with ram := s.ram.set ramUnlisted a.toNat v }

/-! ## The decode -/

/-- Where an access goes (R64 to R74). -/
inductive Target
  | ram
  | basic
  | kernal
  | vic (off : BitVec 6)
  | vicGap
  | charShadow
  | cia (n : CiaId) (off : BitVec 4)
  deriving DecidableEq, Repr

/-- The sub-windows of the I/O page (R68, R69, R70). -/
def ioTarget (a : Word) : Target :=
  if a ≤ 0xD3FF then
    let off := a.setWidth 6
    if off < 47 then .vic off else .vicGap
  else if a ≤ 0xDBFF then .charShadow
  else if a ≤ 0xDCFF then .cia .cia1 (a.setWidth 4)
  else if a ≤ 0xDDFF then .cia .cia2 (a.setWidth 4)
  else .charShadow

/-- The decode of an address under the byte RAM[0x0001] (R62, R64, R65): LORAM is its bit 0, HIRAM its bit 1, CHAREN
its bit 2. Reads (R66) and writes (R72) share it. -/
def decodeAddr (bank : Byte) (a : Word) : Target :=
  let loram := bank.getLsbD 0
  let hiram := bank.getLsbD 1
  let charen := bank.getLsbD 2
  let p := hi a
  if p ≤ 0x9F then .ram
  else if p ≤ 0xBF then if loram && hiram then .basic else .ram
  else if p ≤ 0xCF then .ram
  else if p ≤ 0xDF then if charen then ioTarget a else .ram
  else if hiram then .kernal else .ram

/-- The target of an access now: the bank byte is read from the RAM array at every access (R62). -/
def targetOf (s : State) (a : Word) : Target := decodeAddr (ramRead s 1) a

/-! ## The peripheral windows -/

/-- `AckBit()` (R371), as the level of port A's bit 7. -/
def ackBit (s : State) : Bool :=
  match s.params.ackPolarity with
  | .activeLow => !s.serial.ack
  | .activeHigh => s.serial.ack

/-- `ExtA(n)` (R358): on CIA2 bit 7 is the acknowledgement line. -/
def extA (n : CiaId) (s : State) : Byte :=
  let ext := Config.ciaExtA n s.extTime s.history
  match n with
  | .cia1 => ext
  | .cia2 => (ext &&& 0x7F) ||| ((BitVec.ofBool (ackBit s)).setWidth 8 <<< 7)

/-- `ExtB(n)` (R358). -/
def extB (n : CiaId) (s : State) : Byte := Config.ciaExtB n s.extTime s.history

def ciaPorts (n : CiaId) (s : State) : CiaPorts :=
  match n with
  | .cia1 => s.cia1
  | .cia2 => s.cia2

def setCiaPorts (n : CiaId) (q : CiaPorts) (s : State) : State :=
  match n with
  | .cia1 => { s with cia1 := q }
  | .cia2 => { s with cia2 := q }

/-- `CiaRead(n, off)` (R357, R358): the ports' output bits pass through the direction mask. -/
def ciaRead (n : CiaId) (off : BitVec 4) (s : State) : Byte :=
  let q := ciaPorts n s
  if off = 0 then (q.pra &&& q.ddra) ||| (extA n s &&& ~~~q.ddra)
  else if off = 1 then (q.prb &&& q.ddrb) ||| (extB n s &&& ~~~q.ddrb)
  else if off = 2 then q.ddra
  else if off = 3 then q.ddrb
  else Config.ciaRead n s.extTime s.history off

/-- The port registers after a write at an offset below 4 (R357, R359). -/
def CiaPorts.write (off : BitVec 4) (v : Byte) (q : CiaPorts) : CiaPorts :=
  if off = 0 then { q with pra := v }
  else if off = 1 then { q with prb := v }
  else if off = 2 then { q with ddra := v }
  else if off = 3 then { q with ddrb := v }
  else q

/-- CIA2's output byte follows its port A, and a change notifies the serial bus inside the write cycle (R359,
R360). -/
def updateOutA2 (s : State) : State :=
  let new := s.cia2.pra &&& s.cia2.ddra
  if new = s.outA2 then s
  else { s with outA2 := new, serial := s.serial.edgeNotify (s.outA2 ^^^ new) new }

/-- A peripheral write that leaves the block (R75, R356, R361). -/
def deliver (target : Peripheral) (off : Nat) (v : Byte) (s : State) : State :=
  { s with deliveries := s.deliveries ++ [{ target := target, offset := off, value := v, pc := s.pc }] }

/-- `CiaWrite(n, off, v, pc)` (R359). -/
def ciaWrite (n : CiaId) (off : BitVec 4) (v : Byte) (s : State) : State :=
  if off < 4 then
    let s := setCiaPorts n ((ciaPorts n s).write off v) s
    if n = .cia2 ∧ (off = 0 ∨ off = 2) then updateOutA2 s else s
  else deliver (.cia n) off.toNat v s

/-! ## Read and Write -/

/-- Records a bus cycle. -/
def record (c : BusCycle) (s : State) : State := { s with history := c :: s.history }

/-- The value a read at an address returns now (R66, R67, R69, R70, R71). -/
def busValue (s : State) (a : Word) : Result Byte :=
  match targetOf s a with
  | .ram => .next (ramRead s a)
  | .basic =>
    match s.basicRom with
    | some rom => .next (rom.get romUnlisted (a.toNat - 0xA000))
    | none => .refused .basicRomAbsent
  | .kernal => .next (s.kernalRom.get romUnlisted (a.toNat - 0xE000))
  | .vic off => .next (Config.vicRead s.extTime s.history off)
  | .vicGap => .next Config.vicGapByte
  | .charShadow => .next Config.charShadowByte
  | .cia n off => .next (ciaRead n off s)

/-- A read at an address has a value: it does not reach an absent BASIC image (R67). -/
def readable (s : State) (a : Word) : Bool := decide (targetOf s a ≠ .basic) || s.basicRom.isSome

/-- `Read(a)`: one bus read cycle (R11, R66). It changes nothing but the record of bus cycles. -/
def busRead (a : Word) (s : State) : Result (Byte × State) :=
  andThen (busValue s a) fun v => .next (v, record (.read a v) s)

/-- The redraw range of R76. -/
def inVideoRam (a : Word) : Bool := decide (0x0400 ≤ a) && decide (a ≤ 0x07FF)

/-- What a write at an address changes (R72 to R76): RAM, with the redraw flag; nothing where ROM, the shadow region
or the VIC gap is mapped; a port register or a delivery in a peripheral window. -/
def busStore (a : Word) (v : Byte) (s : State) : State :=
  match targetOf s a with
  | .ram => { ramWrite a v s with redrawNeeded := s.redrawNeeded || inVideoRam a }
  | .basic | .kernal | .vicGap | .charShadow => s
  | .vic off => deliver .vic off.toNat v s
  | .cia n off => ciaWrite n off v s

/-- `Write(a, v)`: one bus write cycle (R11, R72). -/
def busWrite (a : Word) (v : Byte) (s : State) : State := record (.write a v s.pc) (busStore a v s)

end Sys2Proof.Machine
end

