-- ==== Sys2Proof/Machine/Flags.lean ====
section
/-! DEFINITION. The status word as a byte (spec/10_state.md R25, R26) and every flag computation of
spec/42_arith_logic_compare.md and spec/43_shift_incdec.md, on bytes and flags alone. -/

namespace Sys2Proof.Machine

/-- P read as a byte (R25, R26): bit 5 reads 1 and bit 4 reads 0. -/
def Flags.toByte (p : Flags) : Byte :=
  BitVec.ofBool p.n ++ BitVec.ofBool p.v ++ 1#1 ++ 0#1 ++ BitVec.ofBool p.d ++ BitVec.ofBool p.i ++ BitVec.ofBool p.z
    ++ BitVec.ofBool p.c

/-- The byte pushed by PHP and BRK: `P | 0x30` (R26, R151, R153). -/
def Flags.pushedByProgram (p : Flags) : Byte := p.toByte ||| 0x30

/-- The byte pushed by IRQ entry: `(P & 0xEF) | 0x20` (R154, R341). -/
def Flags.pushedByIrq (p : Flags) : Byte := (p.toByte &&& 0xEF) ||| 0x20

/-- `FromStack(b)` (R150): bits 5 and 4 are discarded. -/
def Flags.fromStack (b : Byte) : Flags where
  n := b.getLsbD 7
  v := b.getLsbD 6
  d := b.getLsbD 3
  i := b.getLsbD 2
  z := b.getLsbD 1
  c := b.getLsbD 0

/-- `setNZ(v)` (R11). -/
def setNZ (v : Byte) (p : Flags) : Flags := { p with n := v.getLsbD 7, z := decide (v = 0) }

/-- ADC's result and flags in binary (R201). -/
def adcBinary (a m : Byte) (p : Flags) : Byte × Flags :=
  let s := a.toNat + m.toNat + p.c.toNat
  let r := BitVec.ofNat 8 s
  (r, setNZ r { p with c := decide (s > 0xFF), v := decide ((a ^^^ r) &&& (m ^^^ r) &&& 0x80 ≠ 0) })

/-- SBC's result and flags in binary (R202). -/
def sbcBinary (a m : Byte) (p : Flags) : Byte × Flags :=
  let d : Int := a.toNat - m.toNat - (1 - p.c.toNat)
  let r := BitVec.ofInt 8 d
  (r, setNZ r { p with c := decide (d ≥ 0), v := decide ((~~~m ^^^ r) &&& (a ^^^ r) &&& 0x80 ≠ 0) })

/-- ADC's result and flags in decimal mode (R203). -/
def adcDecimal (a m : Byte) (p : Flags) : Byte × Flags :=
  let l := (a &&& 0x0F).toNat + (m &&& 0x0F).toNat + p.c.toNat
  let l := if l ≥ 0x0A then (l + 0x06) % 16 + 0x10 else l
  let t := (a &&& 0xF0).toNat + (m &&& 0xF0).toNat + l
  let st : Int := (a &&& 0xF0).toInt + (m &&& 0xF0).toInt + l
  let u := if t ≥ 0xA0 then t + 0x60 else t
  (BitVec.ofNat 8 u,
    { p with
      n := decide (st % 256 ≥ 0x80)
      v := decide (st < -128 ∨ st > 127)
      z := decide ((a.toNat + m.toNat + p.c.toNat) % 256 = 0)
      c := decide (u ≥ 0x100) })

/-- SBC's result and flags in decimal mode (R204): the flags are those of the binary rule. -/
def sbcDecimal (a m : Byte) (p : Flags) : Byte × Flags :=
  let l : Int := (a &&& 0x0F).toNat - (m &&& 0x0F).toNat + p.c.toNat - 1
  let l := if l < 0 then (l - 0x06) % 16 - 0x10 else l
  let t : Int := (a &&& 0xF0).toNat - (m &&& 0xF0).toNat + l
  let t := if t < 0 then t - 0x60 else t
  (BitVec.ofInt 8 t, (sbcBinary a m p).2)

/-- Decimal arithmetic is in force: `DECIMAL_MODE = nmos_bcd` and P.D = 1 (R200). -/
def decimalOn (mode : DecimalMode) (p : Flags) : Bool := decide (mode = .nmosBcd) && p.d

/-- ADC (R201, R203). -/
def adcFlags (mode : DecimalMode) (a m : Byte) (p : Flags) : Byte × Flags :=
  if decimalOn mode p then adcDecimal a m p else adcBinary a m p

/-- SBC (R202, R204). -/
def sbcFlags (mode : DecimalMode) (a m : Byte) (p : Flags) : Byte × Flags :=
  if decimalOn mode p then sbcDecimal a m p else sbcBinary a m p

/-- `Compare(r, M)` (R209). -/
def compareFlags (r m : Byte) (p : Flags) : Flags :=
  let d : Int := r.toNat - m.toNat
  setNZ (BitVec.ofInt 8 d) { p with c := decide (d ≥ 0) }

/-- BIT's flags (R208). -/
def bitFlags (a m : Byte) (p : Flags) : Flags :=
  { p with z := decide (a &&& m = 0), n := m.getLsbD 7, v := m.getLsbD 6 }

/-- ASL's `sh` (R230). -/
def aslFlags (v : Byte) (p : Flags) : Byte × Flags :=
  let r := v <<< 1
  (r, setNZ r { p with c := v.getLsbD 7 })

/-- LSR's `sh` (R231). -/
def lsrFlags (v : Byte) (p : Flags) : Byte × Flags :=
  let r := v >>> 1
  (r, setNZ r { p with c := v.getLsbD 0 })

/-- ROL's `sh` (R232). -/
def rolFlags (v : Byte) (p : Flags) : Byte × Flags :=
  let r := (v <<< 1) ||| (BitVec.ofBool p.c).setWidth 8
  (r, setNZ r { p with c := v.getLsbD 7 })

/-- ROR's `sh` (R233). -/
def rorFlags (v : Byte) (p : Flags) : Byte × Flags :=
  let r := (v >>> 1) ||| ((BitVec.ofBool p.c).setWidth 8 <<< 7)
  (r, setNZ r { p with c := v.getLsbD 0 })

/-- INC's result and flags (R234). -/
def incFlags (v : Byte) (p : Flags) : Byte × Flags := (v + 1, setNZ (v + 1) p)

/-- DEC's result and flags (R235). -/
def decFlags (v : Byte) (p : Flags) : Byte × Flags := (v - 1, setNZ (v - 1) p)

end Sys2Proof.Machine
end

