-- ==== Sys2Proof/Machine/Operands.lean ====
section
/-! DEFINITION. Addresses: the extensions of spec/00_scope.md R10, and the effective address of every operand form
(spec/30_encoding.md R103 to R106) with its uncorrected address and page-cross test (R142, R144, R160). -/

namespace Sys2Proof.Machine

/-- `zext16(b)` (R10). -/
def zext16 (b : Byte) : Word := b.setWidth 16

/-- `sext16(b)` (R10). -/
def sext16 (b : Byte) : Word := b.signExtend 16

/-- The stack address of SP (R23): always in page 0x01. -/
def stackAddr (sp : Byte) : Word := 0x0100 ||| zext16 sp

/-- The zero-page indexed address: the index wraps inside zero page (R103, R159). -/
def zpIndexed (base idx : Byte) : Word := zext16 (base + idx)

/-- `EA` of an indexed 16-bit base, modulo 65536 (R104, R142). -/
def indexed (bah bal idx : Byte) : Word := word bah bal + zext16 idx

/-- `EAU`: the base's high byte with the low byte of the indexed sum (R142). -/
def uncorrected (bah bal idx : Byte) : Word := word bah (bal + idx)

/-- `FIX`: the indexed sum crosses a page (R142, R160). -/
def pageCross (bal idx : Byte) : Bool := decide (bal.toNat + idx.toNat > 255)

/-- A branch's target from the address after it (R105). -/
def branchTarget (next : Word) (off : Byte) : Word := next + sext16 off

/-- The address of the second byte of a JMP pointer: the low byte wraps inside its page (R106, R147). -/
def pointerHigh (bah bal : Byte) : Word := word bah (bal + 1)

/-- The little-endian word that a zero-page pointer names; its second byte wraps inside zero page (R106, R159). -/
def zpPointer (s : State) (p : Byte) : Word := word (ramRead s (zext16 (p + 1))) (ramRead s (zext16 p))

/-- The effective address of an operand form that has one (R103, R104, R106); zero page is always RAM (R91). -/
def effectiveAddress (m : Operand) (s : State) : Word :=
  match m with
  | .acc | .imm _ => 0
  | .zp a => zext16 a
  | .zpx a => zpIndexed a s.x
  | .zpy a => zpIndexed a s.y
  | .abs a => a
  | .abx a => indexed (hi a) (lo a) s.x
  | .aby a => indexed (hi a) (lo a) s.y
  | .izx a => zpPointer s (a + s.x)
  | .izy a => indexed (hi (zpPointer s a)) (lo (zpPointer s a)) s.y

/-- The address of the first data access of an indexed form, `EAU` of R142 and R144; the effective address of the
other forms. -/
def uncorrectedAddress (m : Operand) (s : State) : Word :=
  match m with
  | .abx a => uncorrected (hi a) (lo a) s.x
  | .aby a => uncorrected (hi a) (lo a) s.y
  | .izy a => uncorrected (hi (zpPointer s a)) (lo (zpPointer s a)) s.y
  | m => effectiveAddress m s

/-- The operand form's index crosses a page: `p` of R156 is 1. -/
def crossesPage (m : Operand) (s : State) : Bool :=
  match m with
  | .abx a => pageCross (lo a) s.x
  | .aby a => pageCross (lo a) s.y
  | .izy a => pageCross (lo (zpPointer s a)) s.y
  | _ => false

end Sys2Proof.Machine
end

