-- ==== Sys2Proof/Machine/Ops.lean ====
section
/-! DEFINITION. The named operations over registers, stack and bus: the stack primitives (spec/00_scope.md R12), the
halts, taking an interrupt (spec/40_microsteps.md R153, R154, spec/60_exceptions.md R340) and returning from one
(R150). -/

namespace Sys2Proof.Machine

/-- Where an instruction's operand bytes come from: the bus, as a running core fetches them, or the instruction
itself, as delivered in its fetch cycles. -/
inductive Source
  | bus
  | given (b2 b3 : Byte)
  deriving DecidableEq, Repr

/-- Byte 2 or byte 3 of an instruction (R101). -/
inductive OperandByte
  | second
  | third
  deriving DecidableEq, Repr

/-- `PC <- w`. -/
def setPc (w : Word) (s : State) : State := { s with pc := w }

/-- `P <- p`. -/
def setP (p : Flags) (s : State) : State := { s with p := p }

/-- `Read(PC); PC <- PC + 1`: an operand fetch cycle (R158). -/
def fetchOperand (src : Source) (k : OperandByte) (s : State) : Result (Byte × State) :=
  match src, k with
  | .bus, _ => andThen (busRead s.pc s) fun r => .next (r.1, setPc (r.2.pc + 1) r.2)
  | .given b2 _, .second => .next (b2, setPc (s.pc + 1) (record (.read s.pc b2) s))
  | .given _ b3, .third => .next (b3, setPc (s.pc + 1) (record (.read s.pc b3) s))

/-- A dummy read: a real bus read whose value is discarded (R13, R161). -/
def dummyRead (a : Word) (s : State) : Result State := andThen (busRead a s) fun r => .next r.2

/-- `Write(0x0100 | SP, v); SP <- SP - 1` (R12). -/
def pushByte (v : Byte) (s : State) : State := { busWrite (stackAddr s.sp) v s with sp := s.sp - 1 }

/-- `Read(0x0100 | SP)`: the read of a pull, after SP has been incremented in the cycle before (R12, R149). -/
def readStack (s : State) : Result (Byte × State) := busRead (stackAddr s.sp) s

/-- `SP <- SP + 1` modulo 256. -/
def bumpSp (s : State) : State := { s with sp := s.sp + 1 }

/-- `Read(0x0100 | SP)` (dummy); `SP <- SP + 1`: the stack pre-read (R149, R150, R152). -/
def stackPreRead (s : State) : Result State := andThen (dummyRead (stackAddr s.sp) s) fun s => .next (bumpSp s)

/-- The cycle completes and the sequence goes on with the next one (R134). -/
def proceed (f : InFlight) (l : Latches) (s : State) : State :=
  { s with phase := .runMicroSteps { f with t := f.t + 1, latches := l } }

/-- The cycle was terminal: the core is at an instruction boundary (R134). -/
def finish (s : State) : State := { s with phase := .fetchOpcode }

/-- The opcode fetch cycle T1 of a running instruction: PC advances and a sequence is selected (R132). -/
def openInstr (opc : Byte) (seq : Seq) (s : State) : State :=
  { record (.read s.pc opc) s with
    pc := s.pc + 1
    phase := .runMicroSteps { opc := opc, seq := seq, t := 2, latches := {} } }

/-- The opcode fetch cycle that halts the core: a real read, PC is left at the opcode (R132, R311, R321). -/
def haltAt (h : Halt) (opc : Byte) (s : State) : State := { record (.read s.pc opc) s with halt := h }

/-! ## Taking an interrupt, and returning from one -/

/-- The IRQ/BRK vector's two addresses (R84). -/
def vectorLow : Word := 0xFFFE

def vectorHigh : Word := 0xFFFF

/-- Taking an interrupt, cycles T3 to T7, shared by BRK (R153) and IRQ entry (R154): PC is pushed high byte first,
then the status byte with which the entry is made; I is set; PC is loaded from the vector through the bank decode
(R273, R340). -/
def entryCycle (status : Flags → Byte) (f : InFlight) (s : State) : Result State :=
  match f.t with
  | 3 => .next (proceed f f.latches (pushByte (hi s.pc) s))
  | 4 => .next (proceed f f.latches (pushByte (lo s.pc) s))
  | 5 =>
    let s := pushByte (status s.p) s
    .next (proceed f f.latches (setP { s.p with i := true } s))
  | 6 => andThen (busRead vectorLow s) fun r => .next (proceed f { f.latches with bal := r.1 } r.2)
  | 7 => andThen (busRead vectorHigh s) fun r => .next (finish (setPc (word r.1 f.latches.bal) r.2))
  | _ => .fault .noSuchCycle

/-- RTI, cycles T2 to T6 (R150, R274): the status is pulled, then PC, low byte first. -/
def returnCycle (f : InFlight) (s : State) : Result State :=
  match f.t with
  | 2 => andThen (dummyRead s.pc s) fun s => .next (proceed f f.latches s)
  | 3 => andThen (stackPreRead s) fun s => .next (proceed f f.latches s)
  | 4 => andThen (readStack s) fun r =>
      .next (proceed f f.latches (bumpSp (setP (Flags.fromStack r.1) r.2)))
  | 5 => andThen (readStack s) fun r => .next (proceed f { f.latches with bal := r.1 } (bumpSp r.2))
  | 6 => andThen (readStack s) fun r => .next (finish (setPc (word r.1 f.latches.bal) r.2))
  | _ => .fault .noSuchCycle

end Sys2Proof.Machine
end

