-- ==== Sys2Proof/Machine/Sequence.lean ====
section
/-! DEFINITION. The micro-step sequences of spec/40_microsteps.md, one bus cycle at a time, and running a sequence to
its end. -/

namespace Sys2Proof.Machine

/-- What an instruction does in its terminal cycle: `exec_R`, `val_W`, `exec_M`, `exec_I` of R136, a branch's
condition, or what a push or a pull moves. `fixed` is for the sequences that hold their whole behaviour. -/
inductive Operation
  | read (f : Byte → State → State)
  | write (f : State → Byte)
  | rmw (f : Byte → State → Byte × State)
  | internal (f : State → State)
  | branch (f : Flags → Bool)
  | push (f : State → Byte)
  | pull (f : Byte → State → State)
  | fixed

/-- How many cycles a mode spends on the effective address, from T2 on (R139 to R144). -/
def addressCycles : Mode → Nat
  | .zp => 1
  | .zpx | .zpy | .abs | .abx | .aby => 2
  | .izy => 3
  | .izx => 4
  | _ => 0

/-- The modes whose access begins with a read at the uncorrected address (R142, R144). -/
def indexedMode : Mode → Bool
  | .abx | .aby | .izy => true
  | _ => false

/-- The latches of an indexed base (R142, R144). -/
def latchIndexed (l : Latches) (bah idx : Byte) : Latches :=
  { l with
    bah := bah
    fix := pageCross l.bal idx
    eau := uncorrected bah l.bal idx
    ea := indexed bah l.bal idx }

/-- One address cycle T<t> of a mode (R139 to R144). -/
def addressCycle (src : Source) (m : Mode) (t : Nat) (l : Latches) (s : State) : Result (Latches × State) :=
  match m, t with
  | .zp, 2 => andThen (fetchOperand src .second s) fun r => .next ({ l with ea := zext16 r.1 }, r.2)
  | .zpx, 2 | .zpy, 2 | .abs, 2 | .abx, 2 | .aby, 2 =>
    andThen (fetchOperand src .second s) fun r => .next ({ l with bal := r.1 }, r.2)
  | .zpx, 3 => andThen (dummyRead (zext16 l.bal) s) fun s => .next ({ l with ea := zpIndexed l.bal s.x }, s)
  | .zpy, 3 => andThen (dummyRead (zext16 l.bal) s) fun s => .next ({ l with ea := zpIndexed l.bal s.y }, s)
  | .abs, 3 =>
    andThen (fetchOperand src .third s) fun r => .next ({ l with bah := r.1, ea := word r.1 l.bal }, r.2)
  | .abx, 3 => andThen (fetchOperand src .third s) fun r => .next (latchIndexed l r.1 r.2.x, r.2)
  | .aby, 3 => andThen (fetchOperand src .third s) fun r => .next (latchIndexed l r.1 r.2.y, r.2)
  | .izx, 2 | .izy, 2 => andThen (fetchOperand src .second s) fun r => .next ({ l with ptr := r.1 }, r.2)
  | .izx, 3 => andThen (dummyRead (zext16 l.ptr) s) fun s => .next ({ l with ptr := l.ptr + s.x }, s)
  | .izx, 4 | .izy, 3 => andThen (busRead (zext16 l.ptr) s) fun r => .next ({ l with bal := r.1 }, r.2)
  | .izx, 5 =>
    andThen (busRead (zext16 (l.ptr + 1)) s) fun r => .next ({ l with bah := r.1, ea := word r.1 l.bal }, r.2)
  | .izy, 4 => andThen (busRead (zext16 (l.ptr + 1)) s) fun r => .next (latchIndexed l r.1 r.2.y, r.2)
  | _, _ => .fault .noSuchCycle

/-- The data read that ends a read instruction: `DAT <- Read(a)`; `exec_R(DAT)`; terminal. -/
def finalRead (op : Byte → State → State) (a : Word) (s : State) : Result State :=
  andThen (busRead a s) fun r => .next (finish (op r.1 r.2))

/-- A cycle of a read instruction after its address cycles; `k` counts from 0. -/
def readAccess (op : Byte → State → State) (m : Mode) (k : Nat) (f : InFlight) (s : State) : Result State :=
  match indexedMode m, k with
  | false, 0 => finalRead op f.latches.ea s
  | true, 0 =>
    if f.latches.fix then
      andThen (busRead f.latches.eau s) fun r => .next (proceed f { f.latches with dat := r.1 } r.2)
    else finalRead op f.latches.eau s
  | true, 1 => finalRead op f.latches.ea s
  | _, _ => .fault .noSuchCycle

/-- A cycle of a write instruction after its address cycles. -/
def writeAccess (val : State → Byte) (m : Mode) (k : Nat) (f : InFlight) (s : State) : Result State :=
  match indexedMode m, k with
  | true, 0 => andThen (dummyRead f.latches.eau s) fun s => .next (proceed f f.latches s)
  | false, 0 | true, 1 => .next (finish (busWrite f.latches.ea (val s) s))
  | _, _ => .fault .noSuchCycle

/-- The data read of a read-modify-write instruction. -/
def rmwRead (f : InFlight) (s : State) : Result State :=
  andThen (busRead f.latches.ea s) fun r => .next (proceed f { f.latches with dat := r.1 } r.2)

/-- Its dummy write of the unmodified byte. -/
def rmwDummyWrite (f : InFlight) (s : State) : State :=
  proceed f f.latches (busWrite f.latches.ea f.latches.dat s)

/-- `DAT <- exec_M(DAT)`; `Write(EA, DAT)`; terminal. -/
def rmwFinalWrite (op : Byte → State → Byte × State) (f : InFlight) (s : State) : State :=
  let r := op f.latches.dat s
  finish (busWrite f.latches.ea r.1 r.2)

/-- A cycle of a read-modify-write instruction after its address cycles. -/
def rmwAccess (op : Byte → State → Byte × State) (m : Mode) (k : Nat) (f : InFlight) (s : State) : Result State :=
  match indexedMode m, k with
  | true, 0 => andThen (dummyRead f.latches.eau s) fun s => .next (proceed f f.latches s)
  | false, 0 | true, 1 => rmwRead f s
  | false, 1 | true, 2 => .next (rmwDummyWrite f s)
  | false, 2 | true, 3 => .next (rmwFinalWrite op f s)
  | _, _ => .fault .noSuchCycle

/-- A cycle of a sequence that is address cycles and then an access. -/
def accessCycle (src : Source) (m : Mode) (access : Nat → InFlight → State → Result State) (f : InFlight) (s : State) :
    Result State :=
  if f.t < 2 + addressCycles m then
    andThen (addressCycle src m f.t f.latches s) fun r => .next (proceed f r.1 r.2)
  else access (f.t - (2 + addressCycles m)) f s

/-- Immediate (R138). -/
def immediateCycle (src : Source) (op : Byte → State → State) (f : InFlight) (s : State) : Result State :=
  match f.t with
  | 2 => andThen (fetchOperand src .second s) fun r => .next (finish (op r.1 r.2))
  | _ => .fault .noSuchCycle

/-- Implied and accumulator (R137). -/
def internalCycle (op : State → State) (f : InFlight) (s : State) : Result State :=
  match f.t with
  | 2 => andThen (dummyRead s.pc s) fun s => .next (finish (op s))
  | _ => .fault .noSuchCycle

/-- Relative branch (R145). -/
def branchCycle (src : Source) (cond : Flags → Bool) (f : InFlight) (s : State) : Result State :=
  match f.t with
  | 2 => andThen (fetchOperand src .second s) fun r =>
      if cond r.2.p then
        .next (proceed f { f.latches with dat := r.1, tgt := branchTarget r.2.pc r.1 } r.2)
      else .next (finish r.2)
  | 3 => andThen (dummyRead s.pc s) fun s =>
      if hi f.latches.tgt = hi s.pc then .next (finish (setPc f.latches.tgt s))
      else .next (proceed f f.latches (setPc (word (hi s.pc) (lo f.latches.tgt)) s))
  | 4 => andThen (dummyRead s.pc s) fun s => .next (finish (setPc f.latches.tgt s))
  | _ => .fault .noSuchCycle

/-- JMP absolute (R146). -/
def jmpAbsCycle (src : Source) (f : InFlight) (s : State) : Result State :=
  match f.t with
  | 2 => andThen (fetchOperand src .second s) fun r => .next (proceed f { f.latches with bal := r.1 } r.2)
  | 3 => andThen (fetchOperand src .third s) fun r => .next (finish (setPc (word r.1 f.latches.bal) r.2))
  | _ => .fault .noSuchCycle

/-- JMP indirect (R147). -/
def jmpIndCycle (src : Source) (f : InFlight) (s : State) : Result State :=
  match f.t with
  | 2 => andThen (fetchOperand src .second s) fun r => .next (proceed f { f.latches with bal := r.1 } r.2)
  | 3 => andThen (fetchOperand src .third s) fun r => .next (proceed f { f.latches with bah := r.1 } r.2)
  | 4 => andThen (busRead (word f.latches.bah f.latches.bal) s) fun r =>
      .next (proceed f { f.latches with dat := r.1 } r.2)
  | 5 => andThen (busRead (pointerHigh f.latches.bah f.latches.bal) s) fun r =>
      .next (finish (setPc (word r.1 f.latches.dat) r.2))
  | _ => .fault .noSuchCycle

/-- JSR (R148): the target's high byte is fetched after the two pushes. -/
def jsrCycle (src : Source) (f : InFlight) (s : State) : Result State :=
  match f.t with
  | 2 => andThen (fetchOperand src .second s) fun r => .next (proceed f { f.latches with bal := r.1 } r.2)
  | 3 => andThen (dummyRead (stackAddr s.sp) s) fun s => .next (proceed f f.latches s)
  | 4 => .next (proceed f f.latches (pushByte (hi s.pc) s))
  | 5 => .next (proceed f f.latches (pushByte (lo s.pc) s))
  | 6 => andThen (fetchOperand src .third s) fun r => .next (finish (setPc (word r.1 f.latches.bal) r.2))
  | _ => .fault .noSuchCycle

/-- RTS (R149). -/
def rtsCycle (f : InFlight) (s : State) : Result State :=
  match f.t with
  | 2 => andThen (dummyRead s.pc s) fun s => .next (proceed f f.latches s)
  | 3 => andThen (stackPreRead s) fun s => .next (proceed f f.latches s)
  | 4 => andThen (readStack s) fun r => .next (proceed f { f.latches with bal := r.1 } (bumpSp r.2))
  | 5 => andThen (readStack s) fun r => .next (proceed f f.latches (setPc (word r.1 f.latches.bal) r.2))
  | 6 => andThen (dummyRead s.pc s) fun s => .next (finish (setPc (s.pc + 1) s))
  | _ => .fault .noSuchCycle

/-- Push (R151). -/
def pushCycle (val : State → Byte) (f : InFlight) (s : State) : Result State :=
  match f.t with
  | 2 => andThen (dummyRead s.pc s) fun s => .next (proceed f f.latches s)
  | 3 => .next (finish (pushByte (val s) s))
  | _ => .fault .noSuchCycle

/-- Pull (R152). -/
def pullCycle (op : Byte → State → State) (f : InFlight) (s : State) : Result State :=
  match f.t with
  | 2 => andThen (dummyRead s.pc s) fun s => .next (proceed f f.latches s)
  | 3 => andThen (stackPreRead s) fun s => .next (proceed f f.latches s)
  | 4 => andThen (readStack s) fun r => .next (finish (op r.1 r.2))
  | _ => .fault .noSuchCycle

/-- BRK (R153): the padding byte is fetched and discarded, and the interrupt is taken. -/
def brkCycle (src : Source) (f : InFlight) (s : State) : Result State :=
  match f.t with
  | 2 => andThen (fetchOperand src .second s) fun r => .next (proceed f f.latches r.2)
  | _ => entryCycle Flags.pushedByProgram f s

/-- IRQ entry after its T1 (R154). -/
def irqCycle (f : InFlight) (s : State) : Result State :=
  match f.t with
  | 2 => andThen (dummyRead s.pc s) fun s => .next (proceed f f.latches s)
  | _ => entryCycle Flags.pushedByIrq f s

/-- The next cycle, or the boundary after the last one. -/
def proceedUntil (last : Nat) (f : InFlight) (s : State) : State :=
  if f.t < last then proceed f f.latches s else finish s

/-- `nop_with_cycles` (R155): the operand bytes are fetched and discarded, and the other cycles are idle. -/
def nopCycle (src : Source) (len cycles : Nat) (f : InFlight) (s : State) : Result State :=
  if f.t < 2 ∨ cycles < f.t then .fault .noSuchCycle
  else if f.t ≤ len then
    andThen (fetchOperand src (if f.t = 2 then .second else .third) s) fun r => .next (proceedUntil cycles f r.2)
  else .next (proceedUntil cycles f (record .idle s))

/-- One micro-step: cycle T<t> of the selected sequence, with the operation of its terminal cycle (R134). -/
def microCycle (src : Source) (op : Operation) (f : InFlight) (s : State) : Result State :=
  match f.seq, op with
  | .internal, .internal g => internalCycle g f s
  | .read .imm, .read g => immediateCycle src g f s
  | .read m, .read g => accessCycle src m (readAccess g m) f s
  | .write m, .write g => accessCycle src m (writeAccess g m) f s
  | .rmw m, .rmw g => accessCycle src m (rmwAccess g m) f s
  | .branch, .branch g => branchCycle src g f s
  | .jmpAbs, _ => jmpAbsCycle src f s
  | .jmpInd, _ => jmpIndCycle src f s
  | .jsr, _ => jsrCycle src f s
  | .rts, _ => rtsCycle f s
  | .rti, _ => returnCycle f s
  | .push, .push g => pushCycle g f s
  | .pull, .pull g => pullCycle g f s
  | .brk, _ => brkCycle src f s
  | .irq, _ => irqCycle f s
  | .nop len cycles, _ => nopCycle src len cycles f s
  | _, _ => .fault .noSuchCycle

/-- Runs up to `n` further cycles of the sequence in progress, and stops at the instruction boundary. -/
def runCycles (src : Source) (op : Operation) : Nat → State → Result State
  | 0, s => .next s
  | n + 1, s =>
    match s.phase with
    | .fetchOpcode => .next s
    | .runMicroSteps f => andThen (microCycle src op f s) (runCycles src op n)

/-- The most micro-steps any sequence has after its T1: the longest is 8 cycles (R156). -/
def longestSequence : Nat := 7

/-! ## Which sequence, and how long -/

/-- The sequence of a mnemonic and a mode: its access class and mode (R133, the table's `access_class`). -/
def seqOf (k : Mnem) (m : Mode) : Seq :=
  match k with
  | .lda | .ldx | .ldy | .adc | .sbc | .and | .ora | .eor | .bit | .cmp | .cpx | .cpy | .lax => .read m
  | .sta | .stx | .sty | .sax => .write m
  | .asl | .lsr | .rol | .ror => if m = .acc then .internal else .rmw m
  | .inc | .dec | .slo | .rla | .sre | .rra | .dcp | .isc => .rmw m
  | .tax | .tay | .txa | .tya | .tsx | .txs | .inx | .iny | .dex | .dey | .clc | .sec | .cli | .sei | .cld | .sed
  | .clv | .nop => .internal
  | .bpl | .bmi | .bvc | .bvs | .bcc | .bcs | .bne | .beq => .branch
  | .jmp => if m = .ind then .jmpInd else .jmpAbs
  | .jsr => .jsr
  | .rts => .rts
  | .brk => .brk
  | .rti => .rti
  | .pha | .php => .push
  | .pla | .plp => .pull
  | .illegal => .nop 1 1

/-- The sequence of an instruction. An illegal opcode has one cycle and runs none of it (R132). -/
def instrSeq (i : Instr) : Seq := seqOf i.mnem i.mode

/-- The cycle count of a mode and class with no page cross, the opcode fetch included (R156, R162). -/
def Seq.baseCycles : Seq → Nat
  | .internal => 2
  | .read .imm => 2
  | .read .zp | .write .zp => 3
  | .rmw .zp => 5
  | .read .zpx | .read .zpy | .write .zpx | .write .zpy => 4
  | .rmw .zpx | .rmw .zpy => 6
  | .read .abs | .write .abs => 4
  | .rmw .abs => 6
  | .read .abx | .read .aby => 4
  | .write .abx | .write .aby => 5
  | .rmw .abx | .rmw .aby => 7
  | .read .izx | .write .izx => 6
  | .rmw .izx => 8
  | .read .izy => 5
  | .write .izy => 6
  | .rmw .izy => 8
  | .read _ | .write _ | .rmw _ => 0
  | .branch => 2
  | .jmpAbs => 3
  | .jmpInd => 5
  | .jsr | .rts | .rti => 6
  | .push => 3
  | .pull => 4
  | .brk | .irq => 7
  | .nop _ cycles => cycles

/-- The sequence of an unofficial opcode under `nop_with_cycles` (R155, R312). -/
def nopSeq (i : Instr) : Seq := .nop i.mode.length (instrSeq i).baseCycles

/-! ## Running an instruction -/

/-- The instruction's second and third bytes, as its fetch cycles deliver them. -/
def sourceOf (i : Instr) : Source := .given (i.operandBytes.getD 0 0) (i.operandBytes.getD 1 0)

/-- Runs an instruction from its opcode fetch T1 to its terminal cycle, in a sequence. -/
def runSeq (i : Instr) (seq : Seq) (op : Operation) (s : State) : Result State :=
  match i.opcode with
  | some opc => runCycles (sourceOf i) op longestSequence (openInstr opc seq s)
  | none => .refused .illFormed

/-- Runs a documented instruction: the cycles of its mode and class, with its operation in the terminal one. -/
def runInstr (i : Instr) (op : Operation) (s : State) : Result State := runSeq i (instrSeq i) op s

/-- Runs an opcode of the unofficial set U as `UNOFFICIAL_POLICY` says (R310 to R312). -/
def runUnofficial (i : Instr) (op : Operation) (s : State) : Result State :=
  match s.params.unofficialPolicy with
  | .error =>
    match i.opcode with
    | some opc => .next (haltAt (.unimplementedOpcode s.pc opc) opc s)
    | none => .refused .illFormed
  | .nopWithCycles => runSeq i (nopSeq i) op s
  | .implement => runInstr i op s

end Sys2Proof.Machine
end

