-- ==== Sys2Proof/Machine/Control.lean ====
section
/-! DEFINITION. Branches, jumps, subroutines, BRK and RTI (spec/44_control_flow.md), and IRQ entry
(spec/60_exceptions.md R340). -/

namespace Sys2Proof.Machine

/-- R261. -/
def condBpl (p : Flags) : Bool := !p.n

/-- R262. -/
def condBmi (p : Flags) : Bool := p.n

/-- R263. -/
def condBvc (p : Flags) : Bool := !p.v

/-- R264. -/
def condBvs (p : Flags) : Bool := p.v

/-- R265. -/
def condBcc (p : Flags) : Bool := !p.c

/-- R266. -/
def condBcs (p : Flags) : Bool := p.c

/-- R267. -/
def condBne (p : Flags) : Bool := !p.z

/-- R268. -/
def condBeq (p : Flags) : Bool := p.z

/-- R261. -/
def execBpl (off : Byte) (s : State) : Result State := runInstr (.bpl off) (.branch condBpl) s

/-- R262. -/
def execBmi (off : Byte) (s : State) : Result State := runInstr (.bmi off) (.branch condBmi) s

/-- R263. -/
def execBvc (off : Byte) (s : State) : Result State := runInstr (.bvc off) (.branch condBvc) s

/-- R264. -/
def execBvs (off : Byte) (s : State) : Result State := runInstr (.bvs off) (.branch condBvs) s

/-- R265. -/
def execBcc (off : Byte) (s : State) : Result State := runInstr (.bcc off) (.branch condBcc) s

/-- R266. -/
def execBcs (off : Byte) (s : State) : Result State := runInstr (.bcs off) (.branch condBcs) s

/-- R267. -/
def execBne (off : Byte) (s : State) : Result State := runInstr (.bne off) (.branch condBne) s

/-- R268. -/
def execBeq (off : Byte) (s : State) : Result State := runInstr (.beq off) (.branch condBeq) s

/-- R269, R270. -/
def execJmp (t : JumpOperand) (s : State) : Result State := runInstr (.jmp t) .fixed s

/-- The high byte of a JSR's target as T6 fetches it: the pushes come before it, so where one of them has written the
operand's own address `q + 2`, the pushed byte is fetched (R148, R271; DEDUCED against R89, log 15). `q` is the JSR's address. -/
def jsrHighByte (t : Word) (s : State) : Byte :=
  if s.pc + 2 = stackAddr (s.sp - 1) then lo (s.pc + 2)
  else if s.pc + 2 = stackAddr s.sp then hi (s.pc + 2)
  else hi t

/-- R271. -/
def execJsr (t : Word) (s : State) : Result State := runInstr (.jsr (word (jsrHighByte t s) (lo t))) .fixed s

/-- R272. -/
def execRts (s : State) : Result State := runInstr .rts .fixed s

/-- R273. -/
def execBrk (pad : Byte) (s : State) : Result State := runInstr (.brk pad) .fixed s

/-- R274. -/
def execRti (s : State) : Result State := runInstr .rti .fixed s

/-- T1 of IRQ entry (R132, R154): a dummy read at PC, and the latch is cleared. No opcode is executed;
DESIGN CHOICE: the field reads 0 (log 12). -/
def openIrq (s : State) : Result State :=
  andThen (dummyRead s.pc s) fun s =>
    .next { s with
      irqPending := false
      phase := .runMicroSteps { opc := 0x00, seq := .irq, t := 2, latches := {} } }

/-- The whole IRQ entry, T1 to T7 (R340). -/
def takeIrq (s : State) : Result State := andThen (openIrq s) (runCycles .bus .fixed longestSequence)

end Sys2Proof.Machine
end

