-- ==== Sys2Proof/Machine/LoadStore.lean ====
section
/-! DEFINITION. Loads, stores and register transfers (spec/41_load_store_transfer.md). -/

namespace Sys2Proof.Machine

/-- R180. -/
def opLda (m : Byte) (s : State) : State := { s with a := m, p := setNZ m s.p }

/-- R181. -/
def opLdx (m : Byte) (s : State) : State := { s with x := m, p := setNZ m s.p }

/-- R182. -/
def opLdy (m : Byte) (s : State) : State := { s with y := m, p := setNZ m s.p }

/-- R183. -/
def valSta (s : State) : Byte := s.a

/-- R184. -/
def valStx (s : State) : Byte := s.x

/-- R185. -/
def valSty (s : State) : Byte := s.y

/-- R186. -/
def opTax (s : State) : State := { s with x := s.a, p := setNZ s.a s.p }

/-- R187. -/
def opTay (s : State) : State := { s with y := s.a, p := setNZ s.a s.p }

/-- R188. -/
def opTxa (s : State) : State := { s with a := s.x, p := setNZ s.x s.p }

/-- R189. -/
def opTya (s : State) : State := { s with a := s.y, p := setNZ s.y s.p }

/-- R190. -/
def opTsx (s : State) : State := { s with x := s.sp, p := setNZ s.sp s.p }

/-- R191: the only transfer that sets no flag. -/
def opTxs (s : State) : State := { s with sp := s.x }

/-- R180. -/
def execLda (m : Operand) (s : State) : Result State := runInstr (.lda m) (.read opLda) s

/-- R181. -/
def execLdx (m : Operand) (s : State) : Result State := runInstr (.ldx m) (.read opLdx) s

/-- R182. -/
def execLdy (m : Operand) (s : State) : Result State := runInstr (.ldy m) (.read opLdy) s

/-- R183. -/
def execSta (m : Operand) (s : State) : Result State := runInstr (.sta m) (.write valSta) s

/-- R184. -/
def execStx (m : Operand) (s : State) : Result State := runInstr (.stx m) (.write valStx) s

/-- R185. -/
def execSty (m : Operand) (s : State) : Result State := runInstr (.sty m) (.write valSty) s

/-- R186. -/
def execTax (s : State) : Result State := runInstr .tax (.internal opTax) s

/-- R187. -/
def execTay (s : State) : Result State := runInstr .tay (.internal opTay) s

/-- R188. -/
def execTxa (s : State) : Result State := runInstr .txa (.internal opTxa) s

/-- R189. -/
def execTya (s : State) : Result State := runInstr .tya (.internal opTya) s

/-- R190. -/
def execTsx (s : State) : Result State := runInstr .tsx (.internal opTsx) s

/-- R191. -/
def execTxs (s : State) : Result State := runInstr .txs (.internal opTxs) s

end Sys2Proof.Machine
end

