-- ==== Sys2Proof/Machine/StackFlags.lean ====
section
/-! DEFINITION. Stack, flag and no-operation instructions (spec/45_stack_flags_nop.md). -/

namespace Sys2Proof.Machine

/-- R290. -/
def valPha (s : State) : Byte := s.a

/-- R291. -/
def valPhp (s : State) : Byte := s.p.pushedByProgram

/-- R292. -/
def opPla (m : Byte) (s : State) : State := { s with a := m, p := setNZ m s.p }

/-- R293. -/
def opPlp (m : Byte) (s : State) : State := { s with p := Flags.fromStack m }

/-- R294. -/
def opClc (s : State) : State := { s with p := { s.p with c := false } }

/-- R295. -/
def opSec (s : State) : State := { s with p := { s.p with c := true } }

/-- R296. -/
def opCli (s : State) : State := { s with p := { s.p with i := false } }

/-- R297. -/
def opSei (s : State) : State := { s with p := { s.p with i := true } }

/-- R298. -/
def opCld (s : State) : State := { s with p := { s.p with d := false } }

/-- R299. -/
def opSed (s : State) : State := { s with p := { s.p with d := true } }

/-- R300. -/
def opClv (s : State) : State := { s with p := { s.p with v := false } }

/-- R301. -/
def opNop (s : State) : State := s

/-- R290. -/
def execPha (s : State) : Result State := runInstr .pha (.push valPha) s

/-- R291. -/
def execPhp (s : State) : Result State := runInstr .php (.push valPhp) s

/-- R292. -/
def execPla (s : State) : Result State := runInstr .pla (.pull opPla) s

/-- R293. -/
def execPlp (s : State) : Result State := runInstr .plp (.pull opPlp) s

/-- R294. -/
def execClc (s : State) : Result State := runInstr .clc (.internal opClc) s

/-- R295. -/
def execSec (s : State) : Result State := runInstr .sec (.internal opSec) s

/-- R296. -/
def execCli (s : State) : Result State := runInstr .cli (.internal opCli) s

/-- R297. -/
def execSei (s : State) : Result State := runInstr .sei (.internal opSei) s

/-- R298. -/
def execCld (s : State) : Result State := runInstr .cld (.internal opCld) s

/-- R299. -/
def execSed (s : State) : Result State := runInstr .sed (.internal opSed) s

/-- R300. -/
def execClv (s : State) : Result State := runInstr .clv (.internal opClv) s

/-- R301. -/
def execNop (s : State) : Result State := runInstr .nop (.internal opNop) s

end Sys2Proof.Machine
end

