-- ==== Sys2Proof/Machine/Arith.lean ====
section
/-! DEFINITION. Arithmetic, logic and compare (spec/42_arith_logic_compare.md). -/

namespace Sys2Proof.Machine

/-- R201, R203. -/
def opAdc (m : Byte) (s : State) : State :=
  let r := adcFlags s.params.decimalMode s.a m s.p
  { s with a := r.1, p := r.2 }

/-- R202, R204. -/
def opSbc (m : Byte) (s : State) : State :=
  let r := sbcFlags s.params.decimalMode s.a m s.p
  { s with a := r.1, p := r.2 }

/-- R205. -/
def opAnd (m : Byte) (s : State) : State := { s with a := s.a &&& m, p := setNZ (s.a &&& m) s.p }

/-- R206. -/
def opOra (m : Byte) (s : State) : State := { s with a := s.a ||| m, p := setNZ (s.a ||| m) s.p }

/-- R207. -/
def opEor (m : Byte) (s : State) : State := { s with a := s.a ^^^ m, p := setNZ (s.a ^^^ m) s.p }

/-- R208. -/
def opBit (m : Byte) (s : State) : State := { s with p := bitFlags s.a m s.p }

/-- R210. -/
def opCmp (m : Byte) (s : State) : State := { s with p := compareFlags s.a m s.p }

/-- R211. -/
def opCpx (m : Byte) (s : State) : State := { s with p := compareFlags s.x m s.p }

/-- R212. -/
def opCpy (m : Byte) (s : State) : State := { s with p := compareFlags s.y m s.p }

/-- R201. -/
def execAdc (m : Operand) (s : State) : Result State := runInstr (.adc m) (.read opAdc) s

/-- R202. -/
def execSbc (m : Operand) (s : State) : Result State := runInstr (.sbc m) (.read opSbc) s

/-- R205. -/
def execAnd (m : Operand) (s : State) : Result State := runInstr (.and m) (.read opAnd) s

/-- R206. -/
def execOra (m : Operand) (s : State) : Result State := runInstr (.ora m) (.read opOra) s

/-- R207. -/
def execEor (m : Operand) (s : State) : Result State := runInstr (.eor m) (.read opEor) s

/-- R208. -/
def execBit (m : Operand) (s : State) : Result State := runInstr (.bit m) (.read opBit) s

/-- R210. -/
def execCmp (m : Operand) (s : State) : Result State := runInstr (.cmp m) (.read opCmp) s

/-- R211. -/
def execCpx (m : Operand) (s : State) : Result State := runInstr (.cpx m) (.read opCpx) s

/-- R212. -/
def execCpy (m : Operand) (s : State) : Result State := runInstr (.cpy m) (.read opCpy) s

end Sys2Proof.Machine
end

