-- ==== Sys2Proof/Machine/ShiftInc.lean ====
section
/-! DEFINITION. Shifts, rotates, increments and decrements (spec/43_shift_incdec.md). -/

namespace Sys2Proof.Machine

/-- `exec_M` of an operation on one byte and the flags. -/
def onByte (sh : Byte → Flags → Byte × Flags) (v : Byte) (s : State) : Byte × State :=
  let r := sh v s.p
  (r.1, { s with p := r.2 })

/-- `exec_I` of the accumulator form of a shift: A <- sh(A). -/
def onAccumulator (sh : Byte → Flags → Byte × Flags) (s : State) : State :=
  let r := sh s.a s.p
  { s with a := r.1, p := r.2 }

/-- The accumulator form acts on A and the memory forms on M (the preamble of the file). -/
def shiftOperation (sh : Byte → Flags → Byte × Flags) (m : Operand) : Operation :=
  match m with
  | .acc => .internal (onAccumulator sh)
  | _ => .rmw (onByte sh)

/-- R236. -/
def opInx (s : State) : State := { s with x := (incFlags s.x s.p).1, p := (incFlags s.x s.p).2 }

/-- R237. -/
def opIny (s : State) : State := { s with y := (incFlags s.y s.p).1, p := (incFlags s.y s.p).2 }

/-- R238. -/
def opDex (s : State) : State := { s with x := (decFlags s.x s.p).1, p := (decFlags s.x s.p).2 }

/-- R239. -/
def opDey (s : State) : State := { s with y := (decFlags s.y s.p).1, p := (decFlags s.y s.p).2 }

/-- R230. -/
def execAsl (m : Operand) (s : State) : Result State := runInstr (.asl m) (shiftOperation aslFlags m) s

/-- R231. -/
def execLsr (m : Operand) (s : State) : Result State := runInstr (.lsr m) (shiftOperation lsrFlags m) s

/-- R232. -/
def execRol (m : Operand) (s : State) : Result State := runInstr (.rol m) (shiftOperation rolFlags m) s

/-- R233. -/
def execRor (m : Operand) (s : State) : Result State := runInstr (.ror m) (shiftOperation rorFlags m) s

/-- R234. -/
def execInc (m : Operand) (s : State) : Result State := runInstr (.inc m) (.rmw (onByte incFlags)) s

/-- R235. -/
def execDec (m : Operand) (s : State) : Result State := runInstr (.dec m) (.rmw (onByte decFlags)) s

/-- R236. -/
def execInx (s : State) : Result State := runInstr .inx (.internal opInx) s

/-- R237. -/
def execIny (s : State) : Result State := runInstr .iny (.internal opIny) s

/-- R238. -/
def execDex (s : State) : Result State := runInstr .dex (.internal opDex) s

/-- R239. -/
def execDey (s : State) : Result State := runInstr .dey (.internal opDey) s

end Sys2Proof.Machine
end

