-- ==== Sys2Proof/Machine/Unofficial.lean ====
section
/-! DEFINITION. The unofficial instructions under `UNOFFICIAL_POLICY` and the illegal opcodes
(spec/46_unofficial_illegal.md). -/

namespace Sys2Proof.Machine

/-- `r <- sh(M)`, then an operation with `r` on the registers; `r` is written back. -/
def thenOp (sh : Byte → Flags → Byte × Flags) (op : Byte → State → State) (m : Byte) (s : State) : Byte × State :=
  let r := onByte sh m s
  (r.1, op r.1 r.2)

/-- R313. -/
def opSlo : Byte → State → Byte × State := thenOp aslFlags opOra

/-- R314. -/
def opRla : Byte → State → Byte × State := thenOp rolFlags opAnd

/-- R315. -/
def opSre : Byte → State → Byte × State := thenOp lsrFlags opEor

/-- R316: the ADC uses the carry that the rotate produced. -/
def opRra : Byte → State → Byte × State := thenOp rorFlags opAdc

/-- R317. -/
def valSax (s : State) : Byte := s.a &&& s.x

/-- R318. -/
def opLax (m : Byte) (s : State) : State := { s with a := m, x := m, p := setNZ m s.p }

/-- R319: only the compare sets flags. -/
def opDcp (m : Byte) (s : State) : Byte × State := (m - 1, opCmp (m - 1) s)

/-- R320: only the SBC sets flags. -/
def opIsc (m : Byte) (s : State) : Byte × State := (m + 1, opSbc (m + 1) s)

/-- R313. -/
def execSlo (m : Operand) (s : State) : Result State := runUnofficial (.slo m) (.rmw opSlo) s

/-- R314. -/
def execRla (m : Operand) (s : State) : Result State := runUnofficial (.rla m) (.rmw opRla) s

/-- R315. -/
def execSre (m : Operand) (s : State) : Result State := runUnofficial (.sre m) (.rmw opSre) s

/-- R316. -/
def execRra (m : Operand) (s : State) : Result State := runUnofficial (.rra m) (.rmw opRra) s

/-- R317. -/
def execSax (m : Operand) (s : State) : Result State := runUnofficial (.sax m) (.write valSax) s

/-- R318. -/
def execLax (m : Operand) (s : State) : Result State := runUnofficial (.lax m) (.read opLax) s

/-- R319. -/
def execDcp (m : Operand) (s : State) : Result State := runUnofficial (.dcp m) (.rmw opDcp) s

/-- R320. -/
def execIsc (m : Operand) (s : State) : Result State := runUnofficial (.isc m) (.rmw opIsc) s

/-- R321: the fetch of an illegal opcode halts the core, whatever the policy; PC and opcode are recorded (R332). -/
def execIllegal (opc : Byte) (s : State) : Result State :=
  match (Instr.illegal opc).opcode with
  | some b => .next (haltAt (.fatalHalt s.pc b) b s)
  | none => .refused .illFormed

end Sys2Proof.Machine
end

