-- ==== Sys2Proof/Machine/Cycle.lean ====
section
/-! DEFINITION. The core one bus cycle at a time: the spec's `step()` (spec/40_microsteps.md R130 to R134). -/

namespace Sys2Proof.Machine

/-- What a call of the spec's `step()` returns (R130). -/
inductive CallResult
  | ok
  | paused
  | halted (h : Halt)
  deriving DecidableEq, Repr

/-- The operation of an instruction's terminal micro-step (R133, R136). -/
def operationOf (i : Instr) : Operation :=
  match i with
  | .lda _ => .read opLda
  | .ldx _ => .read opLdx
  | .ldy _ => .read opLdy
  | .sta _ => .write valSta
  | .stx _ => .write valStx
  | .sty _ => .write valSty
  | .tax => .internal opTax
  | .tay => .internal opTay
  | .txa => .internal opTxa
  | .tya => .internal opTya
  | .tsx => .internal opTsx
  | .txs => .internal opTxs
  | .adc _ => .read opAdc
  | .sbc _ => .read opSbc
  | .and _ => .read opAnd
  | .ora _ => .read opOra
  | .eor _ => .read opEor
  | .bit _ => .read opBit
  | .cmp _ => .read opCmp
  | .cpx _ => .read opCpx
  | .cpy _ => .read opCpy
  | .asl m => shiftOperation aslFlags m
  | .lsr m => shiftOperation lsrFlags m
  | .rol m => shiftOperation rolFlags m
  | .ror m => shiftOperation rorFlags m
  | .inc _ => .rmw (onByte incFlags)
  | .dec _ => .rmw (onByte decFlags)
  | .inx => .internal opInx
  | .iny => .internal opIny
  | .dex => .internal opDex
  | .dey => .internal opDey
  | .bpl _ => .branch condBpl
  | .bmi _ => .branch condBmi
  | .bvc _ => .branch condBvc
  | .bvs _ => .branch condBvs
  | .bcc _ => .branch condBcc
  | .bcs _ => .branch condBcs
  | .bne _ => .branch condBne
  | .beq _ => .branch condBeq
  | .jmp _ => .fixed
  | .jsr _ => .fixed
  | .rts => .fixed
  | .brk _ => .fixed
  | .rti => .fixed
  | .pha => .push valPha
  | .php => .push valPhp
  | .pla => .pull opPla
  | .plp => .pull opPlp
  | .clc => .internal opClc
  | .sec => .internal opSec
  | .cli => .internal opCli
  | .sei => .internal opSei
  | .cld => .internal opCld
  | .sed => .internal opSed
  | .clv => .internal opClv
  | .nop => .internal opNop
  | .slo _ => .rmw opSlo
  | .rla _ => .rmw opRla
  | .sre _ => .rmw opSre
  | .rra _ => .rmw opRra
  | .sax _ => .write valSax
  | .lax _ => .read opLax
  | .dcp _ => .rmw opDcp
  | .isc _ => .rmw opIsc
  | .illegal _ => .fixed

/-- The three classes of R111. -/
inductive OpcodeClass
  | documented
  | unofficial
  | illegal
  deriving DecidableEq, Repr

/-- R111 to R113. -/
def classOf (k : Mnem) : OpcodeClass :=
  match k with
  | .slo | .rla | .sre | .rra | .sax | .lax | .dcp | .isc => .unofficial
  | .illegal => .illegal
  | _ => .documented

/-- The halt with which the fetch of an opcode ends, or `none` (R132, R311, R321). -/
def fetchHalt (s : State) (opc : Byte) : Halt :=
  match classOf (opcodeRow opc).1 with
  | .illegal => .fatalHalt s.pc opc
  | .unofficial => if s.params.unofficialPolicy = .error then .unimplementedOpcode s.pc opc else .none
  | .documented => .none

/-- The sequence that the fetch of an opcode selects (R133, R155). -/
def fetchSeq (s : State) (opc : Byte) : Seq :=
  let i := instrOf opc 0 0
  if classOf i.mnem = .unofficial ∧ s.params.unofficialPolicy = .nopWithCycles then nopSeq i else instrSeq i

/-- The FetchOpcode step (R132), in the order pause, IRQ, fetch (R342). -/
def fetchOpcodeStep (s : State) : Result (CallResult × State) :=
  if s.pausePending then .next (.paused, s)
  else if s.irqPending && !s.p.i then andThen (openIrq s) fun s => .next (.ok, s)
  else
    andThen (busValue s s.pc) fun opc =>
      match fetchHalt s opc with
      | .none => .next (.ok, openInstr opc (fetchSeq s opc) s)
      | h => .next (.halted h, haltAt h opc s)

/-- `MicroStep()` (R134): the sequence in progress with the operation of its opcode. -/
def microStep (f : InFlight) (s : State) : Result State :=
  microCycle .bus (operationOf (instrOf f.opc 0 0)) f s

/-- The spec's `step()`: exactly one bus cycle, or none while the core is halted or paused (R130). -/
def stepCall (s : State) : Result (CallResult × State) :=
  match s.halt with
  | .none =>
    match s.phase with
    | .fetchOpcode => fetchOpcodeStep s
    | .runMicroSteps f => andThen (microStep f s) fun s => .next (.ok, s)
  | h => .next (.halted h, s)

/-- The state after one call of the spec's `step()`. -/
def busCycle (s : State) : Result State := andThen (stepCall s) fun r => .next r.2

/-- Calls of the spec's `step()` up to the next instruction boundary, `n` at most. -/
def cyclesToBoundary : Nat → State → Result State
  | 0, s => .next s
  | n + 1, s =>
    match s.phase with
    | .fetchOpcode => .next s
    | .runMicroSteps _ => andThen (busCycle s) (cyclesToBoundary n)

end Sys2Proof.Machine
end

