-- ==== Sys2Proof/Machine/Fetch.lean ====
section
/-! DEFINITION. An instruction's bytes as its fetch cycles deliver them (spec/20_memory.md R81, R89), one whole
instruction or interrupt entry at a boundary, and placing a word where the next fetch reads it. -/

namespace Sys2Proof.Machine

/-- The state in which a JSR fetches its last byte: after the dummy stack read and the two pushes (R148). -/
def jsrPushes (s : State) : Result State :=
  andThen (dummyRead (stackAddr s.sp) s) fun s => .next (pushByte (lo s.pc) (pushByte (hi s.pc) s))

/-- The instruction that the fetch cycles at PC deliver. Each byte is read as it stands in its own cycle (R81). An
opcode whose fetch halts the core has no further fetch cycle (R311, R321). -/
def fetchInstr (s : State) : Result Instr :=
  andThen (busValue s s.pc) fun opc =>
    if fetchHalt s opc ≠ .none ∨ lengthOf opc = 1 then .next (instrOf opc 0 0)
    else
      andThen (fetchOperand .bus .second (openInstr opc (fetchSeq s opc) s)) fun r2 =>
        if lengthOf opc = 2 then .next (instrOf opc r2.1 0)
        else
          andThen (if (opcodeRow opc).1 = .jsr then jsrPushes r2.2 else .next r2.2) fun s3 =>
            andThen (busValue s3 s3.pc) fun b3 => .next (instrOf opc r2.1 b3)

/-- What happens at an instruction boundary of a core that is not halted, in the order of R342: a pending pause stops
it there, a pending IRQ with I clear is taken, and otherwise the instruction at PC runs. -/
def boundaryStep (s : State) : Result State :=
  if s.pausePending then .next s
  else if s.irqPending && !s.p.i then takeIrq s
  else andThen (fetchInstr s) fun i => exec i s

/-- The instruction in progress runs to its boundary: a started sequence always completes (R135). -/
def completeInstr (f : InFlight) (s : State) : Result State :=
  runCycles .bus (operationOf (instrOf f.opc 0 0)) longestSequence s

/-- CHAREN cleared in RAM[0x0001]: pages 0xD0 to 0xDF are RAM (R65). -/
def unmapIo (s : State) : State := ramWrite 1 (ramRead s 1 &&& 0xFB) s

/-- Puts a byte where a fetch at an address reads it: into RAM, into the ROM image mapped there, or, in the I/O page,
into the RAM below it with the page unmapped. -/
def placeByte (a : Word) (v : Byte) (s : State) : State :=
  match targetOf s a with
  | .ram => ramWrite a v s
  | .basic => { s with basicRom := some ((s.basicRom.getD []).set romUnlisted (a.toNat - 0xA000) v) }
  | .kernal => { s with kernalRom := s.kernalRom.set romUnlisted (a.toNat - 0xE000) v }
  | .vic _ | .vicGap | .charShadow | .cia _ _ => ramWrite a v (unmapIo s)

/-- The three bytes of a word at PC (the last first, since one of them may be the bank byte), at a boundary where the
next step fetches: not halted, not paused, no IRQ about to be taken. DESIGN CHOICE (log 13). -/
def placeWord (w : Nat) (s : State) : State :=
  let s := placeByte (s.pc + 2) (BitVec.ofNat 8 (w / 65536)) s
  let s := placeByte (s.pc + 1) (BitVec.ofNat 8 (w / 256)) s
  let s := placeByte s.pc (BitVec.ofNat 8 w) s
  { s with
    phase := .fetchOpcode
    halt := .none
    pausePending := false
    irqPending := s.irqPending && s.p.i }

end Sys2Proof.Machine
end

