-- ==== Sys2Proof/Machine/Step.lean ====
section
/-! DEFINITION. One instruction as a step: the spec's "step-N-instructions" with N = 1 (spec/60_exceptions.md R385).
DESIGN CHOICE (log 7): the spec's own `step()`, one bus cycle, is `busCycle` (Cycle.lean). -/

namespace Sys2Proof.Machine

/-- From a boundary: one instruction, one IRQ entry, or nothing while the core is halted or paused. From within an
instruction: the rest of it. -/
def step (s : State) : Host.Outcome State Fault Refusal :=
  match s.halt with
  | .none =>
    match s.phase with
    | .fetchOpcode => boundaryStep s
    | .runMicroSteps f => completeInstr f s
  | .fatalHalt _ _ | .unimplementedOpcode _ _ => .next s

/-- The state with an instruction's word stored where the next step fetches it. -/
def State.withFetchWord (s : State) (nbits w : Nat) : State := placeWord (w % 2 ^ nbits) s

end Sys2Proof.Machine
end

