-- ==== Sys2Proof/Laws/Memory.lean ====
section
/-! SUPPORT. Memory: a read after a write, and that every memory operation keeps the canonical form. -/

namespace Sys2Proof.Machine

variable (d : Nat → Byte)

@[simp] theorem Memory.get_nil (a : Nat) : Memory.get d [] a = d a := rfl

theorem Memory.get_cons (k : Nat) (v : Byte) (m : Memory) (a : Nat) :
    Memory.get d ((k, v) :: m) a = if a = k then v else Memory.get d m a := rfl

theorem Memory.get_erase (m : Memory) (a b : Nat) :
    Memory.get d (m.erase a) b = if b = a then d a else Memory.get d m b := by
  induction m with
  | nil => simp [Memory.erase]; rintro rfl; rfl
  | cons c m ih =>
    obtain ⟨k, v⟩ := c
    by_cases h : a = k
    · subst h; simp only [Memory.erase, if_true, ih, Memory.get_cons]; split <;> simp_all
    · simp only [Memory.erase, h, if_false, Memory.get_cons, ih]
      by_cases hb : b = a
      · subst hb; simp [h]
      · simp [hb]

theorem Memory.get_insert (m : Memory) (a : Nat) (v : Byte) (b : Nat) (hm : ∀ c ∈ m, c.1 ≠ a) :
    Memory.get d (m.insert a v) b = if b = a then v else Memory.get d m b := by
  induction m with
  | nil => simp [Memory.insert, Memory.get_cons]
  | cons c m ih =>
    obtain ⟨k, w⟩ := c
    have hk : k ≠ a := hm (k, w) (.head _)
    have ih := ih fun c hc => hm c (by simp [hc])
    by_cases h : a < k
    · simp [Memory.insert, h, Memory.get_cons]
    · simp only [Memory.insert, h, if_false, Memory.get_cons, ih]
      by_cases hb : b = k
      · subst hb; simp [hk]
      · simp [hb]

theorem Memory.not_mem_erase (m : Memory) (a : Nat) : ∀ c ∈ m.erase a, c.1 ≠ a := by
  induction m with
  | nil => simp [Memory.erase]
  | cons c m ih =>
    obtain ⟨k, v⟩ := c
    by_cases h : a = k
    · simpa [Memory.erase, h] using fun x y hx => ih (x, y) (by simpa [h] using hx)
    · simp only [Memory.erase, h, if_false, List.mem_cons]
      rintro c (rfl | hc)
      · exact fun e => h e.symm
      · exact ih c hc

/-- A read after a write: the written byte at its address, the old byte everywhere else. -/
theorem Memory.get_set (m : Memory) (a : Nat) (v : Byte) (b : Nat) :
    Memory.get d (m.set d a v) b = if b = a then v else Memory.get d m b := by
  unfold Memory.set
  by_cases h : v = d a
  · simp only [h, if_true, Memory.get_erase]
  · rw [if_neg h, Memory.get_insert d _ _ _ _ (Memory.not_mem_erase m a), Memory.get_erase]
    split <;> simp_all

@[simp] theorem Memory.get_set_same (m : Memory) (a : Nat) (v : Byte) : Memory.get d (m.set d a v) a = v := by
  simp [Memory.get_set]

theorem Memory.get_set_other (m : Memory) (a : Nat) (v : Byte) {b : Nat} (h : b ≠ a) :
    Memory.get d (m.set d a v) b = Memory.get d m b := by
  simp [Memory.get_set, h]

/-! ## The canonical form -/

/-- Every address of a memory lies above a bound. -/
def Memory.above (b : Nat) (m : Memory) : Prop := ∀ c ∈ m, b < c.1

theorem Memory.rising_cons (k : Nat) (v : Byte) (m : Memory) :
    Memory.rising ((k, v) :: m) = true ↔ m.above k ∧ m.rising = true := by
  induction m generalizing k v with
  | nil => simp [Memory.rising, Memory.above]
  | cons c m ih =>
    obtain ⟨l, w⟩ := c
    simp only [Memory.rising, Bool.and_eq_true, decide_eq_true_eq, Memory.above, List.mem_cons, forall_eq_or_imp]
    constructor
    · rintro ⟨h, hr⟩
      exact ⟨⟨h, fun c hc => h.trans (((ih l w).1 hr).1 c hc)⟩, hr⟩
    · rintro ⟨⟨h, -⟩, hr⟩
      exact ⟨h, hr⟩

theorem Memory.mem_erase (m : Memory) (a : Nat) (c : Host.Cell) (h : c ∈ m.erase a) : c ∈ m := by
  induction m with
  | nil => simp [Memory.erase] at h
  | cons k m ih =>
    obtain ⟨k, v⟩ := k
    by_cases hk : a = k
    · simp only [Memory.erase, hk, if_true] at h; exact .tail _ (ih (hk ▸ h))
    · simp only [Memory.erase, hk, if_false, List.mem_cons] at h
      exact h.elim (fun h => h ▸ .head _) fun h => .tail _ (ih h)

theorem Memory.mem_insert (m : Memory) (a : Nat) (v : Byte) (c : Host.Cell) (h : c ∈ m.insert a v) :
    c = (a, v) ∨ c ∈ m := by
  induction m with
  | nil => simpa [Memory.insert] using h
  | cons k m ih =>
    obtain ⟨k, w⟩ := k
    by_cases hk : a < k
    · simpa [Memory.insert, hk] using h
    · simp only [Memory.insert, hk, if_false, List.mem_cons] at h
      rcases h with h | h
      · exact .inr (h ▸ .head _)
      · exact (ih h).imp id (.tail _)

theorem Memory.rising_erase (m : Memory) (a : Nat) (h : m.rising = true) : (m.erase a).rising = true := by
  induction m with
  | nil => rfl
  | cons k m ih =>
    obtain ⟨k, v⟩ := k
    rw [Memory.rising_cons] at h
    by_cases hk : a = k
    · simpa only [Memory.erase, hk, if_true] using hk ▸ ih h.2
    · simp only [Memory.erase, hk, if_false, Memory.rising_cons]
      exact ⟨fun c hc => h.1 c (Memory.mem_erase m a c hc), ih h.2⟩

theorem Memory.rising_insert (m : Memory) (a : Nat) (v : Byte) (h : m.rising = true) (hm : ∀ c ∈ m, c.1 ≠ a) :
    (m.insert a v).rising = true := by
  induction m with
  | nil => rfl
  | cons k m ih =>
    obtain ⟨k, w⟩ := k
    have hk' : k ≠ a := hm (k, w) (.head _)
    have hr := (Memory.rising_cons k w m).1 h
    by_cases hk : a < k
    · simp only [Memory.insert, hk, if_true, Memory.rising_cons]
      refine ⟨?_, Memory.rising_cons k w m |>.1 h⟩
      rintro c (_ | ⟨_, hc⟩)
      · exact hk
      · exact hk.trans (hr.1 c hc)
    · simp only [Memory.insert, hk, if_false, Memory.rising_cons]
      refine ⟨fun c hc => ?_, ih hr.2 fun c hc => hm c (.tail _ hc)⟩
      rcases Memory.mem_insert m a v c hc with rfl | hc
      · show k < a; omega
      · exact hr.1 c hc

/-- Writing inside the bound keeps the canonical form. -/
theorem Memory.wf_set {size : Nat} (m : Memory) (a : Nat) (v : Byte) (ha : a < size) (h : m.wf d size = true) :
    (m.set d a v).wf d size = true := by
  simp only [Memory.wf, Bool.and_eq_true, List.all_eq_true, decide_eq_true_eq] at h ⊢
  unfold Memory.set
  by_cases hv : v = d a
  · simp only [hv, if_true]
    exact ⟨Memory.rising_erase m a h.1, fun c hc => h.2 c (Memory.mem_erase m a c hc)⟩
  · simp only [hv, if_false]
    refine ⟨Memory.rising_insert _ a v (Memory.rising_erase m a h.1) (Memory.not_mem_erase m a), fun c hc => ?_⟩
    rcases Memory.mem_insert _ a v c hc with rfl | hc
    · exact ⟨ha, hv⟩
    · exact h.2 c (Memory.mem_erase m a c hc)

/-! ## The RAM array -/

theorem ramRead_ramWrite (s : State) (a b : Word) (v : Byte) :
    ramRead (ramWrite a v s) b = if b = a then v else ramRead s b := by
  simp only [ramRead, ramWrite, Memory.get_set]
  by_cases h : b = a
  · simp [h]
  · have : b.toNat ≠ a.toNat := fun e => h (BitVec.eq_of_toNat_eq e)
    simp [h, this]

theorem ram_wf_ramWrite (s : State) (a : Word) (v : Byte) (h : s.ram.wf ramUnlisted 65536 = true) :
    (ramWrite a v s).ram.wf ramUnlisted 65536 = true :=
  Memory.wf_set _ _ _ _ a.isLt h

end Sys2Proof.Machine
end

