-- ==== Sys2Proof/Machine/HostSurface.lean ====
section
/-! DEFINITION. How the environment acts on the block between two calls of the spec's `step()`: power-on and `reset()`
(spec/70_reset_and_hazards.md), the host actions and the debug surface (spec/60_exceptions.md R385 to R388). -/

namespace Sys2Proof.Machine

/-! ## Reset -/

/-- The reset vector, read from the KERNAL image itself (R404). -/
def vectorOf (kernal : Memory) : Word := word (kernal.get romUnlisted 0x1FFD) (kernal.get romUnlisted 0x1FFC)

/-- `reset()` (R403): no bus cycle, and everything it does not name stays (R405, R406). After the first one the ROM images
never change (R402). -/
def hostReset (s : State) : State :=
  { s with
    pc := vectorOf s.kernalRom
    sp := 0xFF
    p := { s.p with i := true }
    phase := .fetchOpcode
    irqPending := false
    halt := .none
    romsOpen := false }

/-! ## Host actions -/

/-- The ways the environment acts on the block (R388). -/
inductive HostAction
  | loadRoms (kernal : Memory) (basic : Option Memory)
  | reset
  | requestInterrupt
  | setPause (on : Bool)
  | rawWrite (a : Word) (v : Byte)
  | clearRedraw
  | consumeEvents (n : Nat)
  | advancePeripherals
  deriving DecidableEq, Repr

/-- The effect of a host action (R388). The ROM images are loaded once, before the first `reset()`; a later load changes
nothing (R402; log 18). Raw memory access bypasses the decode and has no other effect (R92, R385). -/
def hostAct (h : HostAction) (s : State) : State :=
  match h with
  | .loadRoms kernal basic =>
    if s.romsOpen then { s with kernalRom := kernal, basicRom := basic, romsOpen := false } else s
  | .reset => hostReset s
  | .requestInterrupt => { s with irqPending := true }
  | .setPause on => { s with pausePending := on }
  | .rawWrite a v => ramWrite a v s
  | .clearRedraw => { s with redrawNeeded := false }
  | .consumeEvents n => { s with serial := { s.serial with events := s.serial.events.drop n } }
  | .advancePeripherals => { s with extTime := s.extTime + 1 }

/-! ## Power-on -/

/-- The values that power-on does not fix: `RESET_DRAW` and `RAM_INIT` (R8, R41, R401). -/
structure Draws where
  a : Byte
  x : Byte
  y : Byte
  n : Bool
  v : Bool
  d : Bool
  z : Bool
  c : Bool
  ram : Memory
  deriving DecidableEq, Repr

/-- The state that power-on creates (R400), no ROM image loaded: RAM[0x0001] is 0x37 whatever `RAM_INIT` says (R401).
`vector` is the value that PC has "from the reset vector" (R40; log 21). -/
def unloaded (q : Params) (vector : Word) (r : Draws) : State where
  a := r.a
  x := r.x
  y := r.y
  sp := 0xFF
  pc := vector
  p := { n := r.n, v := r.v, d := r.d, i := true, z := r.z, c := r.c }
  phase := .fetchOpcode
  irqPending := false
  pausePending := false
  halt := .none
  ram := r.ram.set ramUnlisted 1 0x37
  kernalRom := []
  basicRom := none
  romsOpen := true
  redrawNeeded := false
  cia1 := { pra := 0, prb := 0, ddra := 0, ddrb := 0 }
  cia2 := { pra := 0, prb := 0, ddra := 0, ddrb := 0 }
  outA2 := 0x00
  serial :=
    { sstate := .idle, nbits := 0, shreg := 0, primary := 0, secondary := 0, queue := [], ack := false, events := [] }
  params := q
  history := []
  deliveries := []
  extTime := 0

/-- The block after power-on, its ROM images loaded (R400, R402). DEDUCED (log 21): R400 names no PC and loads the images
after power-on, R40 gives PC from the reset vector; so PC is the vector of the image that is loaded. -/
def powerOn (q : Params) (kernal : Memory) (basic : Option Memory) (r : Draws) : State :=
  hostAct (.loadRoms kernal basic) (unloaded q (vectorOf kernal) r)

/-! ## Runs -/

/-- What happens next at the block: one call of the spec's `step()`, or a host action (R86). -/
inductive Happening
  | cycle
  | host (h : HostAction)
  deriving DecidableEq, Repr

/-- One happening. -/
def happen (e : Happening) (s : State) : Result State :=
  match e with
  | .cycle => busCycle s
  | .host h => .next (hostAct h s)

/-- A run under any interleaving of bus cycles and host actions (R86, R387). DESIGN CHOICE (log 18). -/
def runHappenings : List Happening → State → Result State
  | [], s => .next s
  | e :: es, s => andThen (happen e s) (runHappenings es)

/-! ## The debug surface (R385) -/

/-- Raw memory read. -/
def rawRead (s : State) (a : Word) : Byte := ramRead s a

/-- The register snapshot, with P as a byte (R26). -/
structure Snapshot where
  pc : Word
  sp : Byte
  a : Byte
  x : Byte
  y : Byte
  p : Byte
  phase : Phase
  halt : Halt
  deriving DecidableEq, Repr

def snapshot (s : State) : Snapshot where
  pc := s.pc
  sp := s.sp
  a := s.a
  x := s.x
  y := s.y
  p := s.p.toByte
  phase := s.phase
  halt := s.halt

/-- The host stops before a call at a boundary whose PC is in the set of breakpoints. -/
def atBreakpoint (breaks : List Word) (s : State) : Bool := decide (s.phase = .fetchOpcode) && breaks.contains s.pc

/-- Why a host's run ended. -/
inductive RunEnd
  | breakpoint
  | stopped (r : CallResult)
  | outOfCalls
  deriving DecidableEq, Repr

/-- The host's run loop: it calls the spec's `step()` until a breakpoint, a stop, or `n` calls. -/
def runUntil (breaks : List Word) : Nat → State → Result (RunEnd × State)
  | 0, s => .next (.outOfCalls, s)
  | n + 1, s =>
    if atBreakpoint breaks s then .next (.breakpoint, s)
    else
      andThen (stepCall s) fun r =>
        match r.1 with
        | .ok => runUntil breaks n r.2
        | stop => .next (.stopped stop, r.2)

/-- Step-N-instructions: N instructions or IRQ entries, ended early by a halt or a pause, which change nothing.
DEDUCED (log 19). -/
def stepInstructions : Nat → State → Result State
  | 0, s => .next s
  | n + 1, s => andThen (step s) (stepInstructions n)

/-! ## Disassembly (R117, R119). PRESUMED: upper-case digits, one space (log 17) -/

/-- A hexadecimal digit. -/
def hexDigit (n : Nat) : Char := Char.ofNat (if n < 10 then 48 + n else 55 + n)

def hexByte (b : Byte) : List Char := ['$', hexDigit (b.toNat / 16), hexDigit (b.toNat % 16)]

def hexWord (w : Word) : List Char := hexByte (hi w) ++ (hexByte (lo w)).drop 1

def Mnem.text (k : Mnem) : List Char :=
  match k with
  | .lda => ['L', 'D', 'A']
  | .ldx => ['L', 'D', 'X']
  | .ldy => ['L', 'D', 'Y']
  | .sta => ['S', 'T', 'A']
  | .stx => ['S', 'T', 'X']
  | .sty => ['S', 'T', 'Y']
  | .tax => ['T', 'A', 'X']
  | .tay => ['T', 'A', 'Y']
  | .txa => ['T', 'X', 'A']
  | .tya => ['T', 'Y', 'A']
  | .tsx => ['T', 'S', 'X']
  | .txs => ['T', 'X', 'S']
  | .adc => ['A', 'D', 'C']
  | .sbc => ['S', 'B', 'C']
  | .and => ['A', 'N', 'D']
  | .ora => ['O', 'R', 'A']
  | .eor => ['E', 'O', 'R']
  | .bit => ['B', 'I', 'T']
  | .cmp => ['C', 'M', 'P']
  | .cpx => ['C', 'P', 'X']
  | .cpy => ['C', 'P', 'Y']
  | .asl => ['A', 'S', 'L']
  | .lsr => ['L', 'S', 'R']
  | .rol => ['R', 'O', 'L']
  | .ror => ['R', 'O', 'R']
  | .inc => ['I', 'N', 'C']
  | .dec => ['D', 'E', 'C']
  | .inx => ['I', 'N', 'X']
  | .iny => ['I', 'N', 'Y']
  | .dex => ['D', 'E', 'X']
  | .dey => ['D', 'E', 'Y']
  | .bpl => ['B', 'P', 'L']
  | .bmi => ['B', 'M', 'I']
  | .bvc => ['B', 'V', 'C']
  | .bvs => ['B', 'V', 'S']
  | .bcc => ['B', 'C', 'C']
  | .bcs => ['B', 'C', 'S']
  | .bne => ['B', 'N', 'E']
  | .beq => ['B', 'E', 'Q']
  | .jmp => ['J', 'M', 'P']
  | .jsr => ['J', 'S', 'R']
  | .rts => ['R', 'T', 'S']
  | .brk => ['B', 'R', 'K']
  | .rti => ['R', 'T', 'I']
  | .pha => ['P', 'H', 'A']
  | .php => ['P', 'H', 'P']
  | .pla => ['P', 'L', 'A']
  | .plp => ['P', 'L', 'P']
  | .clc => ['C', 'L', 'C']
  | .sec => ['S', 'E', 'C']
  | .cli => ['C', 'L', 'I']
  | .sei => ['S', 'E', 'I']
  | .cld => ['C', 'L', 'D']
  | .sed => ['S', 'E', 'D']
  | .clv => ['C', 'L', 'V']
  | .nop => ['N', 'O', 'P']
  | .slo => ['S', 'L', 'O']
  | .rla => ['R', 'L', 'A']
  | .sre => ['S', 'R', 'E']
  | .rra => ['R', 'R', 'A']
  | .sax => ['S', 'A', 'X']
  | .lax => ['L', 'A', 'X']
  | .dcp => ['D', 'C', 'P']
  | .isc => ['I', 'S', 'C']
  | .illegal => ['.', 'b', 'y', 't', 'e']

/-- The operand text of R117. -/
def operandText (m : Operand) : List Char :=
  match m with
  | .acc => [' ', 'A']
  | .imm v => [' ', '#'] ++ hexByte v
  | .zp a => ' ' :: hexByte a
  | .zpx a => ' ' :: hexByte a ++ [',', 'X']
  | .zpy a => ' ' :: hexByte a ++ [',', 'Y']
  | .abs a => ' ' :: hexWord a
  | .abx a => ' ' :: hexWord a ++ [',', 'X']
  | .aby a => ' ' :: hexWord a ++ [',', 'Y']
  | .izx a => [' ', '('] ++ hexByte a ++ [',', 'X', ')']
  | .izy a => [' ', '('] ++ hexByte a ++ [')', ',', 'Y']

/-- The text of an instruction at an address: a branch prints its target, an illegal opcode a `.byte` (R119). -/
def instrText (q : Word) (i : Instr) : List Char :=
  match i with
  | .lda m | .ldx m | .ldy m | .adc m | .sbc m | .and m | .ora m | .eor m | .bit m | .cmp m | .cpx m
  | .cpy m | .sta m | .stx m | .sty m | .asl m | .lsr m | .rol m | .ror m | .inc m | .dec m | .slo m
  | .rla m | .sre m | .rra m | .sax m | .lax m | .dcp m | .isc m => (Mnem.text i.mnem) ++ operandText m
  | .bpl off | .bmi off | .bvc off | .bvs off | .bcc off | .bcs off | .bne off | .beq off =>
    (Mnem.text i.mnem) ++ ' ' :: hexWord (branchTarget (q + 2) off)
  | .jmp (.abs t) => (Mnem.text .jmp) ++ ' ' :: hexWord t
  | .jmp (.ind p) => (Mnem.text .jmp) ++ [' ', '('] ++ hexWord p ++ [')']
  | .jsr t => (Mnem.text .jsr) ++ ' ' :: hexWord t
  | .illegal opc => ['.', 'b', 'y', 't', 'e', ' '] ++ hexByte opc
  | i => (Mnem.text i.mnem)

/-- Disassembles the instruction at an address, its bytes read raw from RAM. -/
def disassemble (s : State) (q : Word) : List Char :=
  instrText q (instrOf (rawRead s q) (rawRead s (q + 1)) (rawRead s (q + 2)))

end Sys2Proof.Machine
end

