-- ==== Sys2Proof/Safety.lean ====
section
/-! DEFINITION. What a sound state is, and what it is for the machine not to stop. -/

namespace Sys2Proof.Machine

/-- The sequences that the core selects for an opcode (R133, R155), and IRQ entry. -/
def seqFits (f : InFlight) : Bool :=
  let i := instrOf f.opc 0 0
  (f.seq == .irq)
    || (classOf i.mnem != .illegal && f.seq == instrSeq i)
    || (classOf i.mnem == .unofficial && f.seq == nopSeq i)

/-- The last cycle that a sequence can have: a page cross adds one to an indexed read and two to a branch (R156). -/
def lastCycle (q : Seq) : Nat :=
  match q with
  | .read .abx | .read .aby | .read .izy => q.baseCycles + 1
  | .branch => 4
  | q => q.baseCycles

/-- An instruction in progress is in a cycle of its own sequence (R29). -/
def InFlight.sound (f : InFlight) : Bool := seqFits f && decide (2 ≤ f.t) && decide (f.t ≤ lastCycle f.seq)

/-- The phase is sound, and a halted core is at a boundary (R331: `halt` is set only by the FetchOpcode step). -/
def phaseSound (s : State) : Bool :=
  match s.phase with
  | .fetchOpcode => true
  | .runMicroSteps f => f.sound && decide (s.halt = .none)

/-- The memories are canonical, RAM within 64 KiB and each ROM image within 8 KiB (R7, R35). -/
def memorySound (s : State) : Bool :=
  s.ram.wf ramUnlisted 65536 && s.kernalRom.wf romUnlisted 8192
    && (match s.basicRom with
        | some rom => rom.wf romUnlisted 8192
        | none => true)

/-- The serial machine between two notifications: at most 7 bits are shifted in, and the primary address is below 32
(R38, R369); CIA2's output byte is its data masked by its direction (R359). -/
def serialSound (s : State) : Bool :=
  decide (s.serial.nbits < 8) && decide (s.serial.primary < 32) && decide (s.outA2 = s.cia2.pra &&& s.cia2.ddra)

/-- The invariant of the block. -/
def Inv (s : State) : Prop := memorySound s = true ∧ serialSound s = true ∧ phaseSound s = true

/-- The machine does not stop here: a step answers a next state. -/
def Goes (s : State) : Prop := ∃ t, step s = .next t

/-- The core is not halted (R331). -/
def Running (s : State) : Prop := s.halt = .none

/-! ## What the bus shows of an instruction

The terms in which a statement says which bus cycles an instruction makes: they read the tables of spec/40_microsteps.md
row by row, with no latch and no micro-step. -/

/-- The state with another record of bus cycles. What an external chip answers may depend on it. -/
def withHistory (h : List BusCycle) (s : State) : State := { s with history := h }

/-- The state at an instruction boundary with a PC and a record. -/
def atBoundary (pc : Word) (h : List BusCycle) (s : State) : State :=
  { s with pc := pc, history := h, phase := .fetchOpcode }

/-- The RAM and SP after a push (R12): the stack page is always RAM. -/
def pushed (v : Byte) (s : State) : State := { ramWrite (stackAddr s.sp) v s with sp := s.sp - 1 }

/-- The record entry of a RAM read. -/
def ramCycle (s : State) (a : Word) : BusCycle := .read a (ramRead s a)

/-- The word that lies `k` bytes above SP on the stack, low byte first, wrapping inside the stack page (R23). -/
def pulledWord (k : Byte) (s : State) : Word :=
  word (ramRead s (stackAddr (s.sp + (k + 1)))) (ramRead s (stackAddr (s.sp + k)))

/-- The RAM and SP after an interrupt has pushed PC and a status byte, with I set. -/
def interrupted (pc : Word) (status : Byte) (s : State) : State :=
  setP { s.p with i := true } (pushed status (pushed (lo pc) (pushed (hi pc) s)))

/-- The record of an interrupt's three pushes. -/
def interruptWrites (pc : Word) (status : Byte) (s : State) : List BusCycle :=
  [.write (stackAddr (s.sp - 2)) status pc, .write (stackAddr (s.sp - 1)) (lo pc) pc, .write (stackAddr s.sp) (hi pc) pc]

/-- The opcode byte of an instruction. -/
def opcodeByte (i : Instr) : Byte := i.opcode.getD 0

/-- The address of the next instruction in memory, `q + length` (R115, R158). -/
def nextPc (m : Operand) (s : State) : Word := s.pc + BitVec.ofNat 16 m.mode.length

/-- The bus cycles of an operand form from the opcode fetch to the last cycle of its effective address, oldest first
(R138 to R144). Every data address among them is in zero page. -/
def addressReads (opc : Byte) (m : Operand) (s : State) : List BusCycle :=
  let zp (b : Byte) : BusCycle := .read (zext16 b) (ramRead s (zext16 b))
  let opcode : BusCycle := .read s.pc opc
  let second (b : Byte) : BusCycle := .read (s.pc + 1) b
  let third (b : Byte) : BusCycle := .read (s.pc + 2) b
  match m with
  | .acc => [opcode]
  | .imm b | .zp b => [opcode, second b]
  | .zpx b | .zpy b => [opcode, second b, zp b]
  | .abs w | .abx w | .aby w => [opcode, second (lo w), third (hi w)]
  | .izx b => [opcode, second b, zp b, zp (b + s.x), zp (b + s.x + 1)]
  | .izy b => [opcode, second b, zp b, zp (b + 1)]

/-- The record after those cycles, newest first. -/
def addressRecord (opc : Byte) (m : Operand) (s : State) : List BusCycle :=
  (addressReads opc m s).reverse ++ s.history

/-- The form's index makes the access of a store or a read-modify-write begin with a read at the uncorrected address
(R142, R144). -/
def isIndexed (m : Operand) : Bool :=
  match m with
  | .abx _ | .aby _ | .izy _ => true
  | _ => false

/-- From a record `g` to a record `h` by one read at an address, with the value the bus gives there and then. -/
def ReadsAt (s : State) (a : Word) (v : Byte) (g h : List BusCycle) : Prop :=
  busValue (withHistory g s) a = .next v ∧ h = .read a v :: g

/-- From a record `g` to a record `h` by the read at the uncorrected address, where there is one. -/
def UncorrectedRead (s : State) (m : Operand) (there : Bool) (g h : List BusCycle) : Prop :=
  if there then ∃ u, ReadsAt s (uncorrectedAddress m s) u g h else h = g

/-- A read instruction takes the value `v` from its operand, and its bus cycles make the record `h` (R138 to R144: on
a page cross, and only then, the uncorrected address is read first). -/
def ReadsOperand (opc : Byte) (m : Operand) (s : State) (v : Byte) (h : List BusCycle) : Prop :=
  match m with
  | .acc => False
  | .imm b => v = b ∧ h = addressRecord opc m s
  | m =>
    ∃ g, UncorrectedRead s m (crossesPage m s) (addressRecord opc m s) g ∧ ReadsAt s (effectiveAddress m s) v g h

/-- The reads of a read or a read-modify-write instruction have values. -/
def operandReadable (m : Operand) (s : State) : Bool :=
  match m with
  | .acc | .imm _ => true
  | m => readable s (uncorrectedAddress m s) && readable s (effectiveAddress m s)

/-- The only read of a store that can miss a value is the one at the uncorrected address. -/
def storeReadable (m : Operand) (s : State) : Bool := !isIndexed m || readable s (uncorrectedAddress m s)

/-- The fetches of the bytes after the opcode, newest first. -/
def operandFetches (m : Operand) (s : State) : List BusCycle :=
  match m.bytes with
  | [b, c] => [.read (s.pc + 2) c, .read (s.pc + 1) b]
  | [b] => [.read (s.pc + 1) b]
  | _ => []

/-- The byte that a fetch at an address gives, where it does not come from a peripheral's answer. -/
def memoryByte (s : State) (a : Word) : Option Byte :=
  match targetOf s a with
  | .ram => some (ramRead s a)
  | .basic => s.basicRom.map fun rom => rom.get romUnlisted (a.toNat - 0xA000)
  | .kernal => some (s.kernalRom.get romUnlisted (a.toNat - 0xE000))
  | .vic _ | .vicGap | .charShadow | .cia _ _ => none

/-- A byte of the IRQ/BRK vector: from the KERNAL image while HIRAM is set, else from RAM (R64, R84). -/
def vectorByte (s : State) (a : Word) : Byte :=
  if (ramRead s 1).getLsbD 1 then s.kernalRom.get romUnlisted (a.toNat - 0xE000) else ramRead s a

/-! ## The forms of a statement about an instruction

Each says, for every operand form of one instruction with its opcode byte, that the instruction completes, what the whole
next state is, and which bus cycles it makes. `ok` is a premise on the state alone. -/

/-- A read instruction: `f` is what it does with the operand byte to the registers. All of memory is unchanged. -/
def ReadForms (k : Operand → Instr) (forms : List (Mode × Byte)) (ok : State → Prop) (f : Byte → State → State) :
    Prop :=
  ∀ (m : Operand) (opc : Byte) (s : State), (m.mode, opc) ∈ forms → ok s → operandReadable m s = true →
    ∃ v h, ReadsOperand opc m s v h ∧ exec (k m) s = .next (atBoundary (nextPc m s) h (f v s))

/-- A store of the byte `val s` to the effective address, in its last cycle. Every other byte of RAM is unchanged, and so
is that one where it is not mapped to RAM. -/
def StoreForms (k : Operand → Instr) (forms : List (Mode × Byte)) (ok : State → Prop) (val : State → Byte) : Prop :=
  ∀ (m : Operand) (opc : Byte) (s : State), (m.mode, opc) ∈ forms → ok s → storeReadable m s = true →
    ∃ t h, exec (k m) s = .next t
      ∧ UncorrectedRead s m (isIndexed m) (addressRecord opc m s) h
      ∧ t = atBoundary (nextPc m s) (.write (effectiveAddress m s) (val s) (nextPc m s) :: h)
          (busStore (effectiveAddress m s) (val s) (setPc (nextPc m s) s))
      ∧ (∀ a, a ≠ effectiveAddress m s → ramRead t a = ramRead s a)
      ∧ ramRead t (effectiveAddress m s)
          = if targetOf s (effectiveAddress m s) = .ram then val s else ramRead s (effectiveAddress m s)

/-- A read-modify-write instruction: from the byte `v` at the effective address and the registers, `sh` gives the byte
written back, A and P. The unmodified byte is written first. -/
def RmwForms (k : Operand → Instr) (forms : List (Mode × Byte)) (ok : State → Prop)
    (sh : Byte → State → Byte × Byte × Flags) : Prop :=
  ∀ (m : Operand) (opc : Byte) (s : State), (m.mode, opc) ∈ forms → ok s → operandReadable m s = true →
    ∃ t v h0 h, exec (k m) s = .next t
      ∧ UncorrectedRead s m (isIndexed m) (addressRecord opc m s) h0
      ∧ ReadsAt s (effectiveAddress m s) v h0 h
      ∧ t = atBoundary (nextPc m s)
          (.write (effectiveAddress m s) (sh v s).1 (nextPc m s) :: .write (effectiveAddress m s) v (nextPc m s) :: h)
          { busStore (effectiveAddress m s) (sh v s).1 (busStore (effectiveAddress m s) v (setPc (nextPc m s) s)) with
            a := (sh v s).2.1
            p := (sh v s).2.2 }
      ∧ (∀ a, a ≠ effectiveAddress m s → ramRead t a = ramRead s a)
      ∧ ramRead t (effectiveAddress m s)
          = if targetOf s (effectiveAddress m s) = .ram then (sh v s).1 else ramRead s (effectiveAddress m s)

/-- An implied or accumulator instruction: two cycles, the second a dummy read at the next address. -/
def InternalForm (i : Instr) (opc : Byte) (f : State → State) : Prop :=
  ∀ s : State, readable s (s.pc + 1) = true →
    ∃ v h, ReadsAt s (s.pc + 1) v (.read s.pc opc :: s.history) h ∧ exec i s = .next (atBoundary (s.pc + 1) h (f s))

/-- A conditional branch: 2 cycles when it is not taken, 3 when it is taken within its page, 4 across a page. -/
def BranchForm (k : Byte → Instr) (opc : Byte) (taken : Flags → Prop) : Prop :=
  ∀ (off : Byte) (s : State),
    let fetched : List BusCycle := .read (s.pc + 1) off :: .read s.pc opc :: s.history
    ∃ target : Word, (target.toNat : Int) = (s.pc.toNat + 2 + off.toInt) % 65536
      ∧ (¬ taken s.p → exec (k off) s = .next (atBoundary (s.pc + 2) fetched s))
      ∧ (taken s.p → hi target = hi (s.pc + 2) → readable s (s.pc + 2) = true →
          ∃ v h, ReadsAt s (s.pc + 2) v fetched h ∧ exec (k off) s = .next (atBoundary target h s))
      ∧ (taken s.p → hi target ≠ hi (s.pc + 2) → readable s (s.pc + 2) = true →
          readable s (word (hi (s.pc + 2)) (lo target)) = true →
          ∃ v g w h, ReadsAt s (s.pc + 2) v fetched g ∧ ReadsAt s (word (hi (s.pc + 2)) (lo target)) w g h
            ∧ exec (k off) s = .next (atBoundary target h s))

/-- The rows of the unofficial set U (R113, R313 to R320), with each form's opcode byte and its cycle count without page
cross (R156). -/
def unofficialTable : List ((Operand → Instr) × List (Mode × Byte × Nat)) :=
  [(.slo, [(.zp, 0x07, 5), (.zpx, 0x17, 6), (.abs, 0x0F, 6), (.abx, 0x1F, 7), (.aby, 0x1B, 7), (.izx, 0x03, 8),
      (.izy, 0x13, 8)]),
   (.rla, [(.zp, 0x27, 5), (.zpx, 0x37, 6), (.abs, 0x2F, 6), (.abx, 0x3F, 7), (.aby, 0x3B, 7), (.izx, 0x23, 8),
      (.izy, 0x33, 8)]),
   (.sre, [(.zp, 0x47, 5), (.zpx, 0x57, 6), (.abs, 0x4F, 6), (.abx, 0x5F, 7), (.aby, 0x5B, 7), (.izx, 0x43, 8),
      (.izy, 0x53, 8)]),
   (.rra, [(.zp, 0x67, 5), (.zpx, 0x77, 6), (.abs, 0x6F, 6), (.abx, 0x7F, 7), (.aby, 0x7B, 7), (.izx, 0x63, 8),
      (.izy, 0x73, 8)]),
   (.sax, [(.zp, 0x87, 3), (.zpy, 0x97, 4), (.abs, 0x8F, 4), (.izx, 0x83, 6)]),
   (.lax, [(.zp, 0xA7, 3), (.zpy, 0xB7, 4), (.abs, 0xAF, 4), (.aby, 0xBF, 4), (.izx, 0xA3, 6), (.izy, 0xB3, 5)]),
   (.dcp, [(.zp, 0xC7, 5), (.zpx, 0xD7, 6), (.abs, 0xCF, 6), (.abx, 0xDF, 7), (.aby, 0xDB, 7), (.izx, 0xC3, 8),
      (.izy, 0xD3, 8)]),
   (.isc, [(.zp, 0xE7, 5), (.zpx, 0xF7, 6), (.abs, 0xEF, 6), (.abx, 0xFF, 7), (.aby, 0xFB, 7), (.izx, 0xE3, 8),
      (.izy, 0xF3, 8)])]

/-! ## The serial bus -/

/-- A notification: the output bits that changed, and the output byte. -/
abbrev Notification := Byte × Byte

/-- The data bits that the CLK rises of a sequence of notifications carry (R368, R369). -/
def riseBits (ns : List Notification) : List Bool :=
  (ns.filter fun n => clkRise n.1 n.2).map fun n => lineBit n.2

/-- A byte's bits, least significant first (R369). -/
def byteBits (b : Byte) : List Bool := (List.range 8).map fun k => b.getLsbD k

/-- The serial bus after a sequence of notifications. -/
def SerialBus.notifyAll (ns : List Notification) (b : SerialBus) : SerialBus :=
  ns.foldl (fun b n => b.edgeNotify n.1 n.2) b

/-- The notifications end with a CLK rise, with ATN as given, and their rises carry exactly the byte. Notifications
without a rise may stand anywhere before. -/
def Delivers (byte : Byte) (atn : Bool) (ns : List Notification) : Prop :=
  ∃ before ch out, ns = before ++ [(ch, out)] ∧ clkRise ch out = true ∧ lineAtn out = atn
    ∧ riseBits ns = byteBits byte

/-- The notifications deliver payload bytes one after another, with ATN clear. -/
def DeliversAll : List Byte → List Notification → Prop
  | [], ns => ns = []
  | byte :: bytes, ns => ∃ first rest, ns = first ++ rest ∧ Delivers byte false first ∧ DeliversAll bytes rest

/-! ## Decimal digits -/

/-- Both digits of a byte are decimal. -/
def isBcd (b : Byte) : Prop := b.toNat / 16 ≤ 9 ∧ b.toNat % 16 ≤ 9

/-- The number that two decimal digits write. -/
def bcdValue (b : Byte) : Nat := b.toNat / 16 * 10 + b.toNat % 16

/-! ## Cycle counts (R156) -/

/-- The "read" column; `p` is 1 where the index crosses a page. -/
def readCycles (m : Operand) (s : State) : Nat :=
  match m with
  | .acc | .imm _ => 2
  | .zp _ => 3
  | .zpx _ | .zpy _ | .abs _ => 4
  | .abx _ | .aby _ => 4 + (crossesPage m s).toNat
  | .izx _ => 6
  | .izy _ => 5 + (crossesPage m s).toNat

/-- The "write" column. -/
def writeCycles (m : Operand) : Nat :=
  match m with
  | .acc | .imm _ => 2
  | .zp _ => 3
  | .zpx _ | .zpy _ | .abs _ => 4
  | .abx _ | .aby _ => 5
  | .izx _ | .izy _ => 6

/-- The "RMW" column, and the accumulator forms. -/
def rmwCycles (m : Operand) : Nat :=
  match m with
  | .acc | .imm _ => 2
  | .zp _ => 5
  | .zpx _ | .zpy _ | .abs _ => 6
  | .abx _ | .aby _ => 7
  | .izx _ | .izy _ => 8

/-- `2 + t + x` of a branch. -/
def branchCycles (taken : Bool) (off : Byte) (s : State) : Nat :=
  if taken then if hi (branchTarget (s.pc + 2) off) = hi (s.pc + 2) then 3 else 4 else 2

/-- The table's count for an instruction that runs its own sequence. -/
def tableCycles (i : Instr) (s : State) : Nat :=
  match i with
  | .lda m | .ldx m | .ldy m | .adc m | .sbc m | .and m | .ora m | .eor m | .bit m | .cmp m | .cpx m | .cpy m
  | .lax m => readCycles m s
  | .sta m | .stx m | .sty m | .sax m => writeCycles m
  | .asl m | .lsr m | .rol m | .ror m | .inc m | .dec m | .slo m | .rla m | .sre m | .rra m | .dcp m
  | .isc m => rmwCycles m
  | .tax | .tay | .txa | .tya | .tsx | .txs | .inx | .iny | .dex | .dey | .clc | .sec | .cli | .sei | .cld | .sed | .clv
  | .nop => 2
  | .bpl off => branchCycles (!s.p.n) off s
  | .bmi off => branchCycles s.p.n off s
  | .bvc off => branchCycles (!s.p.v) off s
  | .bvs off => branchCycles s.p.v off s
  | .bcc off => branchCycles (!s.p.c) off s
  | .bcs off => branchCycles s.p.c off s
  | .bne off => branchCycles (!s.p.z) off s
  | .beq off => branchCycles s.p.z off s
  | .jmp (.abs _) => 3
  | .jmp (.ind _) => 5
  | .jsr _ | .rts | .rti => 6
  | .brk _ => 7
  | .pha | .php => 3
  | .pla | .plp => 4
  | .illegal _ => 1

end Sys2Proof.Machine
end

