-- ==== Sys2Proof/Laws/State.lean ====
section
/-! SUPPORT. The fields of every state update, one lemma each, so that no proof unfolds a record update. -/

namespace Sys2Proof.Machine

variable (s : State)

/-! ## record -/

@[simp] theorem record_a (c : BusCycle) : (record c s).a = s.a := rfl
@[simp] theorem record_x (c : BusCycle) : (record c s).x = s.x := rfl
@[simp] theorem record_y (c : BusCycle) : (record c s).y = s.y := rfl
@[simp] theorem record_sp (c : BusCycle) : (record c s).sp = s.sp := rfl
@[simp] theorem record_pc (c : BusCycle) : (record c s).pc = s.pc := rfl
@[simp] theorem record_p (c : BusCycle) : (record c s).p = s.p := rfl
@[simp] theorem record_phase (c : BusCycle) : (record c s).phase = s.phase := rfl
@[simp] theorem record_irqPending (c : BusCycle) : (record c s).irqPending = s.irqPending := rfl
@[simp] theorem record_pausePending (c : BusCycle) : (record c s).pausePending = s.pausePending := rfl
@[simp] theorem record_halt (c : BusCycle) : (record c s).halt = s.halt := rfl
@[simp] theorem record_ram (c : BusCycle) : (record c s).ram = s.ram := rfl
@[simp] theorem record_kernalRom (c : BusCycle) : (record c s).kernalRom = s.kernalRom := rfl
@[simp] theorem record_basicRom (c : BusCycle) : (record c s).basicRom = s.basicRom := rfl
@[simp] theorem record_romsOpen (c : BusCycle) : (record c s).romsOpen = s.romsOpen := rfl
@[simp] theorem record_redrawNeeded (c : BusCycle) : (record c s).redrawNeeded = s.redrawNeeded := rfl
@[simp] theorem record_cia1 (c : BusCycle) : (record c s).cia1 = s.cia1 := rfl
@[simp] theorem record_cia2 (c : BusCycle) : (record c s).cia2 = s.cia2 := rfl
@[simp] theorem record_outA2 (c : BusCycle) : (record c s).outA2 = s.outA2 := rfl
@[simp] theorem record_serial (c : BusCycle) : (record c s).serial = s.serial := rfl
@[simp] theorem record_params (c : BusCycle) : (record c s).params = s.params := rfl
@[simp] theorem record_history (c : BusCycle) : (record c s).history = c :: s.history := rfl
@[simp] theorem record_deliveries (c : BusCycle) : (record c s).deliveries = s.deliveries := rfl
@[simp] theorem record_extTime (c : BusCycle) : (record c s).extTime = s.extTime := rfl

/-! ## finish -/

@[simp] theorem finish_a : (finish s).a = s.a := rfl
@[simp] theorem finish_x : (finish s).x = s.x := rfl
@[simp] theorem finish_y : (finish s).y = s.y := rfl
@[simp] theorem finish_sp : (finish s).sp = s.sp := rfl
@[simp] theorem finish_pc : (finish s).pc = s.pc := rfl
@[simp] theorem finish_p : (finish s).p = s.p := rfl
@[simp] theorem finish_phase : (finish s).phase = .fetchOpcode := rfl
@[simp] theorem finish_irqPending : (finish s).irqPending = s.irqPending := rfl
@[simp] theorem finish_pausePending : (finish s).pausePending = s.pausePending := rfl
@[simp] theorem finish_halt : (finish s).halt = s.halt := rfl
@[simp] theorem finish_ram : (finish s).ram = s.ram := rfl
@[simp] theorem finish_kernalRom : (finish s).kernalRom = s.kernalRom := rfl
@[simp] theorem finish_basicRom : (finish s).basicRom = s.basicRom := rfl
@[simp] theorem finish_romsOpen : (finish s).romsOpen = s.romsOpen := rfl
@[simp] theorem finish_redrawNeeded : (finish s).redrawNeeded = s.redrawNeeded := rfl
@[simp] theorem finish_cia1 : (finish s).cia1 = s.cia1 := rfl
@[simp] theorem finish_cia2 : (finish s).cia2 = s.cia2 := rfl
@[simp] theorem finish_outA2 : (finish s).outA2 = s.outA2 := rfl
@[simp] theorem finish_serial : (finish s).serial = s.serial := rfl
@[simp] theorem finish_params : (finish s).params = s.params := rfl
@[simp] theorem finish_history : (finish s).history = s.history := rfl
@[simp] theorem finish_deliveries : (finish s).deliveries = s.deliveries := rfl
@[simp] theorem finish_extTime : (finish s).extTime = s.extTime := rfl

/-! ## proceed -/

@[simp] theorem proceed_a (f : InFlight) (l : Latches) : (proceed f l s).a = s.a := rfl
@[simp] theorem proceed_x (f : InFlight) (l : Latches) : (proceed f l s).x = s.x := rfl
@[simp] theorem proceed_y (f : InFlight) (l : Latches) : (proceed f l s).y = s.y := rfl
@[simp] theorem proceed_sp (f : InFlight) (l : Latches) : (proceed f l s).sp = s.sp := rfl
@[simp] theorem proceed_pc (f : InFlight) (l : Latches) : (proceed f l s).pc = s.pc := rfl
@[simp] theorem proceed_p (f : InFlight) (l : Latches) : (proceed f l s).p = s.p := rfl
@[simp] theorem proceed_phase (f : InFlight) (l : Latches) : (proceed f l s).phase = .runMicroSteps { f with t := f.t + 1, latches := l } :=
  rfl
@[simp] theorem proceed_irqPending (f : InFlight) (l : Latches) : (proceed f l s).irqPending = s.irqPending := rfl
@[simp] theorem proceed_pausePending (f : InFlight) (l : Latches) : (proceed f l s).pausePending = s.pausePending :=
  rfl
@[simp] theorem proceed_halt (f : InFlight) (l : Latches) : (proceed f l s).halt = s.halt := rfl
@[simp] theorem proceed_ram (f : InFlight) (l : Latches) : (proceed f l s).ram = s.ram := rfl
@[simp] theorem proceed_kernalRom (f : InFlight) (l : Latches) : (proceed f l s).kernalRom = s.kernalRom := rfl
@[simp] theorem proceed_basicRom (f : InFlight) (l : Latches) : (proceed f l s).basicRom = s.basicRom := rfl
@[simp] theorem proceed_romsOpen (f : InFlight) (l : Latches) : (proceed f l s).romsOpen = s.romsOpen := rfl
@[simp] theorem proceed_redrawNeeded (f : InFlight) (l : Latches) : (proceed f l s).redrawNeeded = s.redrawNeeded :=
  rfl
@[simp] theorem proceed_cia1 (f : InFlight) (l : Latches) : (proceed f l s).cia1 = s.cia1 := rfl
@[simp] theorem proceed_cia2 (f : InFlight) (l : Latches) : (proceed f l s).cia2 = s.cia2 := rfl
@[simp] theorem proceed_outA2 (f : InFlight) (l : Latches) : (proceed f l s).outA2 = s.outA2 := rfl
@[simp] theorem proceed_serial (f : InFlight) (l : Latches) : (proceed f l s).serial = s.serial := rfl
@[simp] theorem proceed_params (f : InFlight) (l : Latches) : (proceed f l s).params = s.params := rfl
@[simp] theorem proceed_history (f : InFlight) (l : Latches) : (proceed f l s).history = s.history := rfl
@[simp] theorem proceed_deliveries (f : InFlight) (l : Latches) : (proceed f l s).deliveries = s.deliveries := rfl
@[simp] theorem proceed_extTime (f : InFlight) (l : Latches) : (proceed f l s).extTime = s.extTime := rfl

/-! ## ramWrite -/

@[simp] theorem ramWrite_a (b : Word) (v : Byte) : (ramWrite b v s).a = s.a := rfl
@[simp] theorem ramWrite_x (b : Word) (v : Byte) : (ramWrite b v s).x = s.x := rfl
@[simp] theorem ramWrite_y (b : Word) (v : Byte) : (ramWrite b v s).y = s.y := rfl
@[simp] theorem ramWrite_sp (b : Word) (v : Byte) : (ramWrite b v s).sp = s.sp := rfl
@[simp] theorem ramWrite_pc (b : Word) (v : Byte) : (ramWrite b v s).pc = s.pc := rfl
@[simp] theorem ramWrite_p (b : Word) (v : Byte) : (ramWrite b v s).p = s.p := rfl
@[simp] theorem ramWrite_phase (b : Word) (v : Byte) : (ramWrite b v s).phase = s.phase := rfl
@[simp] theorem ramWrite_irqPending (b : Word) (v : Byte) : (ramWrite b v s).irqPending = s.irqPending := rfl
@[simp] theorem ramWrite_pausePending (b : Word) (v : Byte) : (ramWrite b v s).pausePending = s.pausePending := rfl
@[simp] theorem ramWrite_halt (b : Word) (v : Byte) : (ramWrite b v s).halt = s.halt := rfl
@[simp] theorem ramWrite_ram (b : Word) (v : Byte) : (ramWrite b v s).ram = s.ram.set ramUnlisted b.toNat v := rfl
@[simp] theorem ramWrite_kernalRom (b : Word) (v : Byte) : (ramWrite b v s).kernalRom = s.kernalRom := rfl
@[simp] theorem ramWrite_basicRom (b : Word) (v : Byte) : (ramWrite b v s).basicRom = s.basicRom := rfl
@[simp] theorem ramWrite_romsOpen (b : Word) (v : Byte) : (ramWrite b v s).romsOpen = s.romsOpen := rfl
@[simp] theorem ramWrite_redrawNeeded (b : Word) (v : Byte) : (ramWrite b v s).redrawNeeded = s.redrawNeeded := rfl
@[simp] theorem ramWrite_cia1 (b : Word) (v : Byte) : (ramWrite b v s).cia1 = s.cia1 := rfl
@[simp] theorem ramWrite_cia2 (b : Word) (v : Byte) : (ramWrite b v s).cia2 = s.cia2 := rfl
@[simp] theorem ramWrite_outA2 (b : Word) (v : Byte) : (ramWrite b v s).outA2 = s.outA2 := rfl
@[simp] theorem ramWrite_serial (b : Word) (v : Byte) : (ramWrite b v s).serial = s.serial := rfl
@[simp] theorem ramWrite_params (b : Word) (v : Byte) : (ramWrite b v s).params = s.params := rfl
@[simp] theorem ramWrite_history (b : Word) (v : Byte) : (ramWrite b v s).history = s.history := rfl
@[simp] theorem ramWrite_deliveries (b : Word) (v : Byte) : (ramWrite b v s).deliveries = s.deliveries := rfl
@[simp] theorem ramWrite_extTime (b : Word) (v : Byte) : (ramWrite b v s).extTime = s.extTime := rfl

/-! ## setPc -/

@[simp] theorem setPc_a (w : Word) : (setPc w s).a = s.a := rfl
@[simp] theorem setPc_x (w : Word) : (setPc w s).x = s.x := rfl
@[simp] theorem setPc_y (w : Word) : (setPc w s).y = s.y := rfl
@[simp] theorem setPc_sp (w : Word) : (setPc w s).sp = s.sp := rfl
@[simp] theorem setPc_pc (w : Word) : (setPc w s).pc = w := rfl
@[simp] theorem setPc_p (w : Word) : (setPc w s).p = s.p := rfl
@[simp] theorem setPc_phase (w : Word) : (setPc w s).phase = s.phase := rfl
@[simp] theorem setPc_irqPending (w : Word) : (setPc w s).irqPending = s.irqPending := rfl
@[simp] theorem setPc_pausePending (w : Word) : (setPc w s).pausePending = s.pausePending := rfl
@[simp] theorem setPc_halt (w : Word) : (setPc w s).halt = s.halt := rfl
@[simp] theorem setPc_ram (w : Word) : (setPc w s).ram = s.ram := rfl
@[simp] theorem setPc_kernalRom (w : Word) : (setPc w s).kernalRom = s.kernalRom := rfl
@[simp] theorem setPc_basicRom (w : Word) : (setPc w s).basicRom = s.basicRom := rfl
@[simp] theorem setPc_romsOpen (w : Word) : (setPc w s).romsOpen = s.romsOpen := rfl
@[simp] theorem setPc_redrawNeeded (w : Word) : (setPc w s).redrawNeeded = s.redrawNeeded := rfl
@[simp] theorem setPc_cia1 (w : Word) : (setPc w s).cia1 = s.cia1 := rfl
@[simp] theorem setPc_cia2 (w : Word) : (setPc w s).cia2 = s.cia2 := rfl
@[simp] theorem setPc_outA2 (w : Word) : (setPc w s).outA2 = s.outA2 := rfl
@[simp] theorem setPc_serial (w : Word) : (setPc w s).serial = s.serial := rfl
@[simp] theorem setPc_params (w : Word) : (setPc w s).params = s.params := rfl
@[simp] theorem setPc_history (w : Word) : (setPc w s).history = s.history := rfl
@[simp] theorem setPc_deliveries (w : Word) : (setPc w s).deliveries = s.deliveries := rfl
@[simp] theorem setPc_extTime (w : Word) : (setPc w s).extTime = s.extTime := rfl

/-! ## setP -/

@[simp] theorem setP_a (q : Flags) : (setP q s).a = s.a := rfl
@[simp] theorem setP_x (q : Flags) : (setP q s).x = s.x := rfl
@[simp] theorem setP_y (q : Flags) : (setP q s).y = s.y := rfl
@[simp] theorem setP_sp (q : Flags) : (setP q s).sp = s.sp := rfl
@[simp] theorem setP_pc (q : Flags) : (setP q s).pc = s.pc := rfl
@[simp] theorem setP_p (q : Flags) : (setP q s).p = q := rfl
@[simp] theorem setP_phase (q : Flags) : (setP q s).phase = s.phase := rfl
@[simp] theorem setP_irqPending (q : Flags) : (setP q s).irqPending = s.irqPending := rfl
@[simp] theorem setP_pausePending (q : Flags) : (setP q s).pausePending = s.pausePending := rfl
@[simp] theorem setP_halt (q : Flags) : (setP q s).halt = s.halt := rfl
@[simp] theorem setP_ram (q : Flags) : (setP q s).ram = s.ram := rfl
@[simp] theorem setP_kernalRom (q : Flags) : (setP q s).kernalRom = s.kernalRom := rfl
@[simp] theorem setP_basicRom (q : Flags) : (setP q s).basicRom = s.basicRom := rfl
@[simp] theorem setP_romsOpen (q : Flags) : (setP q s).romsOpen = s.romsOpen := rfl
@[simp] theorem setP_redrawNeeded (q : Flags) : (setP q s).redrawNeeded = s.redrawNeeded := rfl
@[simp] theorem setP_cia1 (q : Flags) : (setP q s).cia1 = s.cia1 := rfl
@[simp] theorem setP_cia2 (q : Flags) : (setP q s).cia2 = s.cia2 := rfl
@[simp] theorem setP_outA2 (q : Flags) : (setP q s).outA2 = s.outA2 := rfl
@[simp] theorem setP_serial (q : Flags) : (setP q s).serial = s.serial := rfl
@[simp] theorem setP_params (q : Flags) : (setP q s).params = s.params := rfl
@[simp] theorem setP_history (q : Flags) : (setP q s).history = s.history := rfl
@[simp] theorem setP_deliveries (q : Flags) : (setP q s).deliveries = s.deliveries := rfl
@[simp] theorem setP_extTime (q : Flags) : (setP q s).extTime = s.extTime := rfl

/-! ## pushed -/

@[simp] theorem pushed_a (v : Byte) : (pushed v s).a = s.a := rfl
@[simp] theorem pushed_x (v : Byte) : (pushed v s).x = s.x := rfl
@[simp] theorem pushed_y (v : Byte) : (pushed v s).y = s.y := rfl
@[simp] theorem pushed_sp (v : Byte) : (pushed v s).sp = s.sp - 1 := rfl
@[simp] theorem pushed_pc (v : Byte) : (pushed v s).pc = s.pc := rfl
@[simp] theorem pushed_p (v : Byte) : (pushed v s).p = s.p := rfl
@[simp] theorem pushed_phase (v : Byte) : (pushed v s).phase = s.phase := rfl
@[simp] theorem pushed_irqPending (v : Byte) : (pushed v s).irqPending = s.irqPending := rfl
@[simp] theorem pushed_pausePending (v : Byte) : (pushed v s).pausePending = s.pausePending := rfl
@[simp] theorem pushed_halt (v : Byte) : (pushed v s).halt = s.halt := rfl
@[simp] theorem pushed_ram (v : Byte) : (pushed v s).ram = s.ram.set ramUnlisted (stackAddr s.sp).toNat v := rfl
@[simp] theorem pushed_kernalRom (v : Byte) : (pushed v s).kernalRom = s.kernalRom := rfl
@[simp] theorem pushed_basicRom (v : Byte) : (pushed v s).basicRom = s.basicRom := rfl
@[simp] theorem pushed_romsOpen (v : Byte) : (pushed v s).romsOpen = s.romsOpen := rfl
@[simp] theorem pushed_redrawNeeded (v : Byte) : (pushed v s).redrawNeeded = s.redrawNeeded := rfl
@[simp] theorem pushed_cia1 (v : Byte) : (pushed v s).cia1 = s.cia1 := rfl
@[simp] theorem pushed_cia2 (v : Byte) : (pushed v s).cia2 = s.cia2 := rfl
@[simp] theorem pushed_outA2 (v : Byte) : (pushed v s).outA2 = s.outA2 := rfl
@[simp] theorem pushed_serial (v : Byte) : (pushed v s).serial = s.serial := rfl
@[simp] theorem pushed_params (v : Byte) : (pushed v s).params = s.params := rfl
@[simp] theorem pushed_history (v : Byte) : (pushed v s).history = s.history := rfl
@[simp] theorem pushed_deliveries (v : Byte) : (pushed v s).deliveries = s.deliveries := rfl
@[simp] theorem pushed_extTime (v : Byte) : (pushed v s).extTime = s.extTime := rfl

/-! ## withHistory -/

@[simp] theorem withHistory_a (h : List BusCycle) : (withHistory h s).a = s.a := rfl
@[simp] theorem withHistory_x (h : List BusCycle) : (withHistory h s).x = s.x := rfl
@[simp] theorem withHistory_y (h : List BusCycle) : (withHistory h s).y = s.y := rfl
@[simp] theorem withHistory_sp (h : List BusCycle) : (withHistory h s).sp = s.sp := rfl
@[simp] theorem withHistory_pc (h : List BusCycle) : (withHistory h s).pc = s.pc := rfl
@[simp] theorem withHistory_p (h : List BusCycle) : (withHistory h s).p = s.p := rfl
@[simp] theorem withHistory_phase (h : List BusCycle) : (withHistory h s).phase = s.phase := rfl
@[simp] theorem withHistory_irqPending (h : List BusCycle) : (withHistory h s).irqPending = s.irqPending := rfl
@[simp] theorem withHistory_pausePending (h : List BusCycle) : (withHistory h s).pausePending = s.pausePending := rfl
@[simp] theorem withHistory_halt (h : List BusCycle) : (withHistory h s).halt = s.halt := rfl
@[simp] theorem withHistory_ram (h : List BusCycle) : (withHistory h s).ram = s.ram := rfl
@[simp] theorem withHistory_kernalRom (h : List BusCycle) : (withHistory h s).kernalRom = s.kernalRom := rfl
@[simp] theorem withHistory_basicRom (h : List BusCycle) : (withHistory h s).basicRom = s.basicRom := rfl
@[simp] theorem withHistory_romsOpen (h : List BusCycle) : (withHistory h s).romsOpen = s.romsOpen := rfl
@[simp] theorem withHistory_redrawNeeded (h : List BusCycle) : (withHistory h s).redrawNeeded = s.redrawNeeded := rfl
@[simp] theorem withHistory_cia1 (h : List BusCycle) : (withHistory h s).cia1 = s.cia1 := rfl
@[simp] theorem withHistory_cia2 (h : List BusCycle) : (withHistory h s).cia2 = s.cia2 := rfl
@[simp] theorem withHistory_outA2 (h : List BusCycle) : (withHistory h s).outA2 = s.outA2 := rfl
@[simp] theorem withHistory_serial (h : List BusCycle) : (withHistory h s).serial = s.serial := rfl
@[simp] theorem withHistory_params (h : List BusCycle) : (withHistory h s).params = s.params := rfl
@[simp] theorem withHistory_history (h : List BusCycle) : (withHistory h s).history = h := rfl
@[simp] theorem withHistory_deliveries (h : List BusCycle) : (withHistory h s).deliveries = s.deliveries := rfl
@[simp] theorem withHistory_extTime (h : List BusCycle) : (withHistory h s).extTime = s.extTime := rfl

/-! ## atBoundary -/

@[simp] theorem atBoundary_a (w : Word) (h : List BusCycle) : (atBoundary w h s).a = s.a := rfl
@[simp] theorem atBoundary_x (w : Word) (h : List BusCycle) : (atBoundary w h s).x = s.x := rfl
@[simp] theorem atBoundary_y (w : Word) (h : List BusCycle) : (atBoundary w h s).y = s.y := rfl
@[simp] theorem atBoundary_sp (w : Word) (h : List BusCycle) : (atBoundary w h s).sp = s.sp := rfl
@[simp] theorem atBoundary_pc (w : Word) (h : List BusCycle) : (atBoundary w h s).pc = w := rfl
@[simp] theorem atBoundary_p (w : Word) (h : List BusCycle) : (atBoundary w h s).p = s.p := rfl
@[simp] theorem atBoundary_phase (w : Word) (h : List BusCycle) : (atBoundary w h s).phase = .fetchOpcode := rfl
@[simp] theorem atBoundary_irqPending (w : Word) (h : List BusCycle) : (atBoundary w h s).irqPending = s.irqPending :=
  rfl
@[simp] theorem atBoundary_pausePending (w : Word) (h : List BusCycle) : (atBoundary w h s).pausePending = s.pausePending :=
  rfl
@[simp] theorem atBoundary_halt (w : Word) (h : List BusCycle) : (atBoundary w h s).halt = s.halt := rfl
@[simp] theorem atBoundary_ram (w : Word) (h : List BusCycle) : (atBoundary w h s).ram = s.ram := rfl
@[simp] theorem atBoundary_kernalRom (w : Word) (h : List BusCycle) : (atBoundary w h s).kernalRom = s.kernalRom :=
  rfl
@[simp] theorem atBoundary_basicRom (w : Word) (h : List BusCycle) : (atBoundary w h s).basicRom = s.basicRom := rfl
@[simp] theorem atBoundary_romsOpen (w : Word) (h : List BusCycle) : (atBoundary w h s).romsOpen = s.romsOpen := rfl
@[simp] theorem atBoundary_redrawNeeded (w : Word) (h : List BusCycle) : (atBoundary w h s).redrawNeeded = s.redrawNeeded :=
  rfl
@[simp] theorem atBoundary_cia1 (w : Word) (h : List BusCycle) : (atBoundary w h s).cia1 = s.cia1 := rfl
@[simp] theorem atBoundary_cia2 (w : Word) (h : List BusCycle) : (atBoundary w h s).cia2 = s.cia2 := rfl
@[simp] theorem atBoundary_outA2 (w : Word) (h : List BusCycle) : (atBoundary w h s).outA2 = s.outA2 := rfl
@[simp] theorem atBoundary_serial (w : Word) (h : List BusCycle) : (atBoundary w h s).serial = s.serial := rfl
@[simp] theorem atBoundary_params (w : Word) (h : List BusCycle) : (atBoundary w h s).params = s.params := rfl
@[simp] theorem atBoundary_history (w : Word) (h : List BusCycle) : (atBoundary w h s).history = h := rfl
@[simp] theorem atBoundary_deliveries (w : Word) (h : List BusCycle) : (atBoundary w h s).deliveries = s.deliveries :=
  rfl
@[simp] theorem atBoundary_extTime (w : Word) (h : List BusCycle) : (atBoundary w h s).extTime = s.extTime := rfl

/-! ## bumpSp -/

@[simp] theorem bumpSp_a : (bumpSp s).a = s.a := rfl
@[simp] theorem bumpSp_x : (bumpSp s).x = s.x := rfl
@[simp] theorem bumpSp_y : (bumpSp s).y = s.y := rfl
@[simp] theorem bumpSp_sp : (bumpSp s).sp = s.sp + 1 := rfl
@[simp] theorem bumpSp_pc : (bumpSp s).pc = s.pc := rfl
@[simp] theorem bumpSp_p : (bumpSp s).p = s.p := rfl
@[simp] theorem bumpSp_phase : (bumpSp s).phase = s.phase := rfl
@[simp] theorem bumpSp_irqPending : (bumpSp s).irqPending = s.irqPending := rfl
@[simp] theorem bumpSp_pausePending : (bumpSp s).pausePending = s.pausePending := rfl
@[simp] theorem bumpSp_halt : (bumpSp s).halt = s.halt := rfl
@[simp] theorem bumpSp_ram : (bumpSp s).ram = s.ram := rfl
@[simp] theorem bumpSp_kernalRom : (bumpSp s).kernalRom = s.kernalRom := rfl
@[simp] theorem bumpSp_basicRom : (bumpSp s).basicRom = s.basicRom := rfl
@[simp] theorem bumpSp_romsOpen : (bumpSp s).romsOpen = s.romsOpen := rfl
@[simp] theorem bumpSp_redrawNeeded : (bumpSp s).redrawNeeded = s.redrawNeeded := rfl
@[simp] theorem bumpSp_cia1 : (bumpSp s).cia1 = s.cia1 := rfl
@[simp] theorem bumpSp_cia2 : (bumpSp s).cia2 = s.cia2 := rfl
@[simp] theorem bumpSp_outA2 : (bumpSp s).outA2 = s.outA2 := rfl
@[simp] theorem bumpSp_serial : (bumpSp s).serial = s.serial := rfl
@[simp] theorem bumpSp_params : (bumpSp s).params = s.params := rfl
@[simp] theorem bumpSp_history : (bumpSp s).history = s.history := rfl
@[simp] theorem bumpSp_deliveries : (bumpSp s).deliveries = s.deliveries := rfl
@[simp] theorem bumpSp_extTime : (bumpSp s).extTime = s.extTime := rfl

/-! ## deliver -/

@[simp] theorem deliver_a (g : Peripheral) (o : Nat) (v : Byte) : (deliver g o v s).a = s.a := rfl
@[simp] theorem deliver_x (g : Peripheral) (o : Nat) (v : Byte) : (deliver g o v s).x = s.x := rfl
@[simp] theorem deliver_y (g : Peripheral) (o : Nat) (v : Byte) : (deliver g o v s).y = s.y := rfl
@[simp] theorem deliver_sp (g : Peripheral) (o : Nat) (v : Byte) : (deliver g o v s).sp = s.sp := rfl
@[simp] theorem deliver_pc (g : Peripheral) (o : Nat) (v : Byte) : (deliver g o v s).pc = s.pc := rfl
@[simp] theorem deliver_p (g : Peripheral) (o : Nat) (v : Byte) : (deliver g o v s).p = s.p := rfl
@[simp] theorem deliver_phase (g : Peripheral) (o : Nat) (v : Byte) : (deliver g o v s).phase = s.phase := rfl
@[simp] theorem deliver_irqPending (g : Peripheral) (o : Nat) (v : Byte) : (deliver g o v s).irqPending = s.irqPending :=
  rfl
@[simp] theorem deliver_pausePending (g : Peripheral) (o : Nat) (v : Byte) : (deliver g o v s).pausePending = s.pausePending :=
  rfl
@[simp] theorem deliver_halt (g : Peripheral) (o : Nat) (v : Byte) : (deliver g o v s).halt = s.halt := rfl
@[simp] theorem deliver_ram (g : Peripheral) (o : Nat) (v : Byte) : (deliver g o v s).ram = s.ram := rfl
@[simp] theorem deliver_kernalRom (g : Peripheral) (o : Nat) (v : Byte) : (deliver g o v s).kernalRom = s.kernalRom :=
  rfl
@[simp] theorem deliver_basicRom (g : Peripheral) (o : Nat) (v : Byte) : (deliver g o v s).basicRom = s.basicRom :=
  rfl
@[simp] theorem deliver_romsOpen (g : Peripheral) (o : Nat) (v : Byte) : (deliver g o v s).romsOpen = s.romsOpen :=
  rfl
@[simp] theorem deliver_redrawNeeded (g : Peripheral) (o : Nat) (v : Byte) : (deliver g o v s).redrawNeeded = s.redrawNeeded :=
  rfl
@[simp] theorem deliver_cia1 (g : Peripheral) (o : Nat) (v : Byte) : (deliver g o v s).cia1 = s.cia1 := rfl
@[simp] theorem deliver_cia2 (g : Peripheral) (o : Nat) (v : Byte) : (deliver g o v s).cia2 = s.cia2 := rfl
@[simp] theorem deliver_outA2 (g : Peripheral) (o : Nat) (v : Byte) : (deliver g o v s).outA2 = s.outA2 := rfl
@[simp] theorem deliver_serial (g : Peripheral) (o : Nat) (v : Byte) : (deliver g o v s).serial = s.serial := rfl
@[simp] theorem deliver_params (g : Peripheral) (o : Nat) (v : Byte) : (deliver g o v s).params = s.params := rfl
@[simp] theorem deliver_history (g : Peripheral) (o : Nat) (v : Byte) : (deliver g o v s).history = s.history := rfl
@[simp] theorem deliver_deliveries (g : Peripheral) (o : Nat) (v : Byte) : (deliver g o v s).deliveries = s.deliveries ++ [{ target := g, offset := o, value := v, pc := s.pc }] :=
  rfl
@[simp] theorem deliver_extTime (g : Peripheral) (o : Nat) (v : Byte) : (deliver g o v s).extTime = s.extTime := rfl

/-! ## haltAt -/

@[simp] theorem haltAt_a (h : Halt) (opc : Byte) : (haltAt h opc s).a = s.a := rfl
@[simp] theorem haltAt_x (h : Halt) (opc : Byte) : (haltAt h opc s).x = s.x := rfl
@[simp] theorem haltAt_y (h : Halt) (opc : Byte) : (haltAt h opc s).y = s.y := rfl
@[simp] theorem haltAt_sp (h : Halt) (opc : Byte) : (haltAt h opc s).sp = s.sp := rfl
@[simp] theorem haltAt_pc (h : Halt) (opc : Byte) : (haltAt h opc s).pc = s.pc := rfl
@[simp] theorem haltAt_p (h : Halt) (opc : Byte) : (haltAt h opc s).p = s.p := rfl
@[simp] theorem haltAt_phase (h : Halt) (opc : Byte) : (haltAt h opc s).phase = s.phase := rfl
@[simp] theorem haltAt_irqPending (h : Halt) (opc : Byte) : (haltAt h opc s).irqPending = s.irqPending := rfl
@[simp] theorem haltAt_pausePending (h : Halt) (opc : Byte) : (haltAt h opc s).pausePending = s.pausePending := rfl
@[simp] theorem haltAt_halt (h : Halt) (opc : Byte) : (haltAt h opc s).halt = h := rfl
@[simp] theorem haltAt_ram (h : Halt) (opc : Byte) : (haltAt h opc s).ram = s.ram := rfl
@[simp] theorem haltAt_kernalRom (h : Halt) (opc : Byte) : (haltAt h opc s).kernalRom = s.kernalRom := rfl
@[simp] theorem haltAt_basicRom (h : Halt) (opc : Byte) : (haltAt h opc s).basicRom = s.basicRom := rfl
@[simp] theorem haltAt_romsOpen (h : Halt) (opc : Byte) : (haltAt h opc s).romsOpen = s.romsOpen := rfl
@[simp] theorem haltAt_redrawNeeded (h : Halt) (opc : Byte) : (haltAt h opc s).redrawNeeded = s.redrawNeeded := rfl
@[simp] theorem haltAt_cia1 (h : Halt) (opc : Byte) : (haltAt h opc s).cia1 = s.cia1 := rfl
@[simp] theorem haltAt_cia2 (h : Halt) (opc : Byte) : (haltAt h opc s).cia2 = s.cia2 := rfl
@[simp] theorem haltAt_outA2 (h : Halt) (opc : Byte) : (haltAt h opc s).outA2 = s.outA2 := rfl
@[simp] theorem haltAt_serial (h : Halt) (opc : Byte) : (haltAt h opc s).serial = s.serial := rfl
@[simp] theorem haltAt_params (h : Halt) (opc : Byte) : (haltAt h opc s).params = s.params := rfl
@[simp] theorem haltAt_history (h : Halt) (opc : Byte) : (haltAt h opc s).history = .read s.pc opc :: s.history := rfl
@[simp] theorem haltAt_deliveries (h : Halt) (opc : Byte) : (haltAt h opc s).deliveries = s.deliveries := rfl
@[simp] theorem haltAt_extTime (h : Halt) (opc : Byte) : (haltAt h opc s).extTime = s.extTime := rfl

/-! ## openInstr -/

@[simp] theorem openInstr_a (opc : Byte) (q : Seq) : (openInstr opc q s).a = s.a := rfl
@[simp] theorem openInstr_x (opc : Byte) (q : Seq) : (openInstr opc q s).x = s.x := rfl
@[simp] theorem openInstr_y (opc : Byte) (q : Seq) : (openInstr opc q s).y = s.y := rfl
@[simp] theorem openInstr_sp (opc : Byte) (q : Seq) : (openInstr opc q s).sp = s.sp := rfl
@[simp] theorem openInstr_pc (opc : Byte) (q : Seq) : (openInstr opc q s).pc = s.pc + 1 := rfl
@[simp] theorem openInstr_p (opc : Byte) (q : Seq) : (openInstr opc q s).p = s.p := rfl
@[simp] theorem openInstr_phase (opc : Byte) (q : Seq) : (openInstr opc q s).phase = .runMicroSteps { opc := opc, seq := q, t := 2, latches := {} } :=
  rfl
@[simp] theorem openInstr_irqPending (opc : Byte) (q : Seq) : (openInstr opc q s).irqPending = s.irqPending := rfl
@[simp] theorem openInstr_pausePending (opc : Byte) (q : Seq) : (openInstr opc q s).pausePending = s.pausePending :=
  rfl
@[simp] theorem openInstr_halt (opc : Byte) (q : Seq) : (openInstr opc q s).halt = s.halt := rfl
@[simp] theorem openInstr_ram (opc : Byte) (q : Seq) : (openInstr opc q s).ram = s.ram := rfl
@[simp] theorem openInstr_kernalRom (opc : Byte) (q : Seq) : (openInstr opc q s).kernalRom = s.kernalRom := rfl
@[simp] theorem openInstr_basicRom (opc : Byte) (q : Seq) : (openInstr opc q s).basicRom = s.basicRom := rfl
@[simp] theorem openInstr_romsOpen (opc : Byte) (q : Seq) : (openInstr opc q s).romsOpen = s.romsOpen := rfl
@[simp] theorem openInstr_redrawNeeded (opc : Byte) (q : Seq) : (openInstr opc q s).redrawNeeded = s.redrawNeeded :=
  rfl
@[simp] theorem openInstr_cia1 (opc : Byte) (q : Seq) : (openInstr opc q s).cia1 = s.cia1 := rfl
@[simp] theorem openInstr_cia2 (opc : Byte) (q : Seq) : (openInstr opc q s).cia2 = s.cia2 := rfl
@[simp] theorem openInstr_outA2 (opc : Byte) (q : Seq) : (openInstr opc q s).outA2 = s.outA2 := rfl
@[simp] theorem openInstr_serial (opc : Byte) (q : Seq) : (openInstr opc q s).serial = s.serial := rfl
@[simp] theorem openInstr_params (opc : Byte) (q : Seq) : (openInstr opc q s).params = s.params := rfl
@[simp] theorem openInstr_history (opc : Byte) (q : Seq) : (openInstr opc q s).history = .read s.pc opc :: s.history :=
  rfl
@[simp] theorem openInstr_deliveries (opc : Byte) (q : Seq) : (openInstr opc q s).deliveries = s.deliveries := rfl
@[simp] theorem openInstr_extTime (opc : Byte) (q : Seq) : (openInstr opc q s).extTime = s.extTime := rfl

end Sys2Proof.Machine
end

