-- ==== Sys2Proof/Laws/Bus.lean ====
section
/-! SUPPORT. What the two bus operations can do. -/

namespace Sys2Proof.Machine

/-! ## Outcomes -/

@[simp] theorem andThen_next {α β : Type} (v : α) (k : α → Result β) : andThen (.next v) k = k v := rfl

@[simp] theorem andThen_fault {α β : Type} (f : Fault) (k : α → Result β) : andThen (.fault f) k = .fault f := rfl

@[simp] theorem andThen_refused {α β : Type} (q : Refusal) (k : α → Result β) : andThen (.refused q) k = .refused q := rfl

theorem andThen_assoc {α β γ : Type} (r : Result α) (k : α → Result β) (l : β → Result γ) :
    andThen (andThen r k) l = andThen r fun v => andThen (k v) l := by
  cases r <;> rfl

theorem andThen_ite {α β : Type} (c : Prop) [Decidable c] (r r' : Result α) (k : α → Result β) :
    andThen (if c then r else r') k = if c then andThen r k else andThen r' k := by
  split <;> rfl

/-- A result that is a next state comes from a next value. -/
theorem andThen_eq_next {α β : Type} {r : Result α} {k : α → Result β} {t : β} :
    andThen r k = .next t ↔ ∃ v, r = .next v ∧ k v = .next t := by
  cases r <;> simp

/-! ## Where an access goes -/

@[simp] theorem hi_zext16 (b : Byte) : hi (zext16 b) = 0 := by revert b; decide

@[simp] theorem hi_stackAddr (b : Byte) : hi (stackAddr b) = 1 := by revert b; decide

theorem targetOf_low (s : State) (a : Word) (h : hi a ≤ 0x9F) : targetOf s a = .ram := by
  simp only [targetOf, decodeAddr, h, if_true]

@[simp] theorem targetOf_zext16 (s : State) (b : Byte) : targetOf s (zext16 b) = .ram :=
  targetOf_low s _ (by simp)

@[simp] theorem targetOf_stackAddr (s : State) (b : Byte) : targetOf s (stackAddr b) = .ram :=
  targetOf_low s _ (by simp)

/-- Only addresses of the BASIC range can reach the BASIC image. -/
theorem targetOf_ne_basic (s : State) (a : Word) (h : 0xC0 ≤ hi a) : targetOf s a ≠ .basic := by
  have h1 : ¬ hi a ≤ 0x9F := by bv_omega
  have h2 : ¬ hi a ≤ 0xBF := by bv_omega
  simp only [targetOf, decodeAddr, h1, h2, if_false]
  split
  · simp
  · split
    · split
      · unfold ioTarget; dsimp only; split
        · split <;> simp
        · split
          · simp
          · split
            · simp
            · split <;> simp
      · simp
    · split <;> simp

/-! ## Reads -/

@[simp] theorem busValue_zext16 (s : State) (b : Byte) : busValue s (zext16 b) = .next (ramRead s (zext16 b)) := by
  simp [busValue]

@[simp] theorem busValue_stackAddr (s : State) (b : Byte) :
    busValue s (stackAddr b) = .next (ramRead s (stackAddr b)) := by
  simp [busValue]

/-- A readable address has a value; an address that is not readable is refused. -/
theorem busValue_readable (s : State) (a : Word) :
    (readable s a = true ∧ ∃ v, busValue s a = .next v)
      ∨ (readable s a = false ∧ busValue s a = .refused .basicRomAbsent) := by
  cases ht : targetOf s a <;> cases hb : s.basicRom <;> simp [readable, busValue, ht, hb]

theorem busValue_of_readable {s : State} {a : Word} (h : readable s a = true) : ∃ v, busValue s a = .next v := by
  rcases busValue_readable s a with h' | h'
  · exact h'.2
  · simp [h] at h'

@[simp] theorem readable_zext16 (s : State) (b : Byte) : readable s (zext16 b) = true := by simp [readable]

@[simp] theorem readable_stackAddr (s : State) (b : Byte) : readable s (stackAddr b) = true := by simp [readable]

@[simp] theorem readable_vectorLow (s : State) : readable s vectorLow = true := by
  simp [readable, targetOf_ne_basic s vectorLow (by decide)]

@[simp] theorem readable_vectorHigh (s : State) : readable s vectorHigh = true := by
  simp [readable, targetOf_ne_basic s vectorHigh (by decide)]

/-! What a read sees does not depend on the registers, the phase or the latches of the core. -/

@[simp] theorem busValue_proceed (f : InFlight) (l : Latches) (s : State) (a : Word) :
    busValue (proceed f l s) a = busValue s a := rfl

@[simp] theorem busValue_finish (s : State) (a : Word) : busValue (finish s) a = busValue s a := rfl

@[simp] theorem ramRead_record (c : BusCycle) (s : State) (a : Word) : ramRead (record c s) a = ramRead s a := rfl

@[simp] theorem ramRead_proceed (f : InFlight) (l : Latches) (s : State) (a : Word) :
    ramRead (proceed f l s) a = ramRead s a := rfl

@[simp] theorem readable_record (c : BusCycle) (s : State) (a : Word) : readable (record c s) a = readable s a := rfl

@[simp] theorem readable_proceed (f : InFlight) (l : Latches) (s : State) (a : Word) :
    readable (proceed f l s) a = readable s a := rfl

/-- A read that answers changes only the record, and gives the value the bus has. -/
theorem busRead_eq_next {a : Word} {s : State} {r : Byte × State} :
    busRead a s = .next r ↔ busValue s a = .next r.1 ∧ r.2 = record (.read a r.1) s := by
  obtain ⟨v, t⟩ := r
  simp only [busRead, andThen_eq_next, Host.Outcome.next.injEq, Prod.mk.injEq]
  constructor
  · rintro ⟨w, h, rfl, rfl⟩; exact ⟨h, rfl⟩
  · rintro ⟨h, rfl⟩; exact ⟨v, h, rfl, rfl⟩

theorem busRead_of_busValue {a : Word} {s : State} {v : Byte} (h : busValue s a = .next v) :
    busRead a s = .next (v, record (.read a v) s) := by
  simp [busRead, h]

@[simp] theorem busRead_zext16 (s : State) (b : Byte) :
    busRead (zext16 b) s = .next (ramRead s (zext16 b), record (.read (zext16 b) (ramRead s (zext16 b))) s) :=
  busRead_of_busValue (busValue_zext16 s b)

@[simp] theorem busRead_stackAddr (s : State) (b : Byte) :
    busRead (stackAddr b) s = .next (ramRead s (stackAddr b), record (.read (stackAddr b) (ramRead s (stackAddr b))) s) :=
  busRead_of_busValue (busValue_stackAddr s b)

/-! ## Writes -/

theorem updateOutA2_frame (s : State) :
    updateOutA2 s = { s with outA2 := (updateOutA2 s).outA2, serial := (updateOutA2 s).serial } := by
  unfold updateOutA2; dsimp only; split <;> rfl

/-- A write changes RAM, the redraw flag, the port registers, the output byte, the serial bus and the deliveries, and
nothing else. -/
theorem busStore_frame (b : Word) (v : Byte) (s : State) :
    busStore b v s =
      { s with
        ram := (busStore b v s).ram
        redrawNeeded := (busStore b v s).redrawNeeded
        cia1 := (busStore b v s).cia1
        cia2 := (busStore b v s).cia2
        outA2 := (busStore b v s).outA2
        serial := (busStore b v s).serial
        deliveries := (busStore b v s).deliveries } := by
  unfold busStore
  cases targetOf s b with
  | cia n off =>
    dsimp only [ciaWrite]
    split
    · split
      · rw [updateOutA2_frame]; cases n <;> rfl
      · cases n <;> rfl
    · rfl
  | _ => rfl

@[simp] theorem busStore_a (b : Word) (v : Byte) (s : State) : (busStore b v s).a = s.a := by
  rw [busStore_frame]

@[simp] theorem busStore_x (b : Word) (v : Byte) (s : State) : (busStore b v s).x = s.x := by
  rw [busStore_frame]

@[simp] theorem busStore_y (b : Word) (v : Byte) (s : State) : (busStore b v s).y = s.y := by
  rw [busStore_frame]

@[simp] theorem busStore_sp (b : Word) (v : Byte) (s : State) : (busStore b v s).sp = s.sp := by
  rw [busStore_frame]

@[simp] theorem busStore_pc (b : Word) (v : Byte) (s : State) : (busStore b v s).pc = s.pc := by
  rw [busStore_frame]

@[simp] theorem busStore_p (b : Word) (v : Byte) (s : State) : (busStore b v s).p = s.p := by
  rw [busStore_frame]

@[simp] theorem busStore_phase (b : Word) (v : Byte) (s : State) : (busStore b v s).phase = s.phase := by
  rw [busStore_frame]

@[simp] theorem busStore_irqPending (b : Word) (v : Byte) (s : State) : (busStore b v s).irqPending = s.irqPending := by
  rw [busStore_frame]

@[simp] theorem busStore_pausePending (b : Word) (v : Byte) (s : State) : (busStore b v s).pausePending = s.pausePending := by
  rw [busStore_frame]

@[simp] theorem busStore_halt (b : Word) (v : Byte) (s : State) : (busStore b v s).halt = s.halt := by
  rw [busStore_frame]

@[simp] theorem busStore_kernalRom (b : Word) (v : Byte) (s : State) : (busStore b v s).kernalRom = s.kernalRom := by
  rw [busStore_frame]

@[simp] theorem busStore_basicRom (b : Word) (v : Byte) (s : State) : (busStore b v s).basicRom = s.basicRom := by
  rw [busStore_frame]

@[simp] theorem busStore_romsOpen (b : Word) (v : Byte) (s : State) : (busStore b v s).romsOpen = s.romsOpen := by
  rw [busStore_frame]

@[simp] theorem busStore_params (b : Word) (v : Byte) (s : State) : (busStore b v s).params = s.params := by
  rw [busStore_frame]

@[simp] theorem busStore_history (b : Word) (v : Byte) (s : State) : (busStore b v s).history = s.history := by
  rw [busStore_frame]

@[simp] theorem busStore_extTime (b : Word) (v : Byte) (s : State) : (busStore b v s).extTime = s.extTime := by
  rw [busStore_frame]

@[simp] theorem busWrite_a (b : Word) (v : Byte) (s : State) : (busWrite b v s).a = s.a := by
  simp [busWrite]

@[simp] theorem busWrite_x (b : Word) (v : Byte) (s : State) : (busWrite b v s).x = s.x := by
  simp [busWrite]

@[simp] theorem busWrite_y (b : Word) (v : Byte) (s : State) : (busWrite b v s).y = s.y := by
  simp [busWrite]

@[simp] theorem busWrite_sp (b : Word) (v : Byte) (s : State) : (busWrite b v s).sp = s.sp := by
  simp [busWrite]

@[simp] theorem busWrite_pc (b : Word) (v : Byte) (s : State) : (busWrite b v s).pc = s.pc := by
  simp [busWrite]

@[simp] theorem busWrite_p (b : Word) (v : Byte) (s : State) : (busWrite b v s).p = s.p := by
  simp [busWrite]

@[simp] theorem busWrite_phase (b : Word) (v : Byte) (s : State) : (busWrite b v s).phase = s.phase := by
  simp [busWrite]

@[simp] theorem busWrite_irqPending (b : Word) (v : Byte) (s : State) : (busWrite b v s).irqPending = s.irqPending := by
  simp [busWrite]

@[simp] theorem busWrite_pausePending (b : Word) (v : Byte) (s : State) : (busWrite b v s).pausePending = s.pausePending := by
  simp [busWrite]

@[simp] theorem busWrite_halt (b : Word) (v : Byte) (s : State) : (busWrite b v s).halt = s.halt := by
  simp [busWrite]

@[simp] theorem busWrite_kernalRom (b : Word) (v : Byte) (s : State) : (busWrite b v s).kernalRom = s.kernalRom := by
  simp [busWrite]

@[simp] theorem busWrite_basicRom (b : Word) (v : Byte) (s : State) : (busWrite b v s).basicRom = s.basicRom := by
  simp [busWrite]

@[simp] theorem busWrite_romsOpen (b : Word) (v : Byte) (s : State) : (busWrite b v s).romsOpen = s.romsOpen := by
  simp [busWrite]

@[simp] theorem busWrite_params (b : Word) (v : Byte) (s : State) : (busWrite b v s).params = s.params := by
  simp [busWrite]

@[simp] theorem busWrite_history (b : Word) (v : Byte) (s : State) : (busWrite b v s).history = .write b v s.pc :: s.history := by
  simp [busWrite]

@[simp] theorem busWrite_extTime (b : Word) (v : Byte) (s : State) : (busWrite b v s).extTime = s.extTime := by
  simp [busWrite]

/-- What a write changes does not depend on the registers, the phase or the record, but for PC. -/
theorem busStore_core (b : Word) (v : Byte) (s : State) (a x y sp : Byte) (p : Flags) (ph : Phase)
    (h : List BusCycle) :
    busStore b v { s with a := a, x := x, y := y, sp := sp, p := p, phase := ph, history := h }
      = { busStore b v s with a := a, x := x, y := y, sp := sp, p := p, phase := ph, history := h } := by
  have ht : targetOf { s with a := a, x := x, y := y, sp := sp, p := p, phase := ph, history := h } b = targetOf s b := rfl
  unfold busStore
  rw [ht]
  cases targetOf s b with
  | cia n off =>
    dsimp only [ciaWrite]
    split
    · cases n
      · rfl
      · dsimp only [setCiaPorts, ciaPorts]
        split
        · unfold updateOutA2; dsimp only; split <;> rfl
        · rfl
    · rfl
  | _ => rfl

/-- A write to RAM stores the byte and may set the redraw flag. -/
theorem busStore_ram (b : Word) (v : Byte) (s : State) (h : targetOf s b = .ram) :
    busStore b v s = { ramWrite b v s with redrawNeeded := s.redrawNeeded || inVideoRam b } := by
  simp only [busStore, h]

theorem inVideoRam_stackAddr (b : Byte) : inVideoRam (stackAddr b) = false := by revert b; decide

/-- A push stores into RAM and moves SP. -/
theorem pushByte_eq (v : Byte) (s : State) :
    pushByte v s =
      { record (.write (stackAddr s.sp) v s.pc) (ramWrite (stackAddr s.sp) v s) with sp := s.sp - 1 } := by
  simp only [pushByte, busWrite, busStore_ram _ v s (targetOf_stackAddr s s.sp), inVideoRam_stackAddr, Bool.or_false]
  rfl

/-- The RAM byte at an address after a write: the new byte where RAM is mapped, the old byte everywhere else. -/
theorem ramRead_busStore (b : Word) (v : Byte) (s : State) (a : Word) :
    ramRead (busStore b v s) a = if a = b ∧ targetOf s b = .ram then v else ramRead s a := by
  by_cases h : targetOf s b = .ram
  · rw [busStore_ram b v s h]
    show ramRead (ramWrite b v s) a = _
    simp [ramRead_ramWrite, h]
  · have : (busStore b v s).ram = s.ram := by
      unfold busStore
      cases ht : targetOf s b with
      | ram => exact absurd ht h
      | cia n off =>
        dsimp only [ciaWrite]; split
        · split
          · unfold updateOutA2; dsimp only; split <;> (cases n <;> rfl)
          · cases n <;> rfl
        · rfl
      | _ => rfl
    simp [ramRead, this, h]

end Sys2Proof.Machine
end

