-- ==== Sys2Proof/Laws/Sequence.lean ====
section
/-! SUPPORT. What the micro-step sequences do, in closed form: one lemma per sequence. -/

namespace Sys2Proof.Machine

/-! ## Bytes and words -/

@[simp] theorem hi_word (h l : Byte) : hi (word h l) = h := by
  unfold hi word; ext i hi
  simp only [BitVec.getElem_extractLsb', BitVec.getLsbD_append]
  simp [BitVec.getLsbD_eq_getElem hi]

@[simp] theorem lo_word (h l : Byte) : lo (word h l) = l := by
  unfold lo word; ext i hi
  simp only [BitVec.getElem_extractLsb', BitVec.getLsbD_append]
  simp [hi]

@[simp] theorem word_hi_lo (w : Word) : word (hi w) (lo w) = w := by
  unfold hi lo word; ext i hi
  simp only [BitVec.getElem_append, BitVec.getElem_extractLsb']
  split
  · simp [BitVec.getLsbD_eq_getElem hi]
  · rw [show 8 + (i - 8) = i by omega, BitVec.getLsbD_eq_getElem hi]

theorem toNat_word (h l : Byte) : (word h l).toNat = h.toNat * 256 + l.toNat := by
  simp only [word, BitVec.toNat_append]
  rw [← Nat.shiftLeft_add_eq_or_of_lt l.isLt, Nat.shiftLeft_eq]

/-! ## A state within an instruction -/

/-- An instruction in progress: the registers of `s` with a PC, a record and a phase of its own. -/
def mid (s : State) (pc : Word) (h : List BusCycle) (f : InFlight) : State :=
  { s with pc := pc, history := h, phase := .runMicroSteps f }

section
variable (s : State) (pc : Word) (h : List BusCycle) (f : InFlight)

theorem openInstr_eq_mid (opc : Byte) (q : Seq) :
    openInstr opc q s = mid s (s.pc + 1) (.read s.pc opc :: s.history) ⟨opc, q, 2, {}⟩ := rfl

@[simp] theorem record_mid (c : BusCycle) : record c (mid s pc h f) = mid s pc (c :: h) f := rfl

@[simp] theorem proceed_mid (g : InFlight) (l : Latches) :
    proceed g l (mid s pc h f) = mid s pc h { g with t := g.t + 1, latches := l } := rfl

@[simp] theorem setPc_mid (w : Word) : setPc w (mid s pc h f) = mid s w h f := rfl

@[simp] theorem setP_mid (p : Flags) : setP p (mid s pc h f) = mid (setP p s) pc h f := rfl

@[simp] theorem bumpSp_mid : bumpSp (mid s pc h f) = mid (bumpSp s) pc h f := rfl

@[simp] theorem finish_mid : finish (mid s pc h f) = atBoundary pc h s := rfl

@[simp] theorem mid_a : (mid s pc h f).a = s.a := rfl
@[simp] theorem mid_x : (mid s pc h f).x = s.x := rfl
@[simp] theorem mid_y : (mid s pc h f).y = s.y := rfl
@[simp] theorem mid_sp : (mid s pc h f).sp = s.sp := rfl
@[simp] theorem mid_pc : (mid s pc h f).pc = pc := rfl
@[simp] theorem mid_p : (mid s pc h f).p = s.p := rfl
@[simp] theorem mid_history : (mid s pc h f).history = h := rfl
@[simp] theorem mid_phase : (mid s pc h f).phase = .runMicroSteps f := rfl

@[simp] theorem ramRead_mid (a : Word) : ramRead (mid s pc h f) a = ramRead s a := rfl

@[simp] theorem ramRead_withHistory (a : Word) : ramRead (withHistory h s) a = ramRead s a := rfl

@[simp] theorem readable_mid (a : Word) : readable (mid s pc h f) a = readable s a := rfl

@[simp] theorem readable_withHistory (a : Word) : readable (withHistory h s) a = readable s a := rfl

@[simp] theorem busValue_mid (a : Word) : busValue (mid s pc h f) a = busValue (withHistory h s) a := rfl

@[simp] theorem withHistory_withHistory (g : List BusCycle) : withHistory g (withHistory h s) = withHistory g s := rfl

@[simp] theorem mid_mid (pc' : Word) (h' : List BusCycle) (f' : InFlight) :
    mid (mid s pc h f) pc' h' f' = mid s pc' h' f' := rfl

theorem busRead_mid (a : Word) :
    busRead a (mid s pc h f)
      = andThen (busValue (withHistory h s) a) fun v => .next (v, mid s pc (.read a v :: h) f) := rfl

@[simp] theorem fetchSecond_mid (b2 b3 : Byte) :
    fetchOperand (.given b2 b3) .second (mid s pc h f) = .next (b2, mid s (pc + 1) (.read pc b2 :: h) f) := rfl

@[simp] theorem fetchThird_mid (b2 b3 : Byte) :
    fetchOperand (.given b2 b3) .third (mid s pc h f) = .next (b3, mid s (pc + 1) (.read pc b3 :: h) f) := rfl

@[simp] theorem runCycles_mid (src : Source) (op : Operation) (n : Nat) :
    runCycles src op (n + 1) (mid s pc h f) = andThen (microCycle src op f (mid s pc h f)) (runCycles src op n) := rfl

theorem runCycles_boundary (src : Source) (op : Operation) (n : Nat) {s : State} (hs : s.phase = .fetchOpcode) :
    runCycles src op n s = .next s := by
  cases n with
  | zero => rfl
  | succ n => simp only [runCycles, hs]

@[simp] theorem runCycles_finish (src : Source) (op : Operation) (n : Nat) :
    runCycles src op n (finish s) = .next (finish s) := runCycles_boundary src op n rfl

@[simp] theorem runCycles_atBoundary (src : Source) (op : Operation) (n : Nat) :
    runCycles src op n (atBoundary pc h s) = .next (atBoundary pc h s) := runCycles_boundary src op n rfl

end

/-- A value under some record shows that the address is readable. -/
theorem readable_of_busValue {s : State} {a : Word} {h : List BusCycle} {v : Byte}
    (hv : busValue (withHistory h s) a = .next v) : readable s a = true := by
  rcases busValue_readable (withHistory h s) a with h' | h'
  · exact h'.1
  · rw [h'.2] at hv; simp at hv

/-- A readable address has a value under every record. -/
theorem busValue_withHistory {s : State} {a : Word} (hr : readable s a = true) (h : List BusCycle) :
    ∃ v, busValue (withHistory h s) a = .next v := busValue_of_readable (s := withHistory h s) hr

/-! ## The address cycles -/

/-- The operand forms that have an effective address. -/
def hasAddress (m : Operand) : Bool :=
  match m with
  | .acc | .imm _ => false
  | _ => true

/-- The source that delivers an operand form's bytes. -/
def operandSource (m : Operand) : Source := .given (m.bytes.getD 0 0) (m.bytes.getD 1 0)

/-- One cycle of a sequence that reads an address and then accesses it: the micro-step of its address cycles. -/
theorem microCycle_address {src : Source} {op : Operation} {m : Mode} {f : InFlight} {s : State}
    (hop : (f.seq = .read m ∧ m ≠ .imm ∧ ∃ g, op = .read g) ∨ (f.seq = .write m ∧ ∃ g, op = .write g)
      ∨ (f.seq = .rmw m ∧ ∃ g, op = .rmw g))
    (ht : f.t < 2 + addressCycles m) :
    microCycle src op f s = andThen (addressCycle src m f.t f.latches s) fun r => .next (proceed f r.1 r.2) := by
  rcases hop with ⟨h1, h2, g, rfl⟩ | ⟨h1, g, rfl⟩ | ⟨h1, g, rfl⟩
  · cases m <;> first | exact absurd rfl h2 | simp only [microCycle, h1, accessCycle, ht, if_true]
  · simp only [microCycle, h1, accessCycle, ht, if_true]
  · simp only [microCycle, h1, accessCycle, ht, if_true]

@[simp] theorem busValue_withHistory_zext16 (s : State) (h : List BusCycle) (b : Byte) :
    busValue (withHistory h s) (zext16 b) = .next (ramRead s (zext16 b)) := busValue_zext16 _ _

@[simp] theorem busValue_withHistory_stackAddr (s : State) (h : List BusCycle) (b : Byte) :
    busValue (withHistory h s) (stackAddr b) = .next (ramRead s (stackAddr b)) := busValue_stackAddr _ _

/-- The latches after the address cycles (R139 to R144). -/
def addressLatches (m : Operand) (s : State) : Latches :=
  let zp (b : Byte) : Byte := ramRead s (zext16 b)
  match m with
  | .acc | .imm _ => {}
  | .zp b => { ea := zext16 b }
  | .zpx b => { bal := b, ea := zpIndexed b s.x }
  | .zpy b => { bal := b, ea := zpIndexed b s.y }
  | .abs w => { bal := lo w, bah := hi w, ea := w }
  | .abx w => latchIndexed { bal := lo w } (hi w) s.x
  | .aby w => latchIndexed { bal := lo w } (hi w) s.y
  | .izx b =>
    { ptr := b + s.x, bal := zp (b + s.x), bah := zp (b + s.x + 1), ea := word (zp (b + s.x + 1)) (zp (b + s.x)) }
  | .izy b => latchIndexed { ptr := b, bal := zp b } (zp (b + 1)) s.y

@[simp] theorem addressLatches_ea {m : Operand} (hm : hasAddress m = true) (s : State) :
    (addressLatches m s).ea = effectiveAddress m s := by
  cases m <;> first | (simp [hasAddress] at hm; done) | rfl | simp [addressLatches, latchIndexed, effectiveAddress, zpPointer]

@[simp] theorem addressLatches_eau {m : Operand} (hm : isIndexed m = true) (s : State) :
    (addressLatches m s).eau = uncorrectedAddress m s := by
  cases m <;> first | (simp [isIndexed] at hm; done) | simp [addressLatches, latchIndexed, uncorrectedAddress, zpPointer]

@[simp] theorem addressLatches_fix {m : Operand} (hm : isIndexed m = true) (s : State) :
    (addressLatches m s).fix = crossesPage m s := by
  cases m <;> first | (simp [isIndexed] at hm; done) | simp [addressLatches, latchIndexed, crossesPage, zpPointer]

/-- The address cycles of an operand form, from T2 on: they succeed, they change nothing but the record and PC, and
they leave the effective address, and for an indexed form the uncorrected one and the page-cross test, in the
latches. -/
theorem runCycles_address {op : Operation} {m : Operand} (hm : hasAddress m = true) {opc : Byte} {q : Seq}
    (hop : (q = .read m.mode ∧ m.mode ≠ .imm ∧ ∃ g, op = .read g) ∨ (q = .write m.mode ∧ ∃ g, op = .write g)
      ∨ (q = .rmw m.mode ∧ ∃ g, op = .rmw g)) (n : Nat) (s : State) :
    runCycles (operandSource m) op (n + addressCycles m.mode) (openInstr opc q s)
      = runCycles (operandSource m) op n
          (mid s (nextPc m s) (addressRecord opc m s) ⟨opc, q, 2 + addressCycles m.mode, addressLatches m s⟩) := by
  have step : ∀ (k t : Nat) (l : Latches) (pc : Word) (h : List BusCycle), t < 2 + addressCycles m.mode →
      runCycles (operandSource m) op (k + 1) (mid s pc h ⟨opc, q, t, l⟩)
        = andThen (andThen (addressCycle (operandSource m) m.mode t l (mid s pc h ⟨opc, q, t, l⟩)) fun r =>
            .next (proceed ⟨opc, q, t, l⟩ r.1 r.2)) (runCycles (operandSource m) op k) := by
    intro k t l pc h ht
    rw [runCycles_mid, microCycle_address hop ht]
  have one : s.pc + 1 + 1 = s.pc + 2 := by bv_omega
  have two : s.pc + 2 + 1 = s.pc + BitVec.ofNat 16 3 := by bv_omega
  rw [openInstr_eq_mid]
  cases m with
  | acc | imm _ => simp [hasAddress] at hm
  | _ =>
    simp only [Operand.mode, addressCycles, operandSource, Operand.bytes, List.getD_cons_zero, List.getD_cons_succ,
      nextPc, addressRecord, addressReads, Mode.length] at step ⊢
    repeat
      rw [step _ _ _ _ _ (by omega)]
      simp only [addressCycle, fetchSecond_mid, fetchThird_mid, dummyRead, busRead_mid, busValue_withHistory_zext16,
        andThen_next, proceed_mid, mid_x, mid_y, word_hi_lo, one, two]
    rfl

/-! ## Reads -/

theorem indexedMode_eq (m : Operand) : indexedMode m.mode = isIndexed m := by cases m <;> rfl

theorem crossesPage_isIndexed {m : Operand} {s : State} (h : crossesPage m s = true) : isIndexed m = true := by
  cases m <;> simp_all [crossesPage, isIndexed]

theorem mode_imm {m : Operand} : m.mode = .imm ↔ ∃ b, m = .imm b := by
  cases m <;> simp [Operand.mode]

theorem hasAddress_ne_imm {m : Operand} (hm : hasAddress m = true) : m.mode ≠ .imm := by
  cases m <;> simp_all [hasAddress, Operand.mode]

/-- Where no page is crossed the uncorrected address is the effective one (R142). -/
theorem uncorrected_of_noCross {m : Operand} {s : State} (h : crossesPage m s = false) :
    uncorrectedAddress m s = effectiveAddress m s := by
  have key : ∀ bah bal idx : Byte, pageCross bal idx = false → uncorrected bah bal idx = indexed bah bal idx := by
    intro bah bal idx h
    simp only [pageCross, decide_eq_false_iff_not] at h
    apply BitVec.eq_of_toNat_eq
    simp only [uncorrected, indexed, zext16, BitVec.toNat_add, BitVec.toNat_setWidth, toNat_word]
    have := bah.isLt; have := bal.isLt; have := idx.isLt
    omega
  cases m <;> simp_all [uncorrectedAddress, effectiveAddress, crossesPage]

/-- The micro-steps after the address cycles are those of the access. -/
theorem microCycle_read {src : Source} {g : Byte → State → State} {m : Operand} (hm : hasAddress m = true) (opc : Byte)
    (k : Nat) (l : Latches) (s : State) :
    microCycle src (.read g) ⟨opc, .read m.mode, 2 + addressCycles m.mode + k, l⟩ s
      = readAccess g m.mode k ⟨opc, .read m.mode, 2 + addressCycles m.mode + k, l⟩ s := by
  cases m <;> first | (simp [hasAddress] at hm; done) | simp [microCycle, Operand.mode, accessCycle, addressCycles]

theorem microCycle_write {src : Source} {g : State → Byte} (m : Mode) (opc : Byte) (k : Nat) (l : Latches) (s : State) :
    microCycle src (.write g) ⟨opc, .write m, 2 + addressCycles m + k, l⟩ s
      = writeAccess g m k ⟨opc, .write m, 2 + addressCycles m + k, l⟩ s := by
  simp [microCycle, accessCycle]

theorem microCycle_rmw {src : Source} {g : Byte → State → Byte × State} (m : Mode) (opc : Byte) (k : Nat) (l : Latches)
    (s : State) :
    microCycle src (.rmw g) ⟨opc, .rmw m, 2 + addressCycles m + k, l⟩ s
      = rmwAccess g m k ⟨opc, .rmw m, 2 + addressCycles m + k, l⟩ s := by
  simp [microCycle, accessCycle]

/-- The final read of a read instruction. -/
theorem finalRead_mid {g : Byte → State → State} {s : State} {pc a : Word} {h : List BusCycle} {f : InFlight} {v : Byte}
    (hv : busValue (withHistory h s) a = .next v) :
    finalRead g a (mid s pc h f) = .next (finish (g v (mid s pc (.read a v :: h) f))) := by
  simp only [finalRead, busRead_mid, hv, andThen_next]

theorem readsOperand_intro {m : Operand} (hm : hasAddress m = true) {opc v : Byte} {s : State} {g h : List BusCycle}
    (hu : UncorrectedRead s m (crossesPage m s) (addressRecord opc m s) g)
    (hv : ReadsAt s (effectiveAddress m s) v g h) : ReadsOperand opc m s v h := by
  cases m <;> first | (simp [hasAddress] at hm; done) | exact ⟨g, hu, hv⟩

theorem operandReadable_iff {m : Operand} (hm : hasAddress m = true) {s : State} :
    operandReadable m s = true ↔ readable s (uncorrectedAddress m s) = true ∧ readable s (effectiveAddress m s) = true := by
  cases m <;> first | (simp [hasAddress] at hm; done) | simp [operandReadable]

/-- A read instruction with an effective address, after its address cycles. -/
theorem runCycles_read {g : Byte → State → State} {m : Operand} (hm : hasAddress m = true) {opc : Byte} {s : State}
    (hr : operandReadable m s = true) (n : Nat) (src : Source) (pc : Word) :
    ∃ v h f, ReadsOperand opc m s v h
      ∧ runCycles src (.read g) (n + 2)
          (mid s pc (addressRecord opc m s) ⟨opc, .read m.mode, 2 + addressCycles m.mode, addressLatches m s⟩)
        = .next (finish (g v (mid s pc h f))) := by
  obtain ⟨hu, hr⟩ := (operandReadable_iff hm).1 hr
  rw [runCycles_mid, ← Nat.add_zero (2 + addressCycles m.mode), microCycle_read hm]
  by_cases hc : crossesPage m s = true
  · have hi := crossesPage_isIndexed hc
    obtain ⟨u, hu⟩ := busValue_withHistory hu (addressRecord opc m s)
    obtain ⟨v, hv⟩ := busValue_withHistory hr (.read (uncorrectedAddress m s) u :: addressRecord opc m s)
    refine ⟨v, _, ⟨opc, .read m.mode, 2 + addressCycles m.mode + 0 + 1, { addressLatches m s with dat := u }⟩,
      readsOperand_intro hm (g := _ :: _) (by rw [hc]; exact ⟨u, hu, rfl⟩) ⟨hv, rfl⟩, ?_⟩
    simp only [readAccess, indexedMode_eq, hi, addressLatches_fix hi, addressLatches_eau hi, hc, if_true, busRead_mid,
      hu, andThen_next, proceed_mid, Nat.add_zero, runCycles_mid]
    rw [microCycle_read hm]
    simp only [readAccess, indexedMode_eq, hi, addressLatches_ea hm]
    rw [finalRead_mid hv]
    simp only [andThen_next, runCycles_finish]
  · simp only [Bool.not_eq_true] at hc
    obtain ⟨v, hv⟩ := busValue_withHistory hr (addressRecord opc m s)
    refine ⟨v, _, ⟨opc, .read m.mode, 2 + addressCycles m.mode + 0, addressLatches m s⟩,
      readsOperand_intro hm (g := addressRecord opc m s) (by rw [hc]; rfl) ⟨hv, rfl⟩, ?_⟩
    cases hi : isIndexed m
    · simp only [readAccess, indexedMode_eq, hi, addressLatches_ea hm]
      rw [finalRead_mid hv]
      simp only [andThen_next, runCycles_finish]
    · simp only [readAccess, indexedMode_eq, hi, addressLatches_fix hi, addressLatches_eau hi, hc,
        uncorrected_of_noCross hc, Bool.false_eq_true, if_false]
      rw [finalRead_mid hv]
      simp only [andThen_next, runCycles_finish]

/-- A read instruction that goes on had a readable operand. -/
theorem runCycles_read_readable {g : Byte → State → State} {m : Operand} (hm : hasAddress m = true) {opc : Byte}
    {s t : State} {n : Nat} {src : Source} {pc : Word}
    (h : runCycles src (.read g) (n + 2)
      (mid s pc (addressRecord opc m s) ⟨opc, .read m.mode, 2 + addressCycles m.mode, addressLatches m s⟩) = .next t) :
    operandReadable m s = true := by
  rw [operandReadable_iff hm]
  rw [runCycles_mid, ← Nat.add_zero (2 + addressCycles m.mode), microCycle_read hm] at h
  by_cases hc : crossesPage m s = true
  · have hi := crossesPage_isIndexed hc
    simp only [readAccess, indexedMode_eq, hi, addressLatches_fix hi, addressLatches_eau hi, hc, if_true, busRead_mid,
      andThen_assoc, andThen_eq_next] at h
    obtain ⟨u, hu, x, hx, y, hy, h⟩ := h
    cases hx; cases hy
    refine ⟨readable_of_busValue hu, ?_⟩
    simp only [proceed_mid, Nat.add_zero] at h
    rw [runCycles_mid, microCycle_read hm] at h
    simp only [readAccess, indexedMode_eq, hi, addressLatches_ea hm, finalRead, busRead_mid, andThen_assoc,
      andThen_eq_next] at h
    obtain ⟨v, hv, -⟩ := h
    exact readable_of_busValue hv
  · simp only [Bool.not_eq_true] at hc
    rw [uncorrected_of_noCross hc, and_self]
    cases hi : isIndexed m
    · simp only [readAccess, indexedMode_eq, hi, addressLatches_ea hm, finalRead, busRead_mid, andThen_assoc,
        andThen_eq_next] at h
      obtain ⟨v, hv, -⟩ := h
      exact readable_of_busValue hv
    · simp only [readAccess, indexedMode_eq, hi, addressLatches_fix hi, addressLatches_eau hi, hc,
        uncorrected_of_noCross hc, Bool.false_eq_true, if_false, finalRead, busRead_mid, andThen_assoc,
        andThen_eq_next] at h
      obtain ⟨v, hv, -⟩ := h
      exact readable_of_busValue hv

/-! ## Writes -/

theorem busStore_mid (a : Word) (v : Byte) (s : State) (pc : Word) (h : List BusCycle) (f : InFlight) :
    busStore a v (mid s pc h f) = mid (busStore a v (setPc pc s)) pc h f :=
  (busStore_core a v (setPc pc s) s.a s.x s.y s.sp s.p (.runMicroSteps f) h).trans
    (by rw [busStore_frame a v (setPc pc s)]; rfl)

theorem busWrite_mid (a : Word) (v : Byte) (s : State) (pc : Word) (h : List BusCycle) (f : InFlight) :
    busWrite a v (mid s pc h f) = mid (busStore a v (setPc pc s)) pc (.write a v pc :: h) f := by
  rw [busWrite, busStore_mid, record_mid, mid_pc]

theorem storeReadable_indexed {m : Operand} (hi : isIndexed m = true) {s : State} (h : storeReadable m s = true) :
    readable s (uncorrectedAddress m s) = true := by
  simpa [storeReadable, hi] using h

/-- A store, after its address cycles. -/
theorem runCycles_write {g : State → Byte} {m : Operand} (hm : hasAddress m = true) {opc : Byte} {s : State}
    (hr : storeReadable m s = true) (n : Nat) (src : Source) (pc : Word) :
    ∃ h f, UncorrectedRead s m (isIndexed m) (addressRecord opc m s) h
      ∧ runCycles src (.write g) (n + 2)
          (mid s pc (addressRecord opc m s) ⟨opc, .write m.mode, 2 + addressCycles m.mode, addressLatches m s⟩)
        = .next (finish (busWrite (effectiveAddress m s) (g (mid s pc h f)) (mid s pc h f))) := by
  rw [runCycles_mid, ← Nat.add_zero (2 + addressCycles m.mode), microCycle_write]
  cases hi : isIndexed m
  · refine ⟨addressRecord opc m s, ⟨opc, .write m.mode, 2 + addressCycles m.mode + 0, addressLatches m s⟩, rfl, ?_⟩
    simp only [writeAccess, indexedMode_eq, hi, addressLatches_ea hm, andThen_next, runCycles_finish]
  · obtain ⟨u, hu⟩ := busValue_withHistory (storeReadable_indexed hi hr) (addressRecord opc m s)
    refine ⟨_, ⟨opc, .write m.mode, 2 + addressCycles m.mode + 0 + 1, addressLatches m s⟩, ⟨u, hu, rfl⟩, ?_⟩
    simp only [writeAccess, indexedMode_eq, hi, addressLatches_eau hi, dummyRead, busRead_mid, hu, andThen_next,
      proceed_mid, Nat.add_zero, runCycles_mid]
    rw [microCycle_write]
    simp only [writeAccess, indexedMode_eq, hi, addressLatches_ea hm, andThen_next, runCycles_finish]

/-- A store that goes on had a readable uncorrected address. -/
theorem runCycles_write_readable {g : State → Byte} {m : Operand} {opc : Byte} {s t : State} {n : Nat} {src : Source}
    {pc : Word}
    (h : runCycles src (.write g) (n + 2)
      (mid s pc (addressRecord opc m s) ⟨opc, .write m.mode, 2 + addressCycles m.mode, addressLatches m s⟩) = .next t) :
    storeReadable m s = true := by
  rw [runCycles_mid, ← Nat.add_zero (2 + addressCycles m.mode), microCycle_write] at h
  cases hi : isIndexed m
  · simp [storeReadable, hi]
  · simp only [writeAccess, indexedMode_eq, hi, addressLatches_eau hi, dummyRead, busRead_mid, andThen_assoc,
      andThen_eq_next] at h
    obtain ⟨u, hu, -⟩ := h
    simp [storeReadable, hi, readable_of_busValue hu]

/-- The state in which a read-modify-write instruction computes: the unmodified byte has been written back. -/
def afterDummyWrite (m : Operand) (v : Byte) (pc : Word) (s : State) : State :=
  busStore (effectiveAddress m s) v (setPc pc s)

/-- A read-modify-write instruction, after its address cycles. -/
theorem runCycles_rmw {g : Byte → State → Byte × State} {m : Operand} (hm : hasAddress m = true) {opc : Byte}
    {s : State} (hr : operandReadable m s = true) (n : Nat) (src : Source) (pc : Word) :
    ∃ v h0 h f, UncorrectedRead s m (isIndexed m) (addressRecord opc m s) h0
      ∧ ReadsAt s (effectiveAddress m s) v h0 h
      ∧ runCycles src (.rmw g) (n + (3 + (isIndexed m).toNat))
          (mid s pc (addressRecord opc m s) ⟨opc, .rmw m.mode, 2 + addressCycles m.mode, addressLatches m s⟩)
        = .next (finish
            (let r := g v (mid (afterDummyWrite m v pc s) pc (.write (effectiveAddress m s) v pc :: h) f)
             busWrite (effectiveAddress m s) r.1 r.2)) := by
  obtain ⟨hu, hr⟩ := (operandReadable_iff hm).1 hr
  cases hi : isIndexed m
  · obtain ⟨v, hv⟩ := busValue_withHistory hr (addressRecord opc m s)
    refine ⟨v, addressRecord opc m s, _,
      ⟨opc, .rmw m.mode, 2 + addressCycles m.mode + 0 + 1 + 1, { addressLatches m s with dat := v }⟩, rfl, ⟨hv, rfl⟩, ?_⟩
    rw [← Nat.add_zero (2 + addressCycles m.mode), show n + (3 + false.toNat) = n + 1 + 1 + 1 from rfl, runCycles_mid,
      microCycle_rmw]
    simp only [rmwAccess, indexedMode_eq, hi, rmwRead, addressLatches_ea hm, busRead_mid, hv, andThen_next, proceed_mid,
      Nat.add_zero, runCycles_mid]
    rw [microCycle_rmw]
    simp only [rmwAccess, indexedMode_eq, hi, rmwDummyWrite, busWrite_mid, andThen_next,
      proceed_mid, runCycles_mid]
    rw [Nat.add_assoc, microCycle_rmw]
    simp only [rmwAccess, indexedMode_eq, hi, rmwFinalWrite, andThen_next, runCycles_finish]
    rfl
  · obtain ⟨u, hu⟩ := busValue_withHistory hu (addressRecord opc m s)
    obtain ⟨v, hv⟩ := busValue_withHistory hr (.read (uncorrectedAddress m s) u :: addressRecord opc m s)
    refine ⟨v, _, _,
      ⟨opc, .rmw m.mode, 2 + addressCycles m.mode + 0 + 1 + 1 + 1, { addressLatches m s with dat := v }⟩, ⟨u, hu, rfl⟩,
      ⟨hv, rfl⟩, ?_⟩
    rw [← Nat.add_zero (2 + addressCycles m.mode), show n + (3 + true.toNat) = n + 1 + 1 + 1 + 1 from rfl, runCycles_mid,
      microCycle_rmw]
    simp only [rmwAccess, indexedMode_eq, hi, dummyRead, addressLatches_eau hi, busRead_mid, hu, andThen_next,
      proceed_mid, Nat.add_zero, runCycles_mid]
    rw [microCycle_rmw]
    simp only [rmwAccess, indexedMode_eq, hi, rmwRead, addressLatches_ea hm, busRead_mid, hv, andThen_next, proceed_mid,
      runCycles_mid]
    rw [Nat.add_assoc, microCycle_rmw]
    simp only [rmwAccess, indexedMode_eq, hi, rmwDummyWrite, busWrite_mid, andThen_next,
      proceed_mid, runCycles_mid]
    rw [Nat.add_assoc, microCycle_rmw]
    simp only [rmwAccess, indexedMode_eq, hi, rmwFinalWrite, addressLatches_eau hi, andThen_next, runCycles_finish]
    rfl

/-- Where the form has no index, the uncorrected address is the effective one. -/
theorem uncorrected_of_notIndexed {m : Operand} (h : isIndexed m = false) (s : State) :
    uncorrectedAddress m s = effectiveAddress m s := by
  cases m <;> simp_all [isIndexed, uncorrectedAddress]

/-- A read-modify-write instruction that goes on had a readable operand. -/
theorem runCycles_rmw_readable {g : Byte → State → Byte × State} {m : Operand} (hm : hasAddress m = true) {opc : Byte}
    {s t : State} {n : Nat} {src : Source} {pc : Word}
    (h : runCycles src (.rmw g) (n + (3 + (isIndexed m).toNat))
      (mid s pc (addressRecord opc m s) ⟨opc, .rmw m.mode, 2 + addressCycles m.mode, addressLatches m s⟩) = .next t) :
    operandReadable m s = true := by
  rw [operandReadable_iff hm]
  cases hi : isIndexed m
  · rw [uncorrected_of_notIndexed hi, and_self]
    rw [hi, ← Nat.add_zero (2 + addressCycles m.mode), show n + (3 + false.toNat) = n + 1 + 1 + 1 from rfl, runCycles_mid,
      microCycle_rmw] at h
    simp only [rmwAccess, indexedMode_eq, hi, rmwRead, addressLatches_ea hm, busRead_mid, andThen_assoc,
      andThen_eq_next] at h
    obtain ⟨v, hv, -⟩ := h
    exact readable_of_busValue hv
  · rw [hi, ← Nat.add_zero (2 + addressCycles m.mode), show n + (3 + true.toNat) = n + 1 + 1 + 1 + 1 from rfl,
      runCycles_mid, microCycle_rmw] at h
    simp only [rmwAccess, indexedMode_eq, hi, dummyRead, addressLatches_eau hi, busRead_mid, andThen_assoc,
      andThen_eq_next] at h
    obtain ⟨u, hu, x, hx, y, hy, z, hz, h⟩ := h
    cases hx; cases hy; cases hz
    refine ⟨readable_of_busValue hu, ?_⟩
    simp only [proceed_mid, Nat.add_zero] at h
    rw [runCycles_mid, microCycle_rmw] at h
    simp only [rmwAccess, indexedMode_eq, hi, rmwRead, addressLatches_ea hm, busRead_mid, andThen_assoc,
      andThen_eq_next] at h
    obtain ⟨v, hv, -⟩ := h
    exact readable_of_busValue hv

end Sys2Proof.Machine
end

