-- ==== Sys2Proof/Laws/Running.lean ====
section
/-! SUPPORT. What running a whole instruction does, in closed form: one lemma per sequence, from the opcode fetch to the
boundary. -/

namespace Sys2Proof.Machine

/-! ## The opcode -/

theorem mnem_mem (k : Mnem) :
    k ∈ [Mnem.lda, .ldx, .ldy, .sta, .stx, .sty, .tax, .tay, .txa, .tya, .tsx, .txs, .adc, .sbc, .and, .ora, .eor,
      .bit, .cmp, .cpx, .cpy, .asl, .lsr, .rol, .ror, .inc, .dec, .inx, .iny, .dex, .dey, .bpl, .bmi, .bvc, .bvs, .bcc,
      .bcs, .bne, .beq, .jmp, .jsr, .rts, .brk, .rti, .pha, .php, .pla, .plp, .clc, .sec, .cli, .sei, .cld, .sed, .clv,
      .nop, .slo, .rla, .sre, .rra, .sax, .lax, .dcp, .isc, .illegal] := by
  cases k <;> decide

/-- A form that a mnemonic has, has an opcode. -/
theorem opcodes_of_forms {k : Mnem} {m : Mode} (hk : k ≠ .illegal) (h : m ∈ k.forms) :
    ∃ opc, k.opcodes.lookup m = some opc := by
  have key : ∀ k ∈ [Mnem.lda, .ldx, .ldy, .sta, .stx, .sty, .tax, .tay, .txa, .tya, .tsx, .txs, .adc, .sbc, .and, .ora,
      .eor, .bit, .cmp, .cpx, .cpy, .asl, .lsr, .rol, .ror, .inc, .dec, .inx, .iny, .dex, .dey, .bpl, .bmi, .bvc, .bvs,
      .bcc, .bcs, .bne, .beq, .jmp, .jsr, .rts, .brk, .rti, .pha, .php, .pla, .plp, .clc, .sec, .cli, .sei, .cld, .sed,
      .clv, .nop, .slo, .rla, .sre, .rra, .sax, .lax, .dcp, .isc, .illegal], k ≠ .illegal →
      ∀ m ∈ k.forms, (k.opcodes.lookup m).isSome = true := by decide
  exact Option.isSome_iff_exists.1 (key k (mnem_mem k) hk m h)

/-- A well-formed instruction has an opcode byte. -/
theorem opcode_of_wellFormed {i : Instr} (h : WellFormed i) : i.opcode = some (opcodeByte i) := by
  have : ∃ opc, i.opcode = some opc := by
    cases i with
    | illegal opc =>
      have h : illegalOpcodes.contains opc = true := h
      exact ⟨opc, by simp only [Instr.opcode, h, if_true]⟩
    | _ =>
      exact opcodes_of_forms (by simp [Instr.mnem]) (by simpa [WellFormed, Instr.wellFormed] using h)
  obtain ⟨opc, h⟩ := this
  simp [opcodeByte, h]

theorem runSeq_eq {i : Instr} (hw : WellFormed i) (q : Seq) (op : Operation) (s : State) :
    runSeq i q op s = runCycles (sourceOf i) op longestSequence (openInstr (opcodeByte i) q s) := by
  simp only [runSeq, opcode_of_wellFormed hw]

theorem runSeq_open {i : Instr} (hw : WellFormed i) (q : Seq) (op : Operation) (s : State) :
    runSeq i q op s = runCycles (sourceOf i) op longestSequence
      (mid s (s.pc + 1) (.read s.pc (opcodeByte i) :: s.history) ⟨opcodeByte i, q, 2, {}⟩) := runSeq_eq hw q op s

/-! ## Read, store, read-modify-write -/

theorem sourceOf_operand {i : Instr} {m : Operand} (hb : i.operandBytes = m.bytes) : sourceOf i = operandSource m := by
  simp only [sourceOf, operandSource, hb]

/-- A read instruction, immediate or through an address. -/
theorem runSeq_read {i : Instr} (hw : WellFormed i) {m : Operand} (hb : i.operandBytes = m.bytes) (hm : m ≠ .acc)
    {s : State} (hr : operandReadable m s = true) (g : Byte → State → State) :
    ∃ v h f, ReadsOperand (opcodeByte i) m s v h
      ∧ runSeq i (.read m.mode) (.read g) s = .next (finish (g v (mid s (nextPc m s) h f))) := by
  by_cases hi : ∃ b, m = .imm b
  · obtain ⟨b, rfl⟩ := hi
    have one : s.pc + 1 + 1 = nextPc (.imm b) s := by simp only [nextPc, Operand.mode, Mode.length]; bv_omega
    refine ⟨b, _, ⟨opcodeByte i, .read .imm, 2, {}⟩, ⟨rfl, rfl⟩, ?_⟩
    rw [runSeq_open hw, sourceOf_operand hb]
    simp only [longestSequence, runCycles_mid, microCycle, Operand.mode, immediateCycle, operandSource, Operand.bytes,
      List.getD_cons_zero, fetchSecond_mid, andThen_next, runCycles_finish, one]
    rfl
  · have ha : hasAddress m = true := by cases m <;> simp_all [hasAddress]
    obtain ⟨v, h, f, h1, h2⟩ := runCycles_read (g := g) (opc := opcodeByte i) ha hr (5 - addressCycles m.mode)
      (operandSource m) (nextPc m s)
    refine ⟨v, h, f, h1, ?_⟩
    have hn : longestSequence = 5 - addressCycles m.mode + 2 + addressCycles m.mode := by cases m <;> rfl
    rw [runSeq_eq hw, sourceOf_operand hb, hn,
      runCycles_address ha (.inl ⟨rfl, hasAddress_ne_imm ha, g, rfl⟩), h2]

/-- A store. -/
theorem runSeq_write {i : Instr} (hw : WellFormed i) {m : Operand} (hb : i.operandBytes = m.bytes)
    (hm : hasAddress m = true) {s : State} (hr : storeReadable m s = true) (g : State → Byte) :
    ∃ h f, UncorrectedRead s m (isIndexed m) (addressRecord (opcodeByte i) m s) h
      ∧ runSeq i (.write m.mode) (.write g) s
        = .next (finish (busWrite (effectiveAddress m s) (g (mid s (nextPc m s) h f)) (mid s (nextPc m s) h f))) := by
  obtain ⟨h, f, h1, h2⟩ := runCycles_write (g := g) (opc := opcodeByte i) hm hr (5 - addressCycles m.mode)
    (operandSource m) (nextPc m s)
  refine ⟨h, f, h1, ?_⟩
  have hn : longestSequence = 5 - addressCycles m.mode + 2 + addressCycles m.mode := by cases m <;> rfl
  rw [runSeq_eq hw, sourceOf_operand hb, hn, runCycles_address hm (.inr (.inl ⟨rfl, g, rfl⟩)), h2]

/-- A read-modify-write instruction. -/
theorem runSeq_rmw {i : Instr} (hw : WellFormed i) {m : Operand} (hb : i.operandBytes = m.bytes)
    (hm : hasAddress m = true) {s : State} (hr : operandReadable m s = true) (g : Byte → State → Byte × State) :
    ∃ v h0 h f, UncorrectedRead s m (isIndexed m) (addressRecord (opcodeByte i) m s) h0
      ∧ ReadsAt s (effectiveAddress m s) v h0 h
      ∧ runSeq i (.rmw m.mode) (.rmw g) s = .next (finish
          (let r := g v (mid (afterDummyWrite m v (nextPc m s) s) (nextPc m s)
              (.write (effectiveAddress m s) v (nextPc m s) :: h) f)
           busWrite (effectiveAddress m s) r.1 r.2)) := by
  obtain ⟨v, h0, h, f, h1, h2, h3⟩ := runCycles_rmw (g := g) (opc := opcodeByte i) hm hr
    (4 - addressCycles m.mode - (isIndexed m).toNat) (operandSource m) (nextPc m s)
  refine ⟨v, h0, h, f, h1, h2, ?_⟩
  have hn : longestSequence
      = 4 - addressCycles m.mode - (isIndexed m).toNat + (3 + (isIndexed m).toNat) + addressCycles m.mode := by
    cases m <;> rfl
  rw [runSeq_eq hw, sourceOf_operand hb, hn, runCycles_address hm (.inr (.inr ⟨rfl, g, rfl⟩)), h3]

/-! ## Internal cycles -/

/-- An implied or accumulator instruction: the dummy read at the next address, then the operation. -/
theorem runSeq_internal {i : Instr} (hw : WellFormed i) {s : State} (hr : readable s (s.pc + 1) = true)
    (g : State → State) :
    ∃ v h f, ReadsAt s (s.pc + 1) v (.read s.pc (opcodeByte i) :: s.history) h
      ∧ runSeq i .internal (.internal g) s = .next (finish (g (mid s (s.pc + 1) h f))) := by
  obtain ⟨v, hv⟩ := busValue_withHistory hr (.read s.pc (opcodeByte i) :: s.history)
  refine ⟨v, _, ⟨opcodeByte i, .internal, 2, {}⟩, ⟨hv, rfl⟩, ?_⟩
  rw [runSeq_open hw]
  simp only [longestSequence, runCycles_mid, microCycle, internalCycle, dummyRead, mid_pc, busRead_mid, hv, andThen_next,
    runCycles_finish]

/-! ## Branches and jumps -/

/-- The address after a branch, and its target. -/
theorem branchNext (s : State) : s.pc + 1 + 1 = s.pc + 2 := by bv_omega

section
variable {i : Instr} (hw : WellFormed i) {off : Byte} (hb : i.operandBytes = [off]) {s : State} {c : Flags → Bool}
include hw hb

theorem runSeq_branch_notTaken (hc : c s.p = false) :
    runSeq i .branch (.branch c) s
      = .next (atBoundary (s.pc + 2) (.read (s.pc + 1) off :: .read s.pc (opcodeByte i) :: s.history) s) := by
  rw [runSeq_open hw]
  simp only [sourceOf, hb, List.getD_cons_zero, longestSequence, runCycles_mid, microCycle, branchCycle, fetchSecond_mid,
    andThen_next, mid_p, hc, Bool.false_eq_true, if_false, finish_mid, runCycles_atBoundary, branchNext]

theorem runSeq_branch_taken (hc : c s.p = true) (hr : readable s (s.pc + 2) = true)
    (hp : hi (branchTarget (s.pc + 2) off) = hi (s.pc + 2)) :
    ∃ v h, ReadsAt s (s.pc + 2) v (.read (s.pc + 1) off :: .read s.pc (opcodeByte i) :: s.history) h
      ∧ runSeq i .branch (.branch c) s = .next (atBoundary (branchTarget (s.pc + 2) off) h s) := by
  obtain ⟨v, hv⟩ := busValue_withHistory hr (.read (s.pc + 1) off :: .read s.pc (opcodeByte i) :: s.history)
  refine ⟨v, _, ⟨hv, rfl⟩, ?_⟩
  rw [runSeq_open hw]
  simp only [sourceOf, hb, List.getD_cons_zero, longestSequence, runCycles_mid, microCycle, branchCycle, fetchSecond_mid,
    andThen_next, mid_p, mid_pc, hc, if_true, branchNext, proceed_mid, dummyRead, busRead_mid, hv, hp]
  exact runCycles_atBoundary s _ _ _ _ _

theorem runSeq_branch_page (hc : c s.p = true) (hr : readable s (s.pc + 2) = true)
    (hr' : readable s (word (hi (s.pc + 2)) (lo (branchTarget (s.pc + 2) off))) = true)
    (hp : hi (branchTarget (s.pc + 2) off) ≠ hi (s.pc + 2)) :
    ∃ v g w h, ReadsAt s (s.pc + 2) v (.read (s.pc + 1) off :: .read s.pc (opcodeByte i) :: s.history) g
      ∧ ReadsAt s (word (hi (s.pc + 2)) (lo (branchTarget (s.pc + 2) off))) w g h
      ∧ runSeq i .branch (.branch c) s = .next (atBoundary (branchTarget (s.pc + 2) off) h s) := by
  obtain ⟨v, hv⟩ := busValue_withHistory hr (.read (s.pc + 1) off :: .read s.pc (opcodeByte i) :: s.history)
  obtain ⟨w, hw'⟩ := busValue_withHistory hr'
    (.read (s.pc + 2) v :: .read (s.pc + 1) off :: .read s.pc (opcodeByte i) :: s.history)
  refine ⟨v, _, w, _, ⟨hv, rfl⟩, ⟨hw', rfl⟩, ?_⟩
  rw [runSeq_open hw]
  simp only [sourceOf, hb, List.getD_cons_zero, longestSequence, runCycles_mid, microCycle, branchCycle, fetchSecond_mid,
    andThen_next, mid_p, mid_pc, hc, if_true, branchNext, proceed_mid, dummyRead, busRead_mid, hv, hp, if_false, setPc_mid, hw',
    finish_mid]
  exact runCycles_atBoundary s _ _ _ _ _

end

/-- JMP absolute. -/
theorem runSeq_jmpAbs {i : Instr} (hw : WellFormed i) {t : Word} (hb : i.operandBytes = [lo t, hi t]) (s : State) :
    runSeq i .jmpAbs .fixed s = .next (atBoundary t
      (.read (s.pc + 2) (hi t) :: .read (s.pc + 1) (lo t) :: .read s.pc (opcodeByte i) :: s.history) s) := by
  rw [runSeq_open hw]
  simp only [sourceOf, hb, List.getD_cons_zero, List.getD_cons_succ, longestSequence, runCycles_mid, microCycle,
    jmpAbsCycle, fetchSecond_mid, fetchThird_mid, andThen_next, proceed_mid, branchNext, setPc_mid, word_hi_lo,
    finish_mid]
  exact runCycles_atBoundary s _ _ _ _ _

/-- JMP indirect: the pointer's two bytes are read, the second from the pointer's own page. -/
theorem runSeq_jmpInd {i : Instr} (hw : WellFormed i) {p : Word} (hb : i.operandBytes = [lo p, hi p]) {s : State}
    (hr : readable s p = true) (hr' : readable s (pointerHigh (hi p) (lo p)) = true) :
    ∃ l g u h, ReadsAt s p l
        (.read (s.pc + 2) (hi p) :: .read (s.pc + 1) (lo p) :: .read s.pc (opcodeByte i) :: s.history) g
      ∧ ReadsAt s (pointerHigh (hi p) (lo p)) u g h
      ∧ runSeq i .jmpInd .fixed s = .next (atBoundary (word u l) h s) := by
  obtain ⟨l, hl⟩ := busValue_withHistory hr
    (.read (s.pc + 2) (hi p) :: .read (s.pc + 1) (lo p) :: .read s.pc (opcodeByte i) :: s.history)
  obtain ⟨u, hu⟩ := busValue_withHistory hr' (.read p l ::
    .read (s.pc + 2) (hi p) :: .read (s.pc + 1) (lo p) :: .read s.pc (opcodeByte i) :: s.history)
  refine ⟨l, _, u, _, ⟨hl, rfl⟩, ⟨hu, rfl⟩, ?_⟩
  rw [runSeq_open hw]
  simp only [sourceOf, hb, List.getD_cons_zero, List.getD_cons_succ, longestSequence, runCycles_mid, microCycle,
    jmpIndCycle, fetchSecond_mid, fetchThird_mid, andThen_next, proceed_mid, branchNext, setPc_mid, word_hi_lo,
    busRead_mid, hl, hu, finish_mid]
  exact runCycles_atBoundary s _ _ _ _ _

/-! ## Stack -/

theorem pushByte_mid (v : Byte) (s : State) (pc : Word) (h : List BusCycle) (f : InFlight) :
    pushByte v (mid s pc h f) = mid (pushed v s) pc (.write (stackAddr s.sp) v pc :: h) f := by
  rw [pushByte_eq]; rfl

/-- JSR: the dummy stack read, the return address `q + 2` pushed high byte first, the target (R148, R271). -/
theorem runSeq_jsr {i : Instr} (hw : WellFormed i) {t : Word} (hb : i.operandBytes = [lo t, hi t]) (s : State) :
    runSeq i .jsr .fixed s = .next (atBoundary t
      (.read (s.pc + 2) (hi t)
        :: .write (stackAddr (s.sp - 1)) (lo (s.pc + 2)) (s.pc + 2)
        :: .write (stackAddr s.sp) (hi (s.pc + 2)) (s.pc + 2)
        :: ramCycle s (stackAddr s.sp)
        :: .read (s.pc + 1) (lo t) :: .read s.pc (opcodeByte i) :: s.history)
      (pushed (lo (s.pc + 2)) (pushed (hi (s.pc + 2)) s))) := by
  rw [runSeq_open hw]
  simp only [sourceOf, hb, List.getD_cons_zero, List.getD_cons_succ, longestSequence, runCycles_mid, microCycle,
    jsrCycle, fetchSecond_mid, fetchThird_mid, andThen_next, proceed_mid, branchNext, setPc_mid, word_hi_lo,
    dummyRead, busRead_mid, mid_pc, mid_sp, busValue_withHistory_stackAddr, pushByte_mid, finish_mid, pushed_sp]
  exact runCycles_atBoundary _ _ _ _ _ _

/-- The cycles of a stack pre-read and of the dummy read before it. -/
theorem stackPreRead_mid (s : State) (pc : Word) (h : List BusCycle) (f : InFlight) :
    stackPreRead (mid s pc h f) = .next (mid (bumpSp s) pc (ramCycle s (stackAddr s.sp) :: h) f) := by
  simp only [stackPreRead, dummyRead, mid_sp, busRead_mid, busValue_withHistory_stackAddr, andThen_next, bumpSp_mid]
  rfl

theorem readStack_mid (s : State) (pc : Word) (h : List BusCycle) (f : InFlight) :
    readStack (mid s pc h f)
      = .next (ramRead s (stackAddr s.sp), mid s pc (ramCycle s (stackAddr s.sp) :: h) f) := by
  simp only [readStack, mid_sp, busRead_mid, busValue_withHistory_stackAddr, andThen_next]
  rfl

@[simp] theorem ramRead_bumpSp (s : State) (a : Word) : ramRead (bumpSp s) a = ramRead s a := rfl
@[simp] theorem ramRead_setP (s : State) (p : Flags) (a : Word) : ramRead (setP p s) a = ramRead s a := rfl
@[simp] theorem ramRead_setPc (s : State) (w a : Word) : ramRead (setPc w s) a = ramRead s a := rfl
@[simp] theorem readable_bumpSp (s : State) (a : Word) : readable (bumpSp s) a = readable s a := rfl
@[simp] theorem readable_setPc (s : State) (w a : Word) : readable (setPc w s) a = readable s a := rfl

theorem sp_one_one (b : Byte) : b + 1 + 1 = b + 2 := by bv_omega

theorem sp_two_one (b : Byte) : b + 2 + 1 = b + 3 := by bv_omega

@[simp] theorem busValue_withHistory_bumpSp (s : State) (h : List BusCycle) (a : Word) :
    busValue (withHistory h (bumpSp s)) a = busValue (withHistory h s) a := rfl

@[simp] theorem ramCycle_bumpSp (s : State) (a : Word) : ramCycle (bumpSp s) a = ramCycle s a := rfl

@[simp] theorem ramCycle_setP (s : State) (p : Flags) (a : Word) : ramCycle (setP p s) a = ramCycle s a := rfl

theorem pulledWord_one (s : State) :
    word (ramRead s (stackAddr (s.sp + 2))) (ramRead s (stackAddr (s.sp + 1))) = pulledWord 1 s := rfl

theorem bumpSp_bumpSp (s : State) : bumpSp (bumpSp s) = { s with sp := s.sp + 2 } := by
  simp only [bumpSp, sp_one_one]

/-- RTS (R149, R272). -/
theorem runSeq_rts {i : Instr} (hw : WellFormed i) {s : State} (hr : readable s (s.pc + 1) = true)
    (hr' : readable s (pulledWord 1 s) = true) :
    ∃ v g w h, ReadsAt s (s.pc + 1) v (.read s.pc (opcodeByte i) :: s.history) g
      ∧ ReadsAt s (pulledWord 1 s) w
          (ramCycle s (stackAddr (s.sp + 2)) :: ramCycle s (stackAddr (s.sp + 1)) :: ramCycle s (stackAddr s.sp) :: g) h
      ∧ runSeq i .rts .fixed s = .next (atBoundary (pulledWord 1 s + 1) h { s with sp := s.sp + 2 }) := by
  obtain ⟨v, hv⟩ := busValue_withHistory hr (.read s.pc (opcodeByte i) :: s.history)
  obtain ⟨w, hw'⟩ := busValue_withHistory hr' (ramCycle s (stackAddr (s.sp + 2)) :: ramCycle s (stackAddr (s.sp + 1))
    :: ramCycle s (stackAddr s.sp) :: .read (s.pc + 1) v :: .read s.pc (opcodeByte i) :: s.history)
  refine ⟨v, _, w, _, ⟨hv, rfl⟩, ⟨hw', rfl⟩, ?_⟩
  rw [runSeq_open hw]
  simp only [longestSequence, runCycles_mid, microCycle, rtsCycle, dummyRead, mid_pc, busRead_mid, hv, andThen_next,
    proceed_mid, stackPreRead_mid, readStack_mid, bumpSp_mid, bumpSp_sp, ramRead_bumpSp, sp_one_one, setPc_mid,
    busValue_withHistory_bumpSp, ramCycle_bumpSp, pulledWord_one, hw', finish_mid]
  rw [bumpSp_bumpSp]
  exact runCycles_atBoundary _ _ _ _ _ _

/-- RTI: the status byte, then PC, low byte first (R150, R274). -/
theorem runSeq_rti {i : Instr} (hw : WellFormed i) {s : State} (hr : readable s (s.pc + 1) = true) :
    ∃ v g, ReadsAt s (s.pc + 1) v (.read s.pc (opcodeByte i) :: s.history) g
      ∧ runSeq i .rti .fixed s = .next (atBoundary (pulledWord 2 s)
          (ramCycle s (stackAddr (s.sp + 3)) :: ramCycle s (stackAddr (s.sp + 2)) :: ramCycle s (stackAddr (s.sp + 1))
            :: ramCycle s (stackAddr s.sp) :: g)
          { s with sp := s.sp + 3, p := Flags.fromStack (ramRead s (stackAddr (s.sp + 1))) }) := by
  obtain ⟨v, hv⟩ := busValue_withHistory hr (.read s.pc (opcodeByte i) :: s.history)
  refine ⟨v, _, ⟨hv, rfl⟩, ?_⟩
  rw [runSeq_open hw]
  simp only [longestSequence, runCycles_mid, microCycle, returnCycle, dummyRead, mid_pc, busRead_mid, hv, andThen_next,
    proceed_mid, stackPreRead_mid, readStack_mid, setP_mid, bumpSp_mid, bumpSp_sp, setP_sp, ramRead_bumpSp, ramRead_setP,
    sp_one_one, sp_two_one, setPc_mid, ramCycle_bumpSp, ramCycle_setP, finish_mid]
  rw [runCycles_atBoundary]
  simp only [atBoundary, bumpSp, setP, sp_one_one, sp_two_one, pulledWord]
  rfl

/-- A push (R151). -/
theorem runSeq_push {i : Instr} (hw : WellFormed i) {s : State} (hr : readable s (s.pc + 1) = true) (g : State → Byte) :
    ∃ v h f, ReadsAt s (s.pc + 1) v (.read s.pc (opcodeByte i) :: s.history) h
      ∧ runSeq i .push (.push g) s
        = .next (finish (pushByte (g (mid s (s.pc + 1) h f)) (mid s (s.pc + 1) h f))) := by
  obtain ⟨v, hv⟩ := busValue_withHistory hr (.read s.pc (opcodeByte i) :: s.history)
  refine ⟨v, _, ⟨opcodeByte i, .push, 3, {}⟩, ⟨hv, rfl⟩, ?_⟩
  rw [runSeq_open hw]
  simp only [longestSequence, runCycles_mid, microCycle, pushCycle, dummyRead, mid_pc, busRead_mid, hv, andThen_next,
    proceed_mid, runCycles_finish]

/-- A pull (R152). -/
theorem runSeq_pull {i : Instr} (hw : WellFormed i) {s : State} (hr : readable s (s.pc + 1) = true)
    (g : Byte → State → State) :
    ∃ v h f, ReadsAt s (s.pc + 1) v (.read s.pc (opcodeByte i) :: s.history) h
      ∧ runSeq i .pull (.pull g) s = .next (finish (g (ramRead s (stackAddr (s.sp + 1)))
          (mid (bumpSp s) (s.pc + 1) (ramCycle s (stackAddr (s.sp + 1)) :: ramCycle s (stackAddr s.sp) :: h) f))) := by
  obtain ⟨v, hv⟩ := busValue_withHistory hr (.read s.pc (opcodeByte i) :: s.history)
  refine ⟨v, _, ⟨opcodeByte i, .pull, 4, {}⟩, ⟨hv, rfl⟩, ?_⟩
  rw [runSeq_open hw]
  simp only [longestSequence, runCycles_mid, microCycle, pullCycle, dummyRead, mid_pc, busRead_mid, hv, andThen_next,
    proceed_mid, stackPreRead_mid, readStack_mid, bumpSp_sp, ramRead_bumpSp, ramCycle_bumpSp, runCycles_finish]

/-! ## Interrupts -/

/-- Cycles T3 to T7 of an interrupt, for any sequence whose cycles they are. -/
theorem runCycles_entry {src : Source} {op : Operation} {opc : Byte} {q : Seq} {st : Flags → Byte}
    (hq : ∀ t l s, 3 ≤ t → microCycle src op ⟨opc, q, t, l⟩ s = entryCycle st ⟨opc, q, t, l⟩ s) (n : Nat) (s : State)
    (pc : Word) (h : List BusCycle) (l : Latches) :
    ∃ lo hi : Byte, ∃ g g',
      ReadsAt (interrupted pc (st s.p) s) vectorLow lo (interruptWrites pc (st s.p) s ++ h) g
      ∧ ReadsAt (interrupted pc (st s.p) s) vectorHigh hi g g'
      ∧ runCycles src op (n + 5) (mid s pc h ⟨opc, q, 3, l⟩)
        = .next (atBoundary (word hi lo) g' (interrupted pc (st s.p) s)) := by
  obtain ⟨vl, hl⟩ := busValue_withHistory (readable_vectorLow (interrupted pc (st s.p) s))
    (interruptWrites pc (st s.p) s ++ h)
  obtain ⟨vh, hh⟩ := busValue_withHistory (readable_vectorHigh (interrupted pc (st s.p) s))
    (.read vectorLow vl :: (interruptWrites pc (st s.p) s ++ h))
  refine ⟨vl, vh, _, _, ⟨hl, rfl⟩, ⟨hh, rfl⟩, ?_⟩
  have e1 : s.sp - 1 - 1 = s.sp - 2 := by bv_omega
  have step : ∀ (k t : Nat) (l : Latches) (s : State) (pc : Word) (h : List BusCycle), 3 ≤ t →
      runCycles src op (k + 1) (mid s pc h ⟨opc, q, t, l⟩)
        = andThen (entryCycle st ⟨opc, q, t, l⟩ (mid s pc h ⟨opc, q, t, l⟩)) (runCycles src op k) := by
    intro k t l s pc h ht
    rw [runCycles_mid, hq t l _ ht]
  have p1 : (pushed (lo pc) (pushed (hi pc) s)).p = s.p := rfl
  have p2 : (pushed (st s.p) (pushed (lo pc) (pushed (hi pc) s))).p = s.p := rfl
  have hl' : busValue (withHistory (.write (stackAddr (s.sp - 2)) (st s.p) pc
      :: .write (stackAddr (s.sp - 1)) (lo pc) pc :: .write (stackAddr s.sp) (hi pc) pc :: h)
      (setP { s.p with i := true } (pushed (st s.p) (pushed (lo pc) (pushed (hi pc) s))))) vectorLow = .next vl := hl
  have hh' : busValue (withHistory (.read vectorLow vl :: .write (stackAddr (s.sp - 2)) (st s.p) pc
      :: .write (stackAddr (s.sp - 1)) (lo pc) pc :: .write (stackAddr s.sp) (hi pc) pc :: h)
      (setP { s.p with i := true } (pushed (st s.p) (pushed (lo pc) (pushed (hi pc) s))))) vectorHigh = .next vh := hh
  rw [step _ _ _ _ _ _ (by omega)]
  simp only [entryCycle, mid_pc, pushByte_mid, proceed_mid, andThen_next]
  rw [step _ _ _ _ _ _ (by omega)]
  simp only [entryCycle, mid_pc, pushByte_mid, proceed_mid, andThen_next, pushed_sp]
  rw [step _ _ _ _ _ _ (by omega)]
  simp only [entryCycle, mid_p, p1, p2, pushByte_mid, proceed_mid, andThen_next, pushed_sp, e1, setP_mid]
  rw [step _ _ _ _ _ _ (by omega)]
  simp only [entryCycle, busRead_mid, hl', proceed_mid, andThen_next]
  rw [step _ _ _ _ _ _ (by omega)]
  simp only [entryCycle, busRead_mid, hh', setPc_mid, finish_mid, andThen_next]
  rw [runCycles_atBoundary]
  rfl

/-- BRK (R153, R273). -/
theorem runSeq_brk {i : Instr} (hw : WellFormed i) {b : Byte} (hb : i.operandBytes = [b]) (s : State) :
    ∃ lo hi : Byte, ∃ g g',
      ReadsAt (interrupted (s.pc + 2) s.p.pushedByProgram s) vectorLow lo
        (interruptWrites (s.pc + 2) s.p.pushedByProgram s ++ .read (s.pc + 1) b :: .read s.pc (opcodeByte i) :: s.history) g
      ∧ ReadsAt (interrupted (s.pc + 2) s.p.pushedByProgram s) vectorHigh hi g g'
      ∧ runSeq i .brk .fixed s
        = .next (atBoundary (word hi lo) g' (interrupted (s.pc + 2) s.p.pushedByProgram s)) := by
  obtain ⟨vl, vh, g, g', h1, h2, h3⟩ := runCycles_entry (src := sourceOf i) (op := .fixed) (opc := opcodeByte i)
    (q := .brk) (st := Flags.pushedByProgram)
    (by
      intro t l s ht
      obtain ⟨t, rfl⟩ : ∃ k, t = k + 3 := ⟨t - 3, by omega⟩
      rfl) 1 s (s.pc + 2)
    (.read (s.pc + 1) b :: .read s.pc (opcodeByte i) :: s.history) {}
  refine ⟨vl, vh, g, g', h1, h2, ?_⟩
  rw [runSeq_open hw, longestSequence, runCycles_mid]
  simp only [microCycle, brkCycle, sourceOf, hb, List.getD_cons_zero, fetchSecond_mid, andThen_next, proceed_mid,
    branchNext]
  simpa only [sourceOf, hb, List.getD_cons_zero] using h3

/-- IRQ entry: two dummy reads at PC, then the pushes and the vector (R154, R340). -/
theorem takeIrq_eq {s : State} (hr : readable s s.pc = true) :
    ∃ v w : Byte, ∃ h0 h1, ReadsAt s s.pc v s.history h0 ∧ ReadsAt s s.pc w h0 h1
      ∧ ∃ lo hi : Byte, ∃ g g',
        ReadsAt (interrupted s.pc s.p.pushedByIrq s) vectorLow lo (interruptWrites s.pc s.p.pushedByIrq s ++ h1) g
        ∧ ReadsAt (interrupted s.pc s.p.pushedByIrq s) vectorHigh hi g g'
        ∧ takeIrq s
          = .next { atBoundary (word hi lo) g' (interrupted s.pc s.p.pushedByIrq s) with irqPending := false } := by
  obtain ⟨v, hv⟩ := busValue_withHistory hr s.history
  obtain ⟨w, hw⟩ := busValue_withHistory hr (.read s.pc v :: s.history)
  refine ⟨v, w, _, _, ⟨hv, rfl⟩, ⟨hw, rfl⟩, ?_⟩
  obtain ⟨vl, vh, g, g', h1, h2, h3⟩ := runCycles_entry (src := .bus) (op := .fixed) (opc := 0x00)
    (q := .irq) (st := Flags.pushedByIrq)
    (by
      intro t l s ht
      obtain ⟨t, rfl⟩ : ∃ k, t = k + 3 := ⟨t - 3, by omega⟩
      rfl) 1 { s with irqPending := false } s.pc
    (.read s.pc w :: .read s.pc v :: s.history) {}
  refine ⟨vl, vh, g, g', h1, h2, ?_⟩
  have e : openIrq s = .next (mid { s with irqPending := false } s.pc (.read s.pc v :: s.history) ⟨0x00, .irq, 2, {}⟩) := by
    have hv' : busValue s s.pc = .next v := hv
    simp only [openIrq, dummyRead, busRead, hv', andThen_next]
    rfl
  have hw' : busValue (withHistory (.read s.pc v :: s.history) { s with irqPending := false }) s.pc = .next w := hw
  rw [takeIrq, e, andThen_next, longestSequence, runCycles_mid]
  simp only [microCycle, irqCycle, dummyRead, mid_pc, busRead_mid, hw', andThen_next, proceed_mid]
  exact h3

/-! ## `nop_with_cycles` -/

theorem runCycles_idle {src : Source} {op : Operation} {opc : Byte} {len cycles : Nat} (k : Nat) :
    ∀ (t n : Nat) (l : Latches) (s : State) (pc : Word) (h : List BusCycle), 2 ≤ t → len < t → t + k = cycles → k < n →
      runCycles src op n (mid s pc h ⟨opc, .nop len cycles, t, l⟩)
        = .next (atBoundary pc (List.replicate (k + 1) .idle ++ h) s) := by
  induction k with
  | zero =>
    intro t n l s pc h h2 hl hk hn
    obtain ⟨n, rfl⟩ : ∃ m, n = m + 1 := ⟨n - 1, by omega⟩
    rw [runCycles_mid]
    simp only [microCycle, nopCycle, show ¬ (t < 2 ∨ cycles < t) by omega, show ¬ t ≤ len by omega, if_false, record_mid,
      proceedUntil, show ¬ t < cycles by omega, finish_mid, andThen_next, runCycles_atBoundary]
    rfl
  | succ k ih =>
    intro t n l s pc h h2 hl hk hn
    obtain ⟨n, rfl⟩ : ∃ m, n = m + 1 := ⟨n - 1, by omega⟩
    rw [runCycles_mid]
    simp only [microCycle, nopCycle, show ¬ (t < 2 ∨ cycles < t) by omega, show ¬ t ≤ len by omega, if_false, record_mid,
      proceedUntil, show t < cycles by omega, if_true, proceed_mid, andThen_next]
    rw [ih (t + 1) n l s pc _ (by omega) (by omega) (by omega) (by omega)]
    rw [show List.replicate (k + 1 + 1) BusCycle.idle = List.replicate (k + 1) .idle ++ [.idle] from
      List.replicate_succ']
    simp only [List.append_assoc, List.cons_append, List.nil_append]

/-- An unofficial instruction under `nop_with_cycles`: its bytes are fetched, and the other cycles are idle (R155). -/
theorem runSeq_nop {i : Instr} (hw : WellFormed i) {m : Operand} (hb : i.operandBytes = m.bytes)
    (hm : hasAddress m = true) (op : Operation) {cycles : Nat} (hc : m.mode.length < cycles ∧ cycles ≤ 8) (s : State) :
    runSeq i (.nop m.mode.length cycles) op s
      = .next (atBoundary (nextPc m s)
          (List.replicate (cycles - m.mode.length) .idle ++ operandFetches m s ++ .read s.pc (opcodeByte i) :: s.history)
          s) := by
  obtain ⟨hc, hc'⟩ := hc
  have second : ∀ (n len : Nat) (b c : Byte) (pc : Word) (h : List BusCycle), 2 ≤ len → 2 < cycles →
      runCycles (.given b c) op (n + 1) (mid s pc h ⟨opcodeByte i, .nop len cycles, 2, {}⟩)
        = runCycles (.given b c) op n (mid s (pc + 1) (.read pc b :: h) ⟨opcodeByte i, .nop len cycles, 3, {}⟩) := by
    intro n len b c pc h hl hk
    rw [runCycles_mid]
    simp only [microCycle, nopCycle, show ¬ (2 < 2 ∨ cycles < 2) by omega, if_false, hl, if_true, fetchSecond_mid,
      proceedUntil, hk, proceed_mid, andThen_next]
  have third : ∀ (n : Nat) (b c : Byte) (pc : Word) (h : List BusCycle), 3 < cycles →
      runCycles (.given b c) op (n + 1) (mid s pc h ⟨opcodeByte i, .nop 3 cycles, 3, {}⟩)
        = runCycles (.given b c) op n (mid s (pc + 1) (.read pc c :: h) ⟨opcodeByte i, .nop 3 cycles, 4, {}⟩) := by
    intro n b c pc h hk
    rw [runCycles_mid]
    simp only [microCycle, nopCycle, show ¬ (3 < 2 ∨ cycles < 3) by omega, if_false, Nat.le_refl, if_true,
      show ¬ (3 = 2) by omega, fetchThird_mid, proceedUntil, hk, proceed_mid, andThen_next]
  rw [runSeq_open hw, sourceOf_operand hb]
  cases m with
  | acc | imm _ => simp [hasAddress] at hm
  | zp b | zpx b | zpy b | izx b | izy b =>
    simp only [Operand.mode, Mode.length] at hc ⊢
    rw [operandSource, longestSequence, second _ _ _ _ _ _ (by omega) hc, branchNext,
      runCycles_idle (cycles - 3) _ _ _ _ _ _ (by omega) (by omega) (by omega) (by omega)]
    simp only [nextPc, Operand.mode, Mode.length, operandFetches, Operand.bytes, List.append_assoc, List.cons_append,
      List.nil_append, List.getD_cons_zero, show cycles - 3 + 1 = cycles - 2 by omega]
    rfl
  | abs w | abx w | aby w =>
    have two : s.pc + 2 + 1 = s.pc + BitVec.ofNat 16 3 := by bv_omega
    simp only [Operand.mode, Mode.length] at hc ⊢
    rw [operandSource, longestSequence, second _ _ _ _ _ _ (by omega) (by omega), branchNext, third _ _ _ _ _ (by omega),
      two, runCycles_idle (cycles - 4) _ _ _ _ _ _ (by omega) (by omega) (by omega) (by omega)]
    simp only [nextPc, Operand.mode, Mode.length, operandFetches, Operand.bytes, List.append_assoc, List.cons_append,
      List.nil_append, List.getD_cons_zero, List.getD_cons_succ, show cycles - 4 + 1 = cycles - 3 by omega]

/-! ## What an instruction that goes on could read

Each lemma is the converse of the one above: a run that answers a next state had the readable addresses that the lemma
asks for. -/

section
variable {i : Instr} (hw : WellFormed i) {m : Operand} {s t : State}
include hw

theorem runSeq_read_readable (hb : i.operandBytes = m.bytes) (hm : m ≠ .acc) {g : Byte → State → State}
    (h : runSeq i (.read m.mode) (.read g) s = .next t) : operandReadable m s = true := by
  by_cases hi : ∃ b, m = .imm b
  · obtain ⟨b, rfl⟩ := hi; rfl
  · have ha : hasAddress m = true := by cases m <;> simp_all [hasAddress]
    have hn : longestSequence = 5 - addressCycles m.mode + 2 + addressCycles m.mode := by cases m <;> rfl
    rw [runSeq_eq hw, sourceOf_operand hb, hn,
      runCycles_address ha (.inl ⟨rfl, hasAddress_ne_imm ha, g, rfl⟩)] at h
    exact runCycles_read_readable ha h

theorem runSeq_write_readable (hb : i.operandBytes = m.bytes) (hm : hasAddress m = true) {g : State → Byte}
    (h : runSeq i (.write m.mode) (.write g) s = .next t) : storeReadable m s = true := by
  have hn : longestSequence = 5 - addressCycles m.mode + 2 + addressCycles m.mode := by cases m <;> rfl
  rw [runSeq_eq hw, sourceOf_operand hb, hn, runCycles_address hm (.inr (.inl ⟨rfl, g, rfl⟩))] at h
  exact runCycles_write_readable h

theorem runSeq_rmw_readable (hb : i.operandBytes = m.bytes) (hm : hasAddress m = true)
    {g : Byte → State → Byte × State} (h : runSeq i (.rmw m.mode) (.rmw g) s = .next t) :
    operandReadable m s = true := by
  have hn : longestSequence
      = 4 - addressCycles m.mode - (isIndexed m).toNat + (3 + (isIndexed m).toNat) + addressCycles m.mode := by
    cases m <;> rfl
  rw [runSeq_eq hw, sourceOf_operand hb, hn, runCycles_address hm (.inr (.inr ⟨rfl, g, rfl⟩))] at h
  exact runCycles_rmw_readable hm h

theorem runSeq_internal_readable {g : State → State} (h : runSeq i .internal (.internal g) s = .next t) :
    readable s (s.pc + 1) = true := by
  rw [runSeq_open hw] at h
  simp only [longestSequence, runCycles_mid, microCycle, internalCycle, dummyRead, mid_pc, busRead_mid, andThen_assoc,
    andThen_eq_next] at h
  obtain ⟨v, hv, -⟩ := h
  exact readable_of_busValue hv

theorem runSeq_push_readable {g : State → Byte} (h : runSeq i .push (.push g) s = .next t) :
    readable s (s.pc + 1) = true := by
  rw [runSeq_open hw] at h
  simp only [longestSequence, runCycles_mid, microCycle, pushCycle, dummyRead, mid_pc, busRead_mid, andThen_assoc,
    andThen_eq_next] at h
  obtain ⟨v, hv, -⟩ := h
  exact readable_of_busValue hv

theorem runSeq_pull_readable {g : Byte → State → State} (h : runSeq i .pull (.pull g) s = .next t) :
    readable s (s.pc + 1) = true := by
  rw [runSeq_open hw] at h
  simp only [longestSequence, runCycles_mid, microCycle, pullCycle, dummyRead, mid_pc, busRead_mid, andThen_assoc,
    andThen_eq_next] at h
  obtain ⟨v, hv, -⟩ := h
  exact readable_of_busValue hv

theorem runSeq_rti_readable (h : runSeq i .rti .fixed s = .next t) : readable s (s.pc + 1) = true := by
  rw [runSeq_open hw] at h
  simp only [longestSequence, runCycles_mid, microCycle, returnCycle, dummyRead, mid_pc, busRead_mid, andThen_assoc,
    andThen_eq_next] at h
  obtain ⟨v, hv, -⟩ := h
  exact readable_of_busValue hv

theorem runSeq_rts_readable (h : runSeq i .rts .fixed s = .next t) :
    readable s (s.pc + 1) = true ∧ readable s (pulledWord 1 s) = true := by
  rw [runSeq_open hw] at h
  simp only [longestSequence, runCycles_mid, microCycle, rtsCycle, dummyRead, mid_pc, busRead_mid, andThen_assoc,
    andThen_eq_next] at h
  obtain ⟨v, hv, x, hx, y, hy, z, hz, h⟩ := h
  cases hx; cases hy; cases hz
  refine ⟨readable_of_busValue hv, ?_⟩
  simp only [proceed_mid, runCycles_mid, microCycle, rtsCycle, stackPreRead_mid, readStack_mid, andThen_next, bumpSp_mid,
    bumpSp_sp, ramRead_bumpSp, sp_one_one, setPc_mid, dummyRead, mid_pc, busRead_mid, pulledWord_one] at h
  simp only [andThen_assoc, andThen_eq_next] at h
  obtain ⟨w, hw', -⟩ := h
  exact readable_of_busValue hw'

theorem runSeq_jmpInd_readable {p : Word} (hb : i.operandBytes = [lo p, hi p])
    (h : runSeq i .jmpInd .fixed s = .next t) :
    readable s p = true ∧ readable s (pointerHigh (hi p) (lo p)) = true := by
  rw [runSeq_open hw] at h
  simp only [sourceOf, hb, List.getD_cons_zero, List.getD_cons_succ, longestSequence, runCycles_mid, microCycle,
    jmpIndCycle, fetchSecond_mid, fetchThird_mid, andThen_next, proceed_mid, word_hi_lo, busRead_mid, andThen_assoc,
    andThen_eq_next] at h
  obtain ⟨v, hv, w, hw', -⟩ := h
  exact ⟨readable_of_busValue hv, readable_of_busValue hw'⟩

theorem runSeq_branch_readable {off : Byte} (hb : i.operandBytes = [off]) {c : Flags → Bool} (hc : c s.p = true)
    (h : runSeq i .branch (.branch c) s = .next t) :
    readable s (s.pc + 2) = true
      ∧ (hi (branchTarget (s.pc + 2) off) ≠ hi (s.pc + 2) →
          readable s (word (hi (s.pc + 2)) (lo (branchTarget (s.pc + 2) off))) = true) := by
  rw [runSeq_open hw] at h
  simp only [sourceOf, hb, List.getD_cons_zero, longestSequence, runCycles_mid, microCycle, branchCycle, fetchSecond_mid,
    andThen_next, mid_p, mid_pc, hc, if_true, branchNext, proceed_mid, dummyRead, busRead_mid, andThen_assoc,
    andThen_eq_next] at h
  obtain ⟨v, hv, h⟩ := h
  refine ⟨readable_of_busValue hv, fun hp => ?_⟩
  simp only [hp, if_false, setPc_mid, proceed_mid] at h
  obtain ⟨z, hz, h⟩ := h
  cases hz
  simp only [runCycles_mid, microCycle, branchCycle, dummyRead, mid_pc, busRead_mid, andThen_assoc, andThen_eq_next] at h
  obtain ⟨w, hw', -⟩ := h
  exact readable_of_busValue hw'

end

end Sys2Proof.Machine
end

