-- ==== Sys2Proof/Laws/Exec.lean ====
section
/-! SUPPORT. `exec`, one class of instructions at a time, and the serial bus, one state at a time. -/

namespace Sys2Proof.Machine

/-- A documented instruction but JSR runs its sequence with its operation. -/
theorem exec_documented {i : Instr} (hd : classOf i.mnem = .documented) (hj : i.mnem ≠ .jsr) (s : State) :
    exec i s = runInstr i (operationOf i) s := by
  cases i <;> first | rfl | exact absurd rfl hj | cases hd

/-- JSR fetches its last byte after the pushes. -/
theorem exec_jsr (t : Word) (s : State) :
    exec (.jsr t) s = runInstr (.jsr (word (jsrHighByte t s) (lo t))) .fixed s := rfl

/-- A JSR sees no write of its own, unless its last byte lies at one of the two addresses it pushes to (R271, log 15). -/
theorem jsrHighByte_of_ne {t : Word} {s : State} (h1 : s.pc + 2 ≠ stackAddr s.sp)
    (h2 : s.pc + 2 ≠ stackAddr (s.sp - 1)) : jsrHighByte t s = hi t := by
  rw [jsrHighByte, if_neg h2, if_neg h1]

/-- So no JSR whose last byte lies outside the stack page sees a write of its own. -/
theorem jsrHighByte_off_stack {t : Word} {s : State} (h : hi (s.pc + 2) ≠ 1) : jsrHighByte t s = hi t :=
  jsrHighByte_of_ne (fun e => h (by rw [e, hi_stackAddr])) (fun e => h (by rw [e, hi_stackAddr]))

/-- An unofficial instruction runs as the policy says. -/
theorem exec_unofficial {i : Instr} (hu : classOf i.mnem = .unofficial) (s : State) :
    exec i s = runUnofficial i (operationOf i) s := by
  cases i <;> first | rfl | cases hu

/-- An illegal opcode halts the core at its fetch. -/
theorem exec_illegal {opc : Byte} (hw : WellFormed (.illegal opc)) (s : State) :
    exec (.illegal opc) s = .next (haltAt (.fatalHalt s.pc opc) opc s) := by
  have h : illegalOpcodes.contains opc = true := hw
  simp only [exec, execIllegal, Instr.opcode, h, if_true]

theorem runUnofficial_error {i : Instr} (hw : WellFormed i) {op : Operation} {s : State}
    (hp : s.params.unofficialPolicy = .error) :
    runUnofficial i op s = .next (haltAt (.unimplementedOpcode s.pc (opcodeByte i)) (opcodeByte i) s) := by
  simp only [runUnofficial, hp, opcode_of_wellFormed hw]

theorem runUnofficial_nop {i : Instr} {op : Operation} {s : State} (hp : s.params.unofficialPolicy = .nopWithCycles) :
    runUnofficial i op s = runSeq i (nopSeq i) op s := by
  simp only [runUnofficial, hp]

theorem runUnofficial_implement {i : Instr} {op : Operation} {s : State} (hp : s.params.unofficialPolicy = .implement) :
    runUnofficial i op s = runInstr i op s := by
  simp only [runUnofficial, hp]

/-! ## The serial bus -/

namespace SerialBus

variable (b : SerialBus) (ch out : Byte)

theorem edgeNotify_idle (h : b.sstate = .idle) : b.edgeNotify ch out = b.idleStep (lineAtn out) (lineClkLow out) := by
  simp only [edgeNotify, h]

theorem edgeNotify_talk (h : b.sstate = .talk) : b.edgeNotify ch out = b := by simp only [edgeNotify, h]

/-- Without a CLK rise nothing happens outside Idle. -/
theorem edgeNotify_noRise (h : b.sstate ≠ .idle) (hr : clkRise ch out = false) : b.edgeNotify ch out = b := by
  cases hs : b.sstate <;> simp_all [edgeNotify]

theorem edgeNotify_waitCommand (h : b.sstate = .waitCommand) (hr : clkRise ch out = true) :
    b.edgeNotify ch out = b.commandBit (lineBit out) := by
  simp only [edgeNotify, h, hr, if_true]

theorem edgeNotify_waitSecondary (h : b.sstate = .waitSecondaryAddress) (hr : clkRise ch out = true) :
    b.edgeNotify ch out = b.secondaryBit (lineBit out) := by
  simp only [edgeNotify, h, hr, if_true]

theorem edgeNotify_eoi (h : b.sstate = .eoi) (hr : clkRise ch out = true) : b.edgeNotify ch out = b.eoiPulse := by
  simp only [edgeNotify, h, hr, if_true]

theorem edgeNotify_listen (h : b.sstate = .listen) (hr : clkRise ch out = true) :
    b.edgeNotify ch out = b.listenBit (lineBit out) (lineAtn out) := by
  simp only [edgeNotify, h, hr, if_true]

end SerialBus

end Sys2Proof.Machine
end

