-- ==== Sys2Proof/Laws/Forms.lean ====
section
/-! SUPPORT. From one instruction's operation to the statement about all its forms. -/

namespace Sys2Proof.Machine

/-- What a statement about a family's forms needs to know of each form: it is an instruction with that opcode byte, and
its bytes are those of its operand. -/
def FormOk (k : Operand → Instr) (m : Operand) (opc : Byte) : Prop :=
  WellFormed (k m) ∧ opcodeByte (k m) = opc ∧ (k m).operandBytes = m.bytes

/-- A form list that agrees with the mnemonic's own lists makes every form an instruction. -/
theorem formOk_of {k : Operand → Instr} {n : Mnem} {forms : List (Mode × Byte)}
    (hb : ∀ m, (k m).operandBytes = m.bytes) (hwf : ∀ m, (k m).wellFormed = n.forms.contains m.mode)
    (ho : ∀ m, (k m).opcode = n.opcodes.lookup m.mode)
    (hl : ∀ e ∈ forms, n.forms.contains e.1 = true ∧ n.opcodes.lookup e.1 = some e.2) {m : Operand} {opc : Byte}
    (h : (m.mode, opc) ∈ forms) : FormOk k m opc :=
  ⟨(hwf m).trans (hl _ h).1, by rw [opcodeByte, ho m, (hl _ h).2]; rfl, hb m⟩

theorem ne_acc_of_mode {m : Operand} (h : m.mode ≠ .acc) : m ≠ .acc := fun e => h (e ▸ rfl)

theorem hasAddress_of_mode {m : Operand} (h : m.mode ≠ .acc ∧ m.mode ≠ .imm) : hasAddress m = true := by
  cases m <;> simp_all [hasAddress, Operand.mode]

/-- A read instruction, from its operation. -/
theorem readForms_of {k : Operand → Instr} {forms : List (Mode × Byte)} {ok : State → Prop} {f op : Byte → State → State}
    (hk : ∀ m opc, (m.mode, opc) ∈ forms → FormOk k m opc ∧ m ≠ .acc)
    (hr : ∀ m s, ok s → exec (k m) s = runSeq (k m) (.read m.mode) (.read op) s)
    (hf : ∀ v s pc h fl, ok s → finish (op v (mid s pc h fl)) = atBoundary pc h (f v s)) : ReadForms k forms ok f := by
  intro m opc s hmem hok hread
  obtain ⟨⟨hw, rfl, hb⟩, hm⟩ := hk m opc hmem
  obtain ⟨v, h, fl, h1, h2⟩ := runSeq_read hw hb hm hread op
  exact ⟨v, h, h1, by rw [hr m s hok, h2, hf v s _ h fl hok]⟩

/-- What a store leaves in RAM. -/
theorem ramRead_store (a : Word) (v : Byte) (w : Word) (s : State) (b : Word) :
    ramRead (busStore a v (setPc w s)) b = if b = a ∧ targetOf s a = .ram then v else ramRead s b :=
  ramRead_busStore a v (setPc w s) b

/-- A store, from the byte it stores. -/
theorem storeForms_of {k : Operand → Instr} {forms : List (Mode × Byte)} {ok : State → Prop} {val op : State → Byte}
    (hk : ∀ m opc, (m.mode, opc) ∈ forms → FormOk k m opc ∧ hasAddress m = true)
    (hr : ∀ m s, ok s → exec (k m) s = runSeq (k m) (.write m.mode) (.write op) s)
    (hf : ∀ s pc h fl, op (mid s pc h fl) = val s) : StoreForms k forms ok val := by
  intro m opc s hmem hok hread
  obtain ⟨⟨hw, rfl, hb⟩, hm⟩ := hk m opc hmem
  obtain ⟨h, fl, h1, h2⟩ := runSeq_write hw hb hm hread op
  refine ⟨_, h, by rw [hr m s hok, h2], h1, ?_, ?_, ?_⟩
  · rw [hf, busWrite_mid, finish_mid]
  · intro a ha
    rw [hf, busWrite_mid, finish_mid]
    exact (ramRead_store _ _ _ s a).trans (if_neg fun h => ha h.1)
  · rw [hf, busWrite_mid, finish_mid]
    exact (ramRead_store _ _ _ s _).trans (by simp only [true_and])

/-- A store changes where no access goes but through RAM[0x0001]. -/
theorem targetOf_busStore {a : Word} {v : Byte} {s : State} (b : Word) (h : a ≠ 1 ∨ targetOf s a ≠ .ram) :
    targetOf (busStore a v s) b = targetOf s b := by
  have : ramRead (busStore a v s) 1 = ramRead s 1 := by
    rw [ramRead_busStore]
    exact if_neg fun e => h.elim (fun h => h e.1.symm) fun h => h e.2
  simp only [targetOf, this]

/-- Zero page is RAM whatever the bank byte holds. -/
theorem targetOf_one (s : State) : targetOf s 1 = .ram := targetOf_zext16 s 1

/-- Two stores at one address leave the second byte. -/
theorem ramRead_busStore_twice (a : Word) (u v : Byte) (s : State) (b : Word) :
    ramRead (busStore a v (busStore a u s)) b = if b = a ∧ targetOf s a = .ram then v else ramRead s b := by
  by_cases h : a = 1
  · subst h; simp only [ramRead_busStore, targetOf_one]; split <;> simp_all
  · simp only [ramRead_busStore, targetOf_busStore a (.inl h)]; split <;> simp_all

/-- The state with A and P replaced. -/
def setAP (a : Byte) (p : Flags) (s : State) : State := { s with a := a, p := p }

@[simp] theorem setAP_mid (a : Byte) (p : Flags) (s : State) (pc : Word) (h : List BusCycle) (f : InFlight) :
    setAP a p (mid s pc h f) = mid (setAP a p s) pc h f := rfl

/-- A store sees neither A nor P. -/
theorem busStore_setAP (b : Word) (v : Byte) (a : Byte) (p : Flags) (s : State) :
    busStore b v (setAP a p s) = setAP a p (busStore b v s) :=
  (busStore_core b v s a s.x s.y s.sp p s.phase s.history).trans (by rw [busStore_frame b v s]; rfl)

theorem setPc_setAP (w : Word) (a : Byte) (p : Flags) (s : State) : setPc w (setAP a p s) = setAP a p (setPc w s) := rfl

theorem setPc_busStore (b w : Word) (v : Byte) (s : State) :
    setPc w (busStore b v (setPc w s)) = busStore b v (setPc w s) := by
  rw [busStore_frame b v (setPc w s)]; rfl

/-- A read-modify-write instruction, from its operation. -/
theorem rmwForms_of {k : Operand → Instr} {forms : List (Mode × Byte)} {ok : State → Prop}
    {sh : Byte → State → Byte × Byte × Flags} {op : Byte → State → Byte × State}
    (hk : ∀ m opc, (m.mode, opc) ∈ forms → FormOk k m opc ∧ hasAddress m = true)
    (hr : ∀ m s, hasAddress m = true → ok s → exec (k m) s = runSeq (k m) (.rmw m.mode) (.rmw op) s)
    (hf : ∀ v s t, t.a = s.a → t.p = s.p → t.params = s.params → ok s →
      op v t = ((sh v s).1, setAP (sh v s).2.1 (sh v s).2.2 t)) : RmwForms k forms ok sh := by
  intro m opc s hmem hok hread
  obtain ⟨⟨hw, rfl, hb⟩, hm⟩ := hk m opc hmem
  obtain ⟨v, h0, h, fl, h1, h2, h3⟩ := runSeq_rmw hw hb hm hread op
  have e := hf v s (mid (afterDummyWrite m v (nextPc m s) s) (nextPc m s)
    (.write (effectiveAddress m s) v (nextPc m s) :: h) fl)
    (busStore_a _ _ _) (busStore_p _ _ _) (busStore_params _ _ _) hok
  simp only [e] at h3
  simp only [setAP_mid, busWrite_mid, setPc_setAP, busStore_setAP, afterDummyWrite, setPc_busStore, finish_mid] at h3
  refine ⟨_, v, h0, h, (hr m s hm hok).trans h3, h1, h2, rfl, fun a ha => ?_, ?_⟩
  · exact (ramRead_busStore_twice _ _ _ (setPc (nextPc m s) s) a).trans (if_neg fun h => ha h.1)
  · refine (ramRead_busStore_twice _ _ _ (setPc (nextPc m s) s) _).trans ?_
    simp only [true_and]
    rfl

/-- An implied or accumulator instruction, from its operation. -/
theorem internalForm_of {i : Instr} {opc : Byte} {f op : State → State} (hw : WellFormed i) (ho : opcodeByte i = opc)
    (hr : ∀ s, exec i s = runSeq i .internal (.internal op) s)
    (hf : ∀ s pc h fl, finish (op (mid s pc h fl)) = atBoundary pc h (f s)) : InternalForm i opc f := by
  intro s hread
  subst ho
  obtain ⟨v, h, fl, h1, h2⟩ := runSeq_internal hw hread op
  exact ⟨v, h, h1, by rw [hr s, h2, hf]⟩

/-- A branch's target as an integer. -/
theorem toNat_branchTarget (q : Word) (off : Byte) :
    ((branchTarget (q + 2) off).toNat : Int) = (q.toNat + 2 + off.toInt) % 65536 := by
  have s : ∀ off : Byte, ((sext16 off).toNat : Int) = off.toInt % 65536 := by decide
  have s := s off
  have e : (branchTarget (q + 2) off).toNat = (q.toNat + 2 + (sext16 off).toNat) % 65536 := by
    have two : (2 : Word).toNat = 2 := rfl
    simp only [branchTarget, BitVec.toNat_add, two]; omega
  rw [e]; push_cast; rw [s]; omega

/-- A conditional branch, from its condition. -/
theorem branchForm_of {k : Byte → Instr} {opc : Byte} {taken : Flags → Prop} {c : Flags → Bool}
    (hw : ∀ off, WellFormed (k off) ∧ opcodeByte (k off) = opc ∧ (k off).operandBytes = [off])
    (hr : ∀ off s, exec (k off) s = runSeq (k off) .branch (.branch c) s) (hc : ∀ p, c p = true ↔ taken p) :
    BranchForm k opc taken := by
  intro off s
  obtain ⟨h, rfl, hb⟩ := hw off
  refine ⟨branchTarget (s.pc + 2) off, toNat_branchTarget s.pc off, fun ht => ?_, fun ht hp hread => ?_,
    fun ht hp hread hread' => ?_⟩
  · rw [hr, runSeq_branch_notTaken h hb (by simpa [← hc] using ht)]
  · simp only [hr]; exact runSeq_branch_taken h hb ((hc s.p).2 ht) hread hp
  · simp only [hr]; exact runSeq_branch_page h hb ((hc s.p).2 ht) hread hread' hp

end Sys2Proof.Machine
end

