-- ==== Sys2Proof/Laws/Cycle.lean ====
section
/-! SUPPORT. What one bus cycle can do, said once: it reads, it writes or it idles, and the core's own registers are all
it changes besides; and how a sequence moves on. -/

namespace Sys2Proof.Machine

/-- Two states differ in the core's registers and phase alone. -/
def RegsOnly (s t : State) : Prop :=
  t = { s with a := t.a, x := t.x, y := t.y, sp := t.sp, pc := t.pc, p := t.p, phase := t.phase }

theorem RegsOnly.refl (s : State) : RegsOnly s s := rfl

theorem RegsOnly.trans {s t u : State} (h : RegsOnly s t) (k : RegsOnly t u) : RegsOnly s u := by
  unfold RegsOnly at *
  rw [k, h]

/-- An operation changes the core's registers alone. -/
def Operation.regsOnly (op : Operation) : Prop :=
  match op with
  | .read f => ∀ v s, RegsOnly s (f v s)
  | .pull f => ∀ v s, RegsOnly s (f v s)
  | .rmw f => ∀ v s, RegsOnly s (f v s).2
  | .internal f => ∀ s, RegsOnly s (f s)
  | .write _ | .branch _ | .push _ | .fixed => True

theorem operationOf_regsOnly (i : Instr) : (operationOf i).regsOnly := by
  cases i with
  | asl m | lsr m | rol m | ror m => cases m <;> first | exact fun _ _ => rfl | exact fun _ => rfl
  | _ => first | exact True.intro | exact fun _ _ => rfl | exact fun _ => rfl

/-- What one cycle does to the state (R13): a read, a write, or nothing on the bus. A read of a running core has the
value that the bus gives. -/
def OneCycle (src : Source) (s t : State) : Prop :=
  (∃ a v, (src = .bus → busValue s a = .next v) ∧ RegsOnly (record (.read a v) s) t)
    ∨ (∃ a v s', RegsOnly s s' ∧ RegsOnly (busWrite a v s') t)
    ∨ RegsOnly (record .idle s) t

section
variable {src : Source} {s t : State}

theorem dummyRead_eq_next {a : Word} : dummyRead a s = .next t ↔ ∃ v, busValue s a = .next v ∧ t = record (.read a v) s := by
  simp only [dummyRead, busRead, andThen_assoc, andThen_next, andThen_eq_next, Host.Outcome.next.injEq]
  exact ⟨fun ⟨v, h, e⟩ => ⟨v, h, e.symm⟩, fun ⟨v, h, e⟩ => ⟨v, h, e.symm⟩⟩

theorem fetchOperand_eq_next {k : OperandByte} {r : Byte × State} (h : fetchOperand src k s = .next r) :
    (src = .bus → busValue s s.pc = .next r.1) ∧ r.2 = setPc (s.pc + 1) (record (.read s.pc r.1) s) := by
  cases src with
  | bus =>
    simp only [fetchOperand, busRead, andThen_assoc, andThen_next, andThen_eq_next, Host.Outcome.next.injEq] at h
    obtain ⟨v, hv, rfl⟩ := h
    exact ⟨fun _ => hv, rfl⟩
  | given b c => cases k <;> (simp only [fetchOperand, Host.Outcome.next.injEq] at h; subst h; exact ⟨nofun, rfl⟩)

theorem oneCycle_read {a : Word} {v : Byte} (hv : busValue s a = .next v) (h : RegsOnly (record (.read a v) s) t) :
    OneCycle src s t := .inl ⟨a, v, fun _ => hv, h⟩

theorem oneCycle_fetch {k : OperandByte} {r : Byte × State} (h : fetchOperand src k s = .next r) (ht : RegsOnly r.2 t) :
    OneCycle src s t := by
  obtain ⟨h1, h2⟩ := fetchOperand_eq_next h
  exact .inl ⟨s.pc, r.1, h1, RegsOnly.trans (by rw [h2]; rfl) ht⟩

theorem oneCycle_write {a : Word} {v : Byte} {s' : State} (h : RegsOnly s s') (ht : RegsOnly (busWrite a v s') t) :
    OneCycle src s t := .inr (.inl ⟨a, v, s', h, ht⟩)

theorem oneCycle_push {v : Byte} (ht : RegsOnly (pushByte v s) t) : OneCycle src s t :=
  oneCycle_write (a := stackAddr s.sp) (v := v) (RegsOnly.refl s) (RegsOnly.trans (t := pushByte v s) rfl ht)

theorem oneCycle_busRead {a : Word} {r : Byte × State} (h : busRead a s = .next r) (ht : RegsOnly r.2 t) :
    OneCycle src s t := by
  obtain ⟨h1, h2⟩ := busRead_eq_next.1 h
  exact oneCycle_read h1 (h2 ▸ ht)

theorem oneCycle_dummyRead {a : Word} {u : State} (h : dummyRead a s = .next u) (ht : RegsOnly u t) :
    OneCycle src s t := by
  obtain ⟨v, h1, h2⟩ := dummyRead_eq_next.1 h
  exact oneCycle_read h1 (h2 ▸ ht)

/-! ## The cycles of each sequence -/

theorem addressCycle_one {m : Mode} {n : Nat} {l : Latches} {r : Latches × State}
    (h : addressCycle src m n l s = .next r) (ht : RegsOnly r.2 t) : OneCycle src s t := by
  unfold addressCycle at h
  split at h <;> first
    | (obtain ⟨v, hv, e⟩ := andThen_eq_next.1 h
       cases e
       first
        | exact oneCycle_fetch hv ht
        | exact oneCycle_busRead hv ht
        | exact oneCycle_dummyRead hv ht)
    | cases h

theorem entryCycle_one {st : Flags → Byte} {f : InFlight} (h : entryCycle st f s = .next t) : OneCycle src s t := by
  unfold entryCycle at h
  split at h
  · cases h; exact oneCycle_push rfl
  · cases h; exact oneCycle_push rfl
  · cases h; exact oneCycle_push rfl
  · obtain ⟨v, hv, e⟩ := andThen_eq_next.1 h; cases e; exact oneCycle_busRead hv rfl
  · obtain ⟨v, hv, e⟩ := andThen_eq_next.1 h; cases e; exact oneCycle_busRead hv rfl
  · cases h

theorem returnCycle_one {f : InFlight} (h : returnCycle f s = .next t) : OneCycle src s t := by
  unfold returnCycle at h
  split at h
  · obtain ⟨v, hv, e⟩ := andThen_eq_next.1 h; cases e; exact oneCycle_dummyRead hv rfl
  · obtain ⟨v, hv, e⟩ := andThen_eq_next.1 h; cases e
    obtain ⟨w, hw, e⟩ := andThen_eq_next.1 hv; cases e; exact oneCycle_dummyRead hw rfl
  · obtain ⟨v, hv, e⟩ := andThen_eq_next.1 h; cases e; exact oneCycle_busRead hv rfl
  · obtain ⟨v, hv, e⟩ := andThen_eq_next.1 h; cases e; exact oneCycle_busRead hv rfl
  · obtain ⟨v, hv, e⟩ := andThen_eq_next.1 h; cases e; exact oneCycle_busRead hv rfl
  · cases h

theorem readAccess_one {g : Byte → State → State} (hg : ∀ v s, RegsOnly s (g v s)) {m : Mode} {k : Nat} {f : InFlight}
    (h : readAccess g m k f s = .next t) : OneCycle src s t := by
  have fin : ∀ a, finalRead g a s = .next t → OneCycle src s t := by
    intro a h
    obtain ⟨v, hv, e⟩ := andThen_eq_next.1 h; cases e
    exact oneCycle_busRead hv ((hg _ _).trans rfl)
  unfold readAccess at h
  split at h
  · exact fin _ h
  · split at h
    · obtain ⟨v, hv, e⟩ := andThen_eq_next.1 h; cases e; exact oneCycle_busRead hv rfl
    · exact fin _ h
  · exact fin _ h
  · cases h

theorem writeAccess_one {g : State → Byte} {m : Mode} {k : Nat} {f : InFlight} (h : writeAccess g m k f s = .next t) :
    OneCycle src s t := by
  unfold writeAccess at h
  split at h
  · obtain ⟨v, hv, e⟩ := andThen_eq_next.1 h; cases e; exact oneCycle_dummyRead hv rfl
  · cases h; exact oneCycle_write (RegsOnly.refl s) rfl
  · cases h; exact oneCycle_write (RegsOnly.refl s) rfl
  · cases h

theorem rmwAccess_one {g : Byte → State → Byte × State} (hg : ∀ v s, RegsOnly s (g v s).2) {m : Mode} {k : Nat}
    {f : InFlight} (h : rmwAccess g m k f s = .next t) : OneCycle src s t := by
  unfold rmwAccess at h
  split at h
  · obtain ⟨v, hv, e⟩ := andThen_eq_next.1 h; cases e; exact oneCycle_dummyRead hv rfl
  · obtain ⟨v, hv, e⟩ := andThen_eq_next.1 h; cases e; exact oneCycle_busRead hv rfl
  · obtain ⟨v, hv, e⟩ := andThen_eq_next.1 h; cases e; exact oneCycle_busRead hv rfl
  · cases h; exact oneCycle_write (RegsOnly.refl s) rfl
  · cases h; exact oneCycle_write (RegsOnly.refl s) rfl
  · cases h; exact oneCycle_write (hg _ _) rfl
  · cases h; exact oneCycle_write (hg _ _) rfl
  · cases h

theorem accessCycle_one {m : Mode} {access : Nat → InFlight → State → Result State} {f : InFlight}
    (ha : ∀ k, access k f s = .next t → OneCycle src s t) (h : accessCycle src m access f s = .next t) :
    OneCycle src s t := by
  unfold accessCycle at h
  split at h
  · obtain ⟨r, hr, e⟩ := andThen_eq_next.1 h; cases e; exact addressCycle_one hr rfl
  · exact ha _ h

/-- Every cycle of a sequence is one bus cycle and an update of the core's registers. -/
theorem microCycle_one {op : Operation} {f : InFlight} (hop : op.regsOnly) (h : microCycle src op f s = .next t) :
    OneCycle src s t := by
  unfold microCycle at h
  split at h
  · unfold internalCycle at h
    split at h
    · obtain ⟨v, hv, e⟩ := andThen_eq_next.1 h; cases e; exact oneCycle_dummyRead hv ((hop _).trans rfl)
    · cases h
  · unfold immediateCycle at h
    split at h
    · obtain ⟨v, hv, e⟩ := andThen_eq_next.1 h; cases e; exact oneCycle_fetch hv ((hop _ _).trans rfl)
    · cases h
  · exact accessCycle_one (fun k => readAccess_one hop) h
  · exact accessCycle_one (fun k => writeAccess_one) h
  · exact accessCycle_one (fun k => rmwAccess_one hop) h
  · unfold branchCycle at h
    split at h
    · obtain ⟨v, hv, e⟩ := andThen_eq_next.1 h
      split at e <;> (cases e; exact oneCycle_fetch hv rfl)
    · obtain ⟨v, hv, e⟩ := andThen_eq_next.1 h
      split at e <;> (cases e; exact oneCycle_dummyRead hv rfl)
    · obtain ⟨v, hv, e⟩ := andThen_eq_next.1 h; cases e; exact oneCycle_dummyRead hv rfl
    · cases h
  · unfold jmpAbsCycle at h
    split at h <;> first
      | (obtain ⟨v, hv, e⟩ := andThen_eq_next.1 h; cases e; exact oneCycle_fetch hv rfl)
      | cases h
  · unfold jmpIndCycle at h
    split at h <;> first
      | (obtain ⟨v, hv, e⟩ := andThen_eq_next.1 h; cases e; exact oneCycle_fetch hv rfl)
      | (obtain ⟨v, hv, e⟩ := andThen_eq_next.1 h; cases e; exact oneCycle_busRead hv rfl)
      | cases h
  · unfold jsrCycle at h
    split at h <;> first
      | (obtain ⟨v, hv, e⟩ := andThen_eq_next.1 h; cases e; exact oneCycle_fetch hv rfl)
      | (obtain ⟨v, hv, e⟩ := andThen_eq_next.1 h; cases e; exact oneCycle_dummyRead hv rfl)
      | (cases h; exact oneCycle_push rfl)
      | cases h
  · unfold rtsCycle at h
    split at h <;> first
      | (obtain ⟨v, hv, e⟩ := andThen_eq_next.1 h; cases e; exact oneCycle_busRead hv rfl)
      | (obtain ⟨v, hv, e⟩ := andThen_eq_next.1 h; cases e; exact oneCycle_dummyRead hv rfl)
      | (obtain ⟨v, hv, e⟩ := andThen_eq_next.1 h; cases e
         obtain ⟨w, hw, e⟩ := andThen_eq_next.1 hv; cases e; exact oneCycle_dummyRead hw rfl)
      | cases h
  · exact returnCycle_one h
  · unfold pushCycle at h
    split at h <;> first
      | (obtain ⟨v, hv, e⟩ := andThen_eq_next.1 h; cases e; exact oneCycle_dummyRead hv rfl)
      | (cases h; exact oneCycle_push rfl)
      | cases h
  · unfold pullCycle at h
    split at h <;> first
      | (obtain ⟨v, hv, e⟩ := andThen_eq_next.1 h; cases e; exact oneCycle_dummyRead hv rfl)
      | (obtain ⟨v, hv, e⟩ := andThen_eq_next.1 h; cases e
         obtain ⟨w, hw, e⟩ := andThen_eq_next.1 hv; cases e; exact oneCycle_dummyRead hw rfl)
      | (obtain ⟨v, hv, e⟩ := andThen_eq_next.1 h; cases e; exact oneCycle_busRead hv ((hop _ _).trans rfl))
      | cases h
  · unfold brkCycle at h
    split at h
    · obtain ⟨v, hv, e⟩ := andThen_eq_next.1 h; cases e; exact oneCycle_fetch hv rfl
    · exact entryCycle_one h
  · unfold irqCycle at h
    split at h
    · obtain ⟨v, hv, e⟩ := andThen_eq_next.1 h; cases e; exact oneCycle_dummyRead hv rfl
    · exact entryCycle_one h
  · have until_regs : ∀ n u, RegsOnly u (proceedUntil n f u) := by
      intro n u; unfold proceedUntil; split <;> rfl
    unfold nopCycle at h
    split at h
    · cases h
    · split at h
      · obtain ⟨v, hv, e⟩ := andThen_eq_next.1 h; cases e; exact oneCycle_fetch hv (until_regs _ _)
      · cases h; exact .inr (.inr (until_regs _ _))
  · cases h

end

/-! ## What no cycle changes -/

/-- What every bus cycle keeps: the ROM images, the parameters, the latches, the halt, the external time; a set redraw
flag; the deliveries, the serial events and the record so far; the canonical memories and the sound serial bus. -/
structure Kept (s t : State) : Prop where
  kernalRom : t.kernalRom = s.kernalRom
  basicRom : t.basicRom = s.basicRom
  romsOpen : t.romsOpen = s.romsOpen
  params : t.params = s.params
  pausePending : t.pausePending = s.pausePending
  irqPending : t.irqPending = s.irqPending
  halt : t.halt = s.halt
  extTime : t.extTime = s.extTime
  redraw : s.redrawNeeded = true → t.redrawNeeded = true
  deliveries : ∃ new, t.deliveries = s.deliveries ++ new
  events : ∃ new, t.serial.events = s.serial.events ++ new
  history : ∃ new, t.history = new ++ s.history
  memory : memorySound s = true → memorySound t = true
  serial : serialSound s = true → serialSound t = true

theorem Kept.refl (s : State) : Kept s s :=
  ⟨rfl, rfl, rfl, rfl, rfl, rfl, rfl, rfl, id, ⟨[], by simp⟩, ⟨[], by simp⟩, ⟨[], rfl⟩, id, id⟩

theorem Kept.trans {s t u : State} (h : Kept s t) (k : Kept t u) : Kept s u where
  kernalRom := k.kernalRom.trans h.kernalRom
  basicRom := k.basicRom.trans h.basicRom
  romsOpen := k.romsOpen.trans h.romsOpen
  params := k.params.trans h.params
  pausePending := k.pausePending.trans h.pausePending
  irqPending := k.irqPending.trans h.irqPending
  halt := k.halt.trans h.halt
  extTime := k.extTime.trans h.extTime
  redraw := fun e => k.redraw (h.redraw e)
  deliveries := by
    obtain ⟨a, ha⟩ := h.deliveries
    obtain ⟨b, hb⟩ := k.deliveries
    exact ⟨a ++ b, by rw [hb, ha, List.append_assoc]⟩
  events := by
    obtain ⟨a, ha⟩ := h.events
    obtain ⟨b, hb⟩ := k.events
    exact ⟨a ++ b, by rw [hb, ha, List.append_assoc]⟩
  history := by
    obtain ⟨a, ha⟩ := h.history
    obtain ⟨b, hb⟩ := k.history
    exact ⟨b ++ a, by rw [hb, ha, List.append_assoc]⟩
  memory := fun e => k.memory (h.memory e)
  serial := fun e => k.serial (h.serial e)

theorem RegsOnly.kept {s t : State} (h : RegsOnly s t) : Kept s t := by
  rw [h]
  exact ⟨rfl, rfl, rfl, rfl, rfl, rfl, rfl, rfl, id, ⟨[], by simp⟩, ⟨[], by simp⟩, ⟨[], rfl⟩, id, id⟩

theorem RegsOnly.history {s t : State} (h : RegsOnly s t) : t.history = s.history := by rw [h]

theorem record_kept (c : BusCycle) (s : State) : Kept s (record c s) :=
  ⟨rfl, rfl, rfl, rfl, rfl, rfl, rfl, rfl, id, ⟨[], by simp⟩, ⟨[], by simp⟩, ⟨[c], rfl⟩, id, id⟩

/-! ### The serial bus keeps its bounds -/

/-- The serial machine between two notifications: fewer than 8 bits are shifted in, the primary address is below 32. -/
def SerialBus.sound (b : SerialBus) : Prop := b.nbits < 8 ∧ b.primary < 32

theorem and_1F_lt (c : Byte) : c &&& 0x1F < 32 := by revert c; decide

theorem SerialBus.edgeNotify_sound (ch out : Byte) {b : SerialBus} (h : b.sound) : (b.edgeNotify ch out).sound := by
  obtain ⟨h1, h2⟩ := h
  have z : (0 : Nat) < 8 := by decide
  unfold SerialBus.edgeNotify
  dsimp only
  split
  · unfold SerialBus.idleStep; split
    · exact ⟨z, h2⟩
    · exact ⟨h1, h2⟩
  · split
    · unfold SerialBus.commandBit SerialBus.shift; dsimp only
      split
      · unfold SerialBus.command
        split
        · exact ⟨z, and_1F_lt _⟩
        · split
          · exact ⟨z, and_1F_lt _⟩
          · exact ⟨z, h2⟩
      · exact ⟨by show b.nbits + 1 < 8; omega, h2⟩
    · exact ⟨h1, h2⟩
  · split
    · unfold SerialBus.secondaryBit SerialBus.shift; dsimp only
      split
      · exact ⟨z, h2⟩
      · exact ⟨by show b.nbits + 1 < 8; omega, h2⟩
    · exact ⟨h1, h2⟩
  · split
    · exact ⟨z, h2⟩
    · exact ⟨h1, h2⟩
  · split
    · unfold SerialBus.listenBit SerialBus.shift; dsimp only
      split
      · unfold SerialBus.listenByte
        split
        · split
          · exact ⟨z, h2⟩
          · exact ⟨z, h2⟩
        · exact ⟨z, h2⟩
      · exact ⟨by show b.nbits + 1 < 8; omega, h2⟩
    · exact ⟨h1, h2⟩
  · exact ⟨h1, h2⟩

theorem serialSound_iff {s : State} :
    serialSound s = true ↔ s.serial.sound ∧ s.outA2 = s.cia2.pra &&& s.cia2.ddra := by
  simp only [serialSound, Bool.and_eq_true, decide_eq_true_eq, SerialBus.sound]

/-- After the output byte has followed the ports, it is the masked data. -/
theorem updateOutA2_sound {s : State} (h : s.serial.sound) : serialSound (updateOutA2 s) = true := by
  rw [serialSound_iff]
  unfold updateOutA2
  dsimp only
  split
  · next e => exact ⟨h, e.symm⟩
  · exact ⟨SerialBus.edgeNotify_sound _ _ h, rfl⟩

theorem ciaWrite_sound {n : CiaId} {off : BitVec 4} {v : Byte} {s : State} (h : serialSound s = true) :
    serialSound (ciaWrite n off v s) = true := by
  obtain ⟨h1, h2⟩ := serialSound_iff.1 h
  unfold ciaWrite
  dsimp only
  split
  · split
    · exact updateOutA2_sound (by cases n <;> exact h1)
    · next hn =>
      cases n with
      | cia1 => exact h
      | cia2 =>
        have : (s.cia2.write off v).pra &&& (s.cia2.write off v).ddra = s.cia2.pra &&& s.cia2.ddra := by
          unfold CiaPorts.write
          simp only [true_and, not_or] at hn
          rw [if_neg hn.1]; split
          · rfl
          · rw [if_neg hn.2]; split <;> rfl
        exact serialSound_iff.2 ⟨h1, h2.trans this.symm⟩
  · exact h

/-- A notification adds at most an event at the end; only the host takes events away (R365, R376). -/
theorem SerialBus.edgeNotify_events (ch out : Byte) (b : SerialBus) :
    ∃ new, (b.edgeNotify ch out).events = b.events ++ new := by
  have same : ∃ new, b.events = b.events ++ new := ⟨[], by simp⟩
  unfold SerialBus.edgeNotify
  dsimp only
  split
  · unfold SerialBus.idleStep; split <;> exact same
  · split
    · unfold SerialBus.commandBit SerialBus.shift; dsimp only
      split
      · unfold SerialBus.command; split
        · exact same
        · split <;> exact same
      · exact same
    · exact same
  · split
    · unfold SerialBus.secondaryBit; dsimp only; split <;> exact same
    · exact same
  · split <;> exact same
  · split
    · unfold SerialBus.listenBit SerialBus.shift; dsimp only
      split
      · unfold SerialBus.listenByte
        split
        · split
          · exact ⟨_, rfl⟩
          · exact same
        · exact same
      · exact same
    · exact same
  · exact same

theorem updateOutA2_events (s : State) : ∃ new, (updateOutA2 s).serial.events = s.serial.events ++ new := by
  unfold updateOutA2
  dsimp only
  split
  · exact ⟨[], by simp⟩
  · exact SerialBus.edgeNotify_events _ _ _

theorem ciaWrite_events (n : CiaId) (off : BitVec 4) (v : Byte) (s : State) :
    ∃ new, (ciaWrite n off v s).serial.events = s.serial.events ++ new := by
  unfold ciaWrite
  dsimp only
  split
  · split
    · obtain ⟨new, h⟩ := updateOutA2_events (setCiaPorts n ((ciaPorts n s).write off v) s)
      exact ⟨new, h.trans (by cases n <;> rfl)⟩
    · exact ⟨[], by cases n <;> simp [setCiaPorts]⟩
  · exact ⟨[], (List.append_nil _).symm⟩

theorem busStore_kept (a : Word) (v : Byte) (s : State) : Kept s (busStore a v s) where
  kernalRom := by simp
  basicRom := by simp
  romsOpen := by simp
  params := by simp
  pausePending := by simp
  irqPending := by simp
  halt := by simp
  extTime := by simp
  redraw := by
    intro h
    unfold busStore
    cases targetOf s a with
    | cia n off =>
      dsimp only [ciaWrite]
      split
      · split
        · rw [updateOutA2_frame]; cases n <;> exact h
        · cases n <;> exact h
      · exact h
    | ram => simp [h]
    | _ => exact h
  deliveries := by
    unfold busStore
    cases targetOf s a with
    | cia n off =>
      dsimp only [ciaWrite]
      split
      · refine ⟨[], ?_⟩
        split
        · rw [updateOutA2_frame]; cases n <;> exact (List.append_nil _).symm
        · cases n <;> exact (List.append_nil _).symm
      · exact ⟨_, rfl⟩
    | vic off => exact ⟨_, rfl⟩
    | _ => exact ⟨[], (List.append_nil _).symm⟩
  events := by
    unfold busStore
    cases targetOf s a with
    | cia n off => exact ciaWrite_events n off v s
    | _ => exact ⟨[], (List.append_nil _).symm⟩
  history := ⟨[], by simp⟩
  memory := by
    intro h
    have hram : (busStore a v s).ram = s.ram ∨ (busStore a v s).ram = s.ram.set ramUnlisted a.toNat v := by
      unfold busStore
      cases targetOf s a with
      | cia n off =>
        dsimp only [ciaWrite]
        refine .inl ?_
        split
        · split
          · rw [updateOutA2_frame]; cases n <;> rfl
          · cases n <;> rfl
        · rfl
      | ram => exact .inr rfl
      | _ => exact .inl rfl
    simp only [memorySound, busStore_kernalRom, busStore_basicRom, Bool.and_eq_true] at h ⊢
    refine ⟨⟨?_, h.1.2⟩, h.2⟩
    rcases hram with e | e
    · rw [e]; exact h.1.1
    · rw [e]; exact Memory.wf_set _ _ _ _ a.isLt h.1.1
  serial := by
    intro h
    unfold busStore
    cases targetOf s a with
    | cia n off => exact ciaWrite_sound h
    | _ => exact h

theorem busWrite_kept (a : Word) (v : Byte) (s : State) : Kept s (busWrite a v s) :=
  (busStore_kept a v s).trans (record_kept _ _)

/-- A bus cycle keeps what every bus cycle keeps, and adds exactly one entry to the record. -/
theorem OneCycle.kept {src : Source} {s t : State} (h : OneCycle src s t) :
    Kept s t ∧ ∃ c, t.history = c :: s.history := by
  rcases h with ⟨a, v, -, h⟩ | ⟨a, v, s', h, k⟩ | h
  · exact ⟨(record_kept _ s).trans h.kept, _, h.history⟩
  · exact ⟨h.kept.trans ((busWrite_kept a v s').trans k.kept), .write a v s'.pc,
      k.history.trans (by rw [busWrite_history, h.history])⟩
  · exact ⟨(record_kept _ s).trans h.kept, _, h.history⟩

end Sys2Proof.Machine
end

