-- ==== Sys2Proof/Laws/Progress.lean ====
section
/-! SUPPORT. A sound sequence never faults: each cycle moves to the next one or ends the instruction, and the only
refusal is a read of an absent BASIC image. -/

namespace Sys2Proof.Machine

/-- The mode has an effective address. -/
def addressMode : Mode → Bool
  | .zp | .zpx | .zpy | .abs | .abx | .aby | .izx | .izy => true
  | _ => false

/-- The sequence and the operation belong together. -/
def compatible (q : Seq) (op : Operation) : Bool :=
  match q with
  | .internal => (match op with | .internal _ => true | _ => false)
  | .read m => (match op with | .read _ => addressMode m || decide (m = .imm) | _ => false)
  | .write m => (match op with | .write _ => addressMode m | _ => false)
  | .rmw m => (match op with | .rmw _ => addressMode m | _ => false)
  | .branch => (match op with | .branch _ => true | _ => false)
  | .push => (match op with | .push _ => true | _ => false)
  | .pull => (match op with | .pull _ => true | _ => false)
  | .jmpAbs | .jmpInd | .jsr | .rts | .rti | .brk | .irq | .nop _ _ => true

/-- The sequence that an opcode's fetch selects belongs to the opcode's operation. -/
theorem compatible_of_fits {f : InFlight} (h : seqFits f = true) :
    compatible f.seq (operationOf (instrOf f.opc 0 0)) = true := by
  have key : ∀ opc : Byte, classOf (instrOf opc 0 0).mnem ≠ .illegal →
      compatible (instrSeq (instrOf opc 0 0)) (operationOf (instrOf opc 0 0)) = true := by decide +kernel
  simp only [seqFits, Bool.or_eq_true, Bool.and_eq_true, beq_iff_eq, bne_iff_ne] at h
  rcases h with (h | h) | h
  · rw [h]; rfl
  · rw [h.2]; exact key f.opc h.1
  · rw [h.2]; rfl

/-- After a cycle of `f` the instruction has ended, or it goes on with its next cycle. -/
def Moves (f : InFlight) (t : State) : Prop :=
  t.phase = .fetchOpcode ∨ (f.t < lastCycle f.seq ∧ ∃ l, t.phase = .runMicroSteps { f with t := f.t + 1, latches := l })

theorem moves_finish {f : InFlight} (s : State) : Moves f (finish s) := .inl rfl

theorem moves_proceed {f : InFlight} (h : f.t < lastCycle f.seq) (l : Latches) (s : State) : Moves f (proceed f l s) :=
  .inr ⟨h, l, rfl⟩

/-- The result of a cycle that can only miss a BASIC image. -/
def Progress (s : State) (f : InFlight) (r : Result State) : Prop :=
  (∃ t, r = .next t ∧ Moves f t) ∨ (r = .refused .basicRomAbsent ∧ s.basicRom = none)

section
variable {s : State} {f : InFlight}

theorem progress_next {t : State} (h : Moves f t) : Progress s f (.next t) := .inl ⟨t, rfl, h⟩

theorem busRead_cases (a : Word) (s : State) :
    (∃ v, busRead a s = .next (v, record (.read a v) s)) ∨ (busRead a s = .refused .basicRomAbsent ∧ s.basicRom = none) := by
  rcases busValue_readable s a with ⟨-, v, h⟩ | ⟨h, h'⟩
  · exact .inl ⟨v, busRead_of_busValue h⟩
  · refine .inr ⟨by rw [busRead, h', andThen_refused], ?_⟩
    simp only [readable, Bool.or_eq_false_iff] at h
    simpa using h.2

theorem progress_read {a : Word} {k : Byte × State → Result State} (h : ∀ r, Progress s f (k r)) :
    Progress s f (andThen (busRead a s) k) := by
  rcases busRead_cases a s with ⟨v, e⟩ | ⟨e, e'⟩
  · rw [e]; exact h _
  · exact .inr ⟨by rw [e]; rfl, e'⟩

theorem progress_dummy {a : Word} {k : State → Result State} (h : ∀ t, Progress s f (k t)) :
    Progress s f (andThen (dummyRead a s) k) := by
  rw [dummyRead, andThen_assoc]
  exact progress_read fun r => h r.2

theorem progress_fetch {src : Source} {b : OperandByte} {k : Byte × State → Result State}
    (h : ∀ r, Progress s f (k r)) : Progress s f (andThen (fetchOperand src b s) k) := by
  cases src with
  | bus => rw [fetchOperand, andThen_assoc]; exact progress_read fun r => h _
  | given b2 b3 => cases b <;> exact h _

theorem progress_address {src : Source} {m : Mode} {n : Nat} {l : Latches} {k : Latches × State → Result State}
    (h1 : 2 ≤ n) (h2 : n < 2 + addressCycles m) (h : ∀ r, Progress s f (k r)) :
    Progress s f (andThen (addressCycle src m n l s) k) := by
  unfold addressCycle
  split <;> first
    | (rw [andThen_assoc]; exact progress_fetch fun r => h _)
    | (rw [andThen_assoc]; exact progress_read fun r => h _)
    | (rw [andThen_assoc]; exact progress_dummy fun r => h _)
    | (exfalso; cases m <;> simp only [addressCycles] at h2 <;> first
        | omega
        | (obtain rfl | rfl | rfl | rfl : n = 2 ∨ n = 3 ∨ n = 4 ∨ n = 5 := by omega
           all_goals first | omega | simp_all))

theorem progress_access {src : Source} {m : Mode} {access : Nat → InFlight → State → Result State}
    (h2 : 2 ≤ f.t) (hl : 1 + addressCycles m < lastCycle f.seq)
    (h : ∀ k, f.t = 2 + addressCycles m + k → Progress s f (access k f s)) :
    Progress s f (accessCycle src m access f s) := by
  unfold accessCycle
  split
  · next ht => exact progress_address h2 ht fun r => progress_next (moves_proceed (by omega) _ _)
  · next ht => exact h _ (by omega)

theorem progress_entry {st : Flags → Byte} (h : 3 ≤ f.t ∧ f.t ≤ 7) (hl : lastCycle f.seq = 7) :
    Progress s f (entryCycle st f s) := by
  have mv : f.t ≠ 7 → f.t < lastCycle f.seq := by omega
  unfold entryCycle
  split
  · exact progress_next (moves_proceed (mv (by omega)) _ _)
  · exact progress_next (moves_proceed (mv (by omega)) _ _)
  · exact progress_next (moves_proceed (mv (by omega)) _ _)
  · exact progress_read fun r => progress_next (moves_proceed (mv (by omega)) _ _)
  · exact progress_read fun r => progress_next (moves_finish _)
  · next h3 h4 h5 h6 h7 =>
    exfalso
    obtain ⟨a, b⟩ := h
    have : f.t = 3 ∨ f.t = 4 ∨ f.t = 5 ∨ f.t = 6 ∨ f.t = 7 := by omega
    rcases this with h | h | h | h | h <;> simp_all

theorem progress_return (h : 2 ≤ f.t ∧ f.t ≤ 6) (hl : lastCycle f.seq = 6) : Progress s f (returnCycle f s) := by
  have mv : f.t ≠ 6 → f.t < lastCycle f.seq := by omega
  unfold returnCycle
  split
  · exact progress_dummy fun r => progress_next (moves_proceed (mv (by omega)) _ _)
  · rw [stackPreRead, andThen_assoc]
    exact progress_dummy fun r => progress_next (moves_proceed (mv (by omega)) _ _)
  · exact progress_read fun r => progress_next (moves_proceed (mv (by omega)) _ _)
  · exact progress_read fun r => progress_next (moves_proceed (mv (by omega)) _ _)
  · exact progress_read fun r => progress_next (moves_finish _)
  · exfalso
    obtain ⟨a, b⟩ := h
    have : f.t = 2 ∨ f.t = 3 ∨ f.t = 4 ∨ f.t = 5 ∨ f.t = 6 := by omega
    rcases this with h | h | h | h | h <;> simp_all

theorem progress_finalRead {g : Byte → State → State} {a : Word} : Progress s f (finalRead g a s) :=
  progress_read fun _ => progress_next (moves_finish _)

theorem progress_readAccess {g : Byte → State → State} {m : Mode} {k : Nat} (h0 : k ≤ (indexedMode m).toNat)
    (hl : k < (indexedMode m).toNat → f.t < lastCycle f.seq) : Progress s f (readAccess g m k f s) := by
  unfold readAccess
  cases hi : indexedMode m
  · obtain rfl : k = 0 := by simpa [hi] using h0
    exact progress_finalRead
  · obtain rfl | rfl : k = 0 ∨ k = 1 := by simp only [hi, Bool.toNat_true] at h0; omega
    · by_cases hf : f.latches.fix = true
      · dsimp only
        rw [if_pos hf]
        exact progress_read fun _ => progress_next (moves_proceed (hl (by simp [hi])) _ _)
      · dsimp only
        rw [if_neg hf]
        exact progress_finalRead
    · exact progress_finalRead

theorem progress_writeAccess {g : State → Byte} {m : Mode} {k : Nat} (h0 : k ≤ (indexedMode m).toNat)
    (hl : k < (indexedMode m).toNat → f.t < lastCycle f.seq) : Progress s f (writeAccess g m k f s) := by
  unfold writeAccess
  cases hi : indexedMode m
  · obtain rfl : k = 0 := by simpa [hi] using h0
    exact progress_next (moves_finish _)
  · obtain rfl | rfl : k = 0 ∨ k = 1 := by simp only [hi, Bool.toNat_true] at h0; omega
    · exact progress_dummy fun r => progress_next (moves_proceed (hl (by simp [hi])) _ _)
    · exact progress_next (moves_finish _)

theorem progress_rmwAccess {g : Byte → State → Byte × State} {m : Mode} {k : Nat} (h0 : k ≤ 2 + (indexedMode m).toNat)
    (hl : k < 2 + (indexedMode m).toNat → f.t < lastCycle f.seq) : Progress s f (rmwAccess g m k f s) := by
  unfold rmwAccess
  cases hi : indexedMode m
  · obtain rfl | rfl | rfl : k = 0 ∨ k = 1 ∨ k = 2 := by simp only [hi, Bool.toNat_false] at h0; omega
    · exact progress_read fun r => progress_next (moves_proceed (hl (by simp [hi])) _ _)
    · exact progress_next (moves_proceed (hl (by simp [hi])) _ _)
    · exact progress_next (moves_finish _)
  · obtain rfl | rfl | rfl | rfl : k = 0 ∨ k = 1 ∨ k = 2 ∨ k = 3 := by simp only [hi, Bool.toNat_true] at h0; omega
    · exact progress_dummy fun r => progress_next (moves_proceed (hl (by simp [hi])) _ _)
    · exact progress_read fun r => progress_next (moves_proceed (hl (by simp [hi])) _ _)
    · exact progress_next (moves_proceed (hl (by simp [hi])) _ _)
    · exact progress_next (moves_finish _)

end

/-- A cycle of a sound instruction in progress moves on, ends it, or misses the BASIC image. -/
theorem microCycle_progress {src : Source} {op : Operation} {f : InFlight} (hc : compatible f.seq op = true)
    (h2 : 2 ≤ f.t) (hl : f.t ≤ lastCycle f.seq) (s : State) : Progress s f (microCycle src op f s) := by
  obtain ⟨opc, q, t, l⟩ := f
  dsimp only at hc h2 hl
  have mv : ∀ l' s', t < lastCycle q → Progress s ⟨opc, q, t, l⟩ (.next (proceed ⟨opc, q, t, l⟩ l' s')) :=
    fun l' s' h => progress_next (moves_proceed h _ _)
  have fin : ∀ s', Progress s ⟨opc, q, t, l⟩ (.next (finish s')) := fun s' => progress_next (moves_finish _)
  cases q with
  | internal =>
    cases op <;> cases hc
    obtain rfl : t = 2 := by simp only [lastCycle, Seq.baseCycles] at hl; omega
    exact progress_dummy fun r => fin _
  | read m =>
    cases op <;> first | cases hc | skip
    cases m <;> first | (simp [compatible, addressMode] at hc; done) | skip
    case imm =>
      obtain rfl : t = 2 := by simp only [lastCycle, Seq.baseCycles] at hl; omega
      exact progress_fetch fun r => fin _
    all_goals
      refine progress_access h2 (by simp [lastCycle, Seq.baseCycles, addressCycles]) fun k hk => ?_
      simp only [lastCycle, Seq.baseCycles] at hl
      simp only [addressCycles] at hk
      refine progress_readAccess ?_ ?_
      · simp only [indexedMode, Bool.toNat_true, Bool.toNat_false]; omega
      · simp only [indexedMode, Bool.toNat_true, Bool.toNat_false, lastCycle, Seq.baseCycles]; omega
  | write m =>
    cases op <;> first | cases hc | skip
    cases m <;> first | (simp [compatible, addressMode] at hc; done) | skip
    all_goals
      refine progress_access h2 (by simp [lastCycle, Seq.baseCycles, addressCycles]) fun k hk => ?_
      simp only [lastCycle, Seq.baseCycles] at hl
      simp only [addressCycles] at hk
      refine progress_writeAccess ?_ ?_
      · simp only [indexedMode, Bool.toNat_true, Bool.toNat_false]; omega
      · simp only [indexedMode, Bool.toNat_true, Bool.toNat_false, lastCycle, Seq.baseCycles]; omega
  | rmw m =>
    cases op <;> first | cases hc | skip
    cases m <;> first | (simp [compatible, addressMode] at hc; done) | skip
    all_goals
      refine progress_access h2 (by simp [lastCycle, Seq.baseCycles, addressCycles]) fun k hk => ?_
      simp only [lastCycle, Seq.baseCycles] at hl
      simp only [addressCycles] at hk
      refine progress_rmwAccess ?_ ?_
      · simp only [indexedMode, Bool.toNat_true, Bool.toNat_false]; omega
      · simp only [indexedMode, Bool.toNat_true, Bool.toNat_false, lastCycle, Seq.baseCycles]; omega
  | branch =>
    cases op <;> cases hc
    simp only [lastCycle] at hl
    obtain rfl | rfl | rfl : t = 2 ∨ t = 3 ∨ t = 4 := by omega
    · refine progress_fetch fun r => ?_
      dsimp only; split
      · exact mv _ _ (by simp [lastCycle])
      · exact fin _
    · refine progress_dummy fun r => ?_
      dsimp only; split
      · exact fin _
      · exact mv _ _ (by simp [lastCycle])
    · exact progress_dummy fun r => fin _
  | jmpAbs =>
    simp only [lastCycle, Seq.baseCycles] at hl
    obtain rfl | rfl : t = 2 ∨ t = 3 := by omega
    · exact progress_fetch fun r => mv _ _ (by simp [lastCycle, Seq.baseCycles])
    · exact progress_fetch fun r => fin _
  | jmpInd =>
    simp only [lastCycle, Seq.baseCycles] at hl
    obtain rfl | rfl | rfl | rfl : t = 2 ∨ t = 3 ∨ t = 4 ∨ t = 5 := by omega
    · exact progress_fetch fun r => mv _ _ (by simp [lastCycle, Seq.baseCycles])
    · exact progress_fetch fun r => mv _ _ (by simp [lastCycle, Seq.baseCycles])
    · exact progress_read fun r => mv _ _ (by simp [lastCycle, Seq.baseCycles])
    · exact progress_read fun r => fin _
  | jsr =>
    simp only [lastCycle, Seq.baseCycles] at hl
    obtain rfl | rfl | rfl | rfl | rfl : t = 2 ∨ t = 3 ∨ t = 4 ∨ t = 5 ∨ t = 6 := by omega
    · exact progress_fetch fun r => mv _ _ (by simp [lastCycle, Seq.baseCycles])
    · exact progress_dummy fun r => mv _ _ (by simp [lastCycle, Seq.baseCycles])
    · exact mv _ _ (by simp [lastCycle, Seq.baseCycles])
    · exact mv _ _ (by simp [lastCycle, Seq.baseCycles])
    · exact progress_fetch fun r => fin _
  | rts =>
    simp only [lastCycle, Seq.baseCycles] at hl
    obtain rfl | rfl | rfl | rfl | rfl : t = 2 ∨ t = 3 ∨ t = 4 ∨ t = 5 ∨ t = 6 := by omega
    · exact progress_dummy fun r => mv _ _ (by simp [lastCycle, Seq.baseCycles])
    · show Progress s _ (andThen (stackPreRead s) _)
      rw [stackPreRead, andThen_assoc]
      exact progress_dummy fun r => mv _ _ (by simp [lastCycle, Seq.baseCycles])
    · exact progress_read fun r => mv _ _ (by simp [lastCycle, Seq.baseCycles])
    · exact progress_read fun r => mv _ _ (by simp [lastCycle, Seq.baseCycles])
    · exact progress_dummy fun r => fin _
  | rti => exact progress_return ⟨h2, hl⟩ rfl
  | push =>
    cases op <;> cases hc
    simp only [lastCycle, Seq.baseCycles] at hl
    obtain rfl | rfl : t = 2 ∨ t = 3 := by omega
    · exact progress_dummy fun r => mv _ _ (by simp [lastCycle, Seq.baseCycles])
    · exact fin _
  | pull =>
    cases op <;> cases hc
    simp only [lastCycle, Seq.baseCycles] at hl
    obtain rfl | rfl | rfl : t = 2 ∨ t = 3 ∨ t = 4 := by omega
    · exact progress_dummy fun r => mv _ _ (by simp [lastCycle, Seq.baseCycles])
    · show Progress s _ (andThen (stackPreRead s) _)
      rw [stackPreRead, andThen_assoc]
      exact progress_dummy fun r => mv _ _ (by simp [lastCycle, Seq.baseCycles])
    · exact progress_read fun r => fin _
  | brk =>
    show Progress s _ (brkCycle src _ s)
    unfold brkCycle
    split
    · next h => exact progress_fetch fun r => mv _ _ (by simp only at h; simp [h, lastCycle, Seq.baseCycles])
    · next h => exact progress_entry ⟨by simp only [imp_false] at h ⊢; omega, hl⟩ rfl
  | irq =>
    show Progress s _ (irqCycle _ s)
    unfold irqCycle
    split
    · next h => exact progress_dummy fun r => mv _ _ (by simp only at h; simp [h, lastCycle, Seq.baseCycles])
    · next h => exact progress_entry ⟨by simp only [imp_false] at h ⊢; omega, hl⟩ rfl
  | nop len cycles =>
    show Progress s _ (nopCycle src len cycles _ s)
    simp only [lastCycle, Seq.baseCycles] at hl
    have pu : ∀ u, Progress s ⟨opc, .nop len cycles, t, l⟩ (.next (proceedUntil cycles ⟨opc, .nop len cycles, t, l⟩ u)) := by
      intro u
      unfold proceedUntil
      split
      · next h => exact mv _ _ h
      · exact fin _
    unfold nopCycle
    rw [if_neg (by simp only; omega)]
    split
    · exact progress_fetch fun r => pu _
    · exact pu _

/-! ## Running a sequence to its end -/

/-- A run of a sequence keeps what every cycle keeps, and records at most as many cycles as it is given. -/
theorem runCycles_kept {src : Source} {op : Operation} (hop : op.regsOnly) :
    ∀ (n : Nat) (s t : State), runCycles src op n s = .next t →
      Kept s t ∧ t.history.length ≤ s.history.length + n := by
  intro n
  induction n with
  | zero => intro s t h; cases h; exact ⟨Kept.refl s, Nat.le_refl _⟩
  | succ n ih =>
    intro s t h
    cases hp : s.phase with
    | fetchOpcode =>
      rw [runCycles_boundary src op _ hp] at h
      cases h
      exact ⟨Kept.refl s, Nat.le_add_right _ _⟩
    | runMicroSteps f =>
      simp only [runCycles, hp] at h
      obtain ⟨u, hu, h⟩ := andThen_eq_next.1 h
      obtain ⟨k1, c, hc⟩ := (microCycle_one hop hu).kept
      obtain ⟨k2, hl⟩ := ih u t h
      refine ⟨k1.trans k2, ?_⟩
      rw [hc, List.length_cons] at hl
      omega

/-- A sound sequence runs to the boundary if it is given enough cycles; only an absent BASIC image stops it. -/
theorem runCycles_progress {src : Source} {op : Operation} (hop : op.regsOnly) :
    ∀ (n : Nat) (s : State) (f : InFlight), s.phase = .runMicroSteps f → compatible f.seq op = true → 2 ≤ f.t →
      f.t ≤ lastCycle f.seq → lastCycle f.seq < f.t + n →
      (∃ t, runCycles src op n s = .next t ∧ t.phase = .fetchOpcode)
        ∨ (runCycles src op n s = .refused .basicRomAbsent ∧ s.basicRom = none) := by
  intro n
  induction n with
  | zero => intro s f _ _ _ h1 h2; omega
  | succ n ih =>
    intro s f hp hc h2 hl hn
    simp only [runCycles, hp]
    rcases microCycle_progress (src := src) hc h2 hl s with ⟨t, e, m⟩ | ⟨e, e'⟩
    · rw [e, andThen_next]
      rcases m with m | ⟨m, l, hl'⟩
      · exact .inl ⟨t, runCycles_boundary src op n m, m⟩
      · rcases ih t _ hl' hc (by dsimp only; omega) (by dsimp only; omega) (by dsimp only; omega) with h | ⟨h, h'⟩
        · exact .inl h
        · exact .inr ⟨h, (microCycle_one hop e).kept.1.basicRom ▸ h'⟩
    · exact .inr ⟨by rw [e, andThen_refused], e'⟩

end Sys2Proof.Machine
end

