-- ==== Sys2Proof/Laws/Serial.lean ====
section
/-! SUPPORT. What a byte delivered bit by bit does to the serial bus (spec/60_exceptions.md R369, R372, R373, R375). -/

namespace Sys2Proof.Machine

/-- The accumulator after shifting bits in from a bit position. -/
def shiftedIn : List Bool → Nat → Byte → Byte
  | [], _, r => r
  | b :: bs, n, r => shiftedIn bs (n + 1) (r ||| ((BitVec.ofBool b).setWidth 8 <<< n))

theorem shiftedIn_byteBits (byte : Byte) : shiftedIn (byteBits byte) 0 0 = byte := by revert byte; decide +kernel

theorem shiftedIn_append (xs ys : List Bool) (n : Nat) (r : Byte) :
    shiftedIn (xs ++ ys) n r = shiftedIn ys (n + xs.length) (shiftedIn xs n r) := by
  induction xs generalizing n r with
  | nil => rfl
  | cons x xs ih => simp only [List.cons_append, shiftedIn, ih, List.length_cons]; congr 1; omega

/-- The states in which a CLK rise shifts a bit. -/
def Shifts (q : SerialState) : Prop := q = .waitCommand ∨ q = .waitSecondaryAddress ∨ q = .listen

@[simp] theorem riseBits_append (xs ys : List Notification) : riseBits (xs ++ ys) = riseBits xs ++ riseBits ys := by
  simp [riseBits]

theorem riseBits_cons (n : Notification) (ns : List Notification) :
    riseBits (n :: ns) = if clkRise n.1 n.2 then lineBit n.2 :: riseBits ns else riseBits ns := by
  cases h : clkRise n.1 n.2 <;> simp [riseBits, h]

@[simp] theorem notifyAll_append (xs ys : List Notification) (b : SerialBus) :
    b.notifyAll (xs ++ ys) = (b.notifyAll xs).notifyAll ys := by
  simp [SerialBus.notifyAll]

theorem notifyAll_cons (n : Notification) (ns : List Notification) (b : SerialBus) :
    b.notifyAll (n :: ns) = (b.edgeNotify n.1 n.2).notifyAll ns := rfl

/-- Notifications whose rises do not complete a byte only shift. -/
theorem notifyAll_of_few_bits (ns : List Notification) (b : SerialBus) (hb : Shifts b.sstate)
    (hl : b.nbits + (riseBits ns).length < 8) :
    b.notifyAll ns
      = { b with nbits := b.nbits + (riseBits ns).length, shreg := shiftedIn (riseBits ns) b.nbits b.shreg } := by
  induction ns generalizing b with
  | nil => rfl
  | cons n ns ih =>
    rw [notifyAll_cons]
    rw [riseBits_cons] at hl ⊢
    cases hr : clkRise n.1 n.2 with
    | true =>
      simp only [hr, if_true, List.length_cons] at hl ⊢
      have e : b.edgeNotify n.1 n.2 = b.shift (lineBit n.2) := by
        have h8 : ¬ b.nbits + 1 = 8 := by omega
        rcases hb with h | h | h <;>
          simp [SerialBus.edgeNotify, h, hr, SerialBus.commandBit, SerialBus.secondaryBit, SerialBus.listenBit,
            SerialBus.shift, h8]
      rw [e, ih (b.shift (lineBit n.2)) hb (by simp only [SerialBus.shift]; omega)]
      simp only [SerialBus.shift, shiftedIn, SerialBus.mk.injEq, true_and, and_true]
      omega
    | false =>
      simp only [hr, Bool.false_eq_true, if_false] at hl ⊢
      have e : b.edgeNotify n.1 n.2 = b := by rcases hb with h | h | h <;> simp [SerialBus.edgeNotify, h, hr]
      rw [e, ih b hb hl]

/-- A delivered byte is acted on as the state says. -/
theorem notifyAll_of_delivers {byte : Byte} {atn : Bool} {ns : List Notification} (h : Delivers byte atn ns)
    {b : SerialBus} (hb : Shifts b.sstate) (h0 : b.nbits = 0) (h1 : b.shreg = 0) :
    b.notifyAll ns =
      match b.sstate with
      | .waitCommand => b.command byte
      | .waitSecondaryAddress => { b with secondary := byte, ack := false, sstate := .eoi }
      | _ => b.listenByte byte atn := by
  obtain ⟨before, ch, out, rfl, hr, ha, hbits⟩ := h
  have hone : riseBits [(ch, out)] = [lineBit out] := by simp [riseBits, hr]
  rw [riseBits_append, hone] at hbits
  have hlen : (riseBits before).length = 7 := by simpa [byteBits] using congrArg List.length hbits
  have hacc := shiftedIn_byteBits byte
  rw [← hbits, shiftedIn_append, hlen, Nat.zero_add] at hacc
  have hbyte : shiftedIn (riseBits before) 0 0#8 ||| BitVec.setWidth 8 (BitVec.ofBool (lineBit out)) <<< 7 = byte := hacc
  rw [notifyAll_append, notifyAll_of_few_bits before b hb (by omega), h0, h1, hlen]
  show SerialBus.edgeNotify ch out _ = _
  obtain ⟨st, nb, sr, pr, se, q, ac, ev⟩ := b
  simp only at h0 h1 hb
  subst h0 h1
  rcases hb with h | h | h <;> subst h <;>
    simp [SerialBus.edgeNotify, hr, SerialBus.commandBit, SerialBus.secondaryBit, SerialBus.listenBit, SerialBus.shift,
      SerialBus.clear, hbyte, ha]

/-- Payload bytes delivered in Listen are appended to the queue. -/
theorem notifyAll_of_deliversAll (name : List Byte) (ns : List Notification) (b : SerialBus) (h : DeliversAll name ns)
    (hs : b.sstate = .listen) (h0 : b.nbits = 0) (h1 : b.shreg = 0) :
    b.notifyAll ns = { b with queue := b.queue ++ name } := by
  induction name generalizing ns b with
  | nil => cases h; simp [SerialBus.notifyAll]
  | cons x xs ih =>
    obtain ⟨f, r, rfl, hf, hr⟩ := h
    rw [notifyAll_append, notifyAll_of_delivers hf (.inr (.inr hs)) h0 h1, hs]
    simp only [SerialBus.listenByte, Bool.false_eq_true, if_false]
    rw [ih r { b with queue := b.queue ++ [x] } hr hs h0 h1]
    simp [hs]

/-- In Talk nothing changes the serial bus (R377). -/
theorem notifyAll_of_talk (ns : List Notification) (b : SerialBus) (hs : b.sstate = .talk) : b.notifyAll ns = b := by
  induction ns with
  | nil => rfl
  | cons n ns ih => rw [notifyAll_cons, show b.edgeNotify n.1 n.2 = b by simp [SerialBus.edgeNotify, hs], ih]

end Sys2Proof.Machine
end

