-- ==== Sys2Proof/Certificates/Slice0/Obligations.lean ====
section
/-! DEFINITION. What is claimed of the model: one obligation for each rule or group of rules of the spec, and the
machine-wide properties. -/

section

open Sys2Proof Sys2Proof.Machine

/-- reset() loads PC from the KERNAL image, sets SP, I, phase, latch and halt, and keeps everything else. Formalises
R403, R404, R406. `romsOpen` is the model's own field (log 14): from now on no image is loaded. -/
def Obligations.ResetSetsItsFieldsAndKeepsTheRest : Prop :=
  ∀ s : State,
    hostReset s =
      { s with
        pc := word (s.kernalRom.get romUnlisted 0x1FFD) (s.kernalRom.get romUnlisted 0x1FFC)
        sp := 0xFF
        p := { s.p with i := true }
        phase := .fetchOpcode
        irqPending := false
        halt := .none
        romsOpen := false }

/-- After power-on with the ROM images loaded, and after reset(), every field has the value of R40, for every draw of
the registers and of RAM; PC before reset() is the loaded image's vector (log 21). Rests on 10_state.md section 5,
70_reset_and_hazards.md section 1, 60_exceptions.md section 5. -/
def Obligations.PowerOnAndResetForEveryDraw : Prop :=
  ∀ (q : Params) (kernal : Memory) (basic : Option Memory) (r : Draws),
    let s := hostReset (powerOn q kernal basic r)
    powerOn q kernal basic r = s ∧
    s.pc = word (kernal.get romUnlisted 0x1FFD) (kernal.get romUnlisted 0x1FFC)
      ∧ s.sp = 0xFF ∧ s.a = r.a ∧ s.x = r.x ∧ s.y = r.y
      ∧ s.p = { n := r.n, v := r.v, d := r.d, i := true, z := r.z, c := r.c }
      ∧ s.p.toByte.getLsbD 5 = true ∧ s.p.toByte.getLsbD 4 = false
      ∧ s.phase = .fetchOpcode ∧ s.irqPending = false ∧ s.pausePending = false ∧ s.halt = .none
      ∧ ramRead s 1 = 0x37 ∧ (∀ a : Word, a ≠ 1 → ramRead s a = r.ram.get ramUnlisted a.toNat)
      ∧ s.kernalRom = kernal ∧ s.basicRom = basic ∧ s.redrawNeeded = false ∧ s.params = q
      ∧ s.cia1 = { pra := 0, prb := 0, ddra := 0, ddrb := 0 } ∧ s.cia2 = { pra := 0, prb := 0, ddra := 0, ddrb := 0 }
      ∧ s.outA2 = 0
      ∧ s.serial = { sstate := .idle, nbits := 0, shreg := 0, primary := 0, secondary := 0, queue := [], ack := false,
                     events := [] }

/-- Sample words decode as the opcode map says. Rests on 30_encoding.md section 3, 30_encoding.md section 2. -/
def Obligations.WordsDecodeToTheirInstructions : Prop :=
  decode [0xA9, 0x80] = .ok (.lda (.imm 0x80), []) ∧ decode [0xB6, 0xF0] = .ok (.ldx (.zpy 0xF0), [])
    ∧ decode [0x9D, 0xFF, 0x02] = .ok (.sta (.abx 0x02FF), []) ∧ decode [0x9A] = .ok (.txs, [])
    ∧ decode [0x61, 0xFE] = .ok (.adc (.izx 0xFE), []) ∧ decode [0xD1, 0x10] = .ok (.cmp (.izy 0x10), [])
    ∧ decode [0x0A] = .ok (.asl .acc, []) ∧ decode [0x3E, 0xF0, 0x12] = .ok (.rol (.abx 0x12F0), [])
    ∧ decode [0xF0, 0xFE] = .ok (.beq 0xFE, []) ∧ decode [0x6C, 0xFF, 0x02] = .ok (.jmp (.ind 0x02FF), [])
    ∧ decode [0x20, 0x00, 0xC1] = .ok (.jsr 0xC100, []) ∧ decode [0x00, 0x55] = .ok (.brk 0x55, [])
    ∧ decode [0x28] = .ok (.plp, []) ∧ decode [0x78] = .ok (.sei, []) ∧ decode [0xEA] = .ok (.nop, [])
    ∧ decode [0xBF, 0x34, 0x12] = .ok (.lax (.aby 0x1234), []) ∧ decode [0x02] = .ok (.illegal 0x02, [])

/-- The illegal and the unofficial opcodes are exactly the listed bytes, and the other 151 are documented. Formalises
R112, R113, R322. -/
def Obligations.EveryOpcodeIsInOneClass : Prop :=
  (∀ opc : Byte, classOf (opcodeRow opc).1 = .illegal ↔ opc ∈ ([0x02, 0x04, 0x0B, 0x0C, 0x12, 0x14, 0x1A, 0x1C,
      0x22, 0x2B, 0x32, 0x34, 0x3A, 0x3C, 0x42, 0x44,
      0x4B, 0x52, 0x54, 0x5A, 0x5C, 0x62, 0x64, 0x6B, 0x72, 0x74, 0x7A, 0x7C, 0x80, 0x82, 0x89, 0x8B,
      0x92, 0x93, 0x9B, 0x9C, 0x9E, 0x9F, 0xAB, 0xB2, 0xBB, 0xC2, 0xCB, 0xD2, 0xD4, 0xDA, 0xDC, 0xE2,
      0xEB, 0xF2, 0xF4, 0xFA, 0xFC] : List Byte))
    ∧ (∀ opc : Byte, classOf (opcodeRow opc).1 = .unofficial ↔ opc ∈ ([0x03, 0x07, 0x0F, 0x13, 0x17, 0x1B, 0x1F,
        0x23, 0x27, 0x2F, 0x33, 0x37, 0x3B, 0x3F, 0x43, 0x47,
      0x4F, 0x53, 0x57, 0x5B, 0x5F, 0x63, 0x67, 0x6F, 0x73, 0x77, 0x7B, 0x7F, 0x83, 0x87, 0x8F, 0x97,
      0xA3, 0xA7, 0xAF, 0xB3, 0xB7, 0xBF, 0xC3, 0xC7, 0xCF, 0xD3, 0xD7, 0xDB, 0xDF, 0xE3, 0xE7, 0xEF,
      0xF3, 0xF7, 0xFB, 0xFF] : List Byte))
    ∧ ((List.range 256).filter fun n => classOf (opcodeRow (BitVec.ofNat 8 n)).1 = .documented).length = 151

/-- Decoding the encoding of a well-formed instruction gives it back, with every operand. Rests on 30_encoding.md
section 1, 30_encoding.md section 3, 30_encoding.md section 4. -/
def Obligations.DecodeOfEncodeIsTheInstruction : Prop :=
  ∀ (i : Instr) (rest : List Byte), WellFormed i → decode (encode i ++ rest) = .ok (i, rest)

/-- Every list of bytes that decodes is the encoding of the instruction it gives, followed by the rest. Rests on
30_encoding.md section 3, 30_encoding.md section 4. -/
def Obligations.EncodeOfDecodeIsTheBytes : Prop :=
  (∀ (bytes rest : List Byte) (i : Instr), decode bytes = .ok (i, rest) → WellFormed i ∧ encode i ++ rest = bytes)
    ∧ ∀ (b1 b2 b3 : Byte) (rest : List Byte), ∃ i tail, decode (b1 :: b2 :: b3 :: rest) = .ok (i, tail)

/-- At a boundary with nothing pending, a step runs the instruction whose bytes stand at PC. Rests on 20_memory.md
section 10, 40_microsteps.md section 1, 60_exceptions.md section 6. -/
def Obligations.StepRunsTheDecodedInstruction : Prop :=
  ∀ s : State, s.halt = .none → s.phase = .fetchOpcode → s.pausePending = false → (s.irqPending && !s.p.i) = false →
    (∀ (bytes : List Byte) (i : Instr), decode bytes = .ok (i, []) →
      (∀ k (h : k < bytes.length), memoryByte s (s.pc + BitVec.ofNat 16 k) = some bytes[k]) → step s = exec i s)
    ∧ ∀ i : Instr, fetchInstr s = .next i → step s = exec i s

/-- One step is the spec's step() called up to the next instruction boundary. Rests on 40_microsteps.md section 1,
60_exceptions.md section 6, 20_memory.md section 10. -/
def Obligations.StepIsTheBusCyclesOfOneInstruction : Prop :=
  ∀ s : State, phaseSound s = true → step s = andThen (busCycle s) (cyclesToBoundary 7)

/-- Each call of the spec's step() records exactly one bus cycle, or none while the core is halted or paused.
Formalises R130. -/
def Obligations.EachCallIsOneBusCycle : Prop :=
  ∀ s : State,
    (s.halt ≠ .none → stepCall s = .next (.halted s.halt, s))
      ∧ (s.halt = .none → s.phase = .fetchOpcode → s.pausePending = true → stepCall s = .next (.paused, s))
      ∧ (s.halt = .none → (s.phase ≠ .fetchOpcode ∨ s.pausePending = false) → ∀ r, stepCall s = .next r →
          (∃ c, r.2.history = c :: s.history)
            ∧ ((r.1 = .ok ∧ r.2.halt = .none) ∨ (r.1 = .halted r.2.halt ∧ r.2.halt ≠ .none)))

/-- At a boundary the conditions halt, pause, interrupt, fetch win in this order. Formalises R342. -/
def Obligations.FetchChecksPauseThenInterruptThenOpcode : Prop :=
  ∀ s : State,
    (s.halt ≠ .none → stepCall s = .next (.halted s.halt, s))
      ∧ (s.halt = .none → s.phase = .fetchOpcode → s.pausePending = true → stepCall s = .next (.paused, s))
      ∧ (s.halt = .none → s.phase = .fetchOpcode → s.pausePending = false → s.irqPending = true → s.p.i = false →
          stepCall s = andThen (openIrq s) fun t => .next (.ok, t))
      ∧ (s.halt = .none → s.phase = .fetchOpcode → s.pausePending = false → (s.irqPending && !s.p.i) = false →
          ∀ opc, busValue s s.pc = .next opc → fetchHalt s opc = .none →
            stepCall s = .next (.ok, openInstr opc (fetchSeq s opc) s))
      ∧ ∀ f irq pause, s.halt = .none → s.phase = .runMicroSteps f →
          stepCall { s with irqPending := irq, pausePending := pause }
            = andThen (stepCall s) fun r => .next (r.1, { r.2 with irqPending := irq, pausePending := pause })

/-- halt is set only by the FetchOpcode step, a halted core does nothing, and only reset() clears it. Formalises R331.
-/
def Obligations.HaltIsSetOnlyByAFetch : Prop :=
  (∀ s t : State, busCycle s = .next t → t.halt ≠ s.halt →
      s.halt = .none ∧ s.phase = .fetchOpcode ∧ t.pc = s.pc ∧ (snapshot t).halt = t.halt ∧ (snapshot t).pc = s.pc)
    ∧ (∀ s : State, s.halt ≠ .none → stepCall s = .next (.halted s.halt, s) ∧ busCycle s = .next s ∧ step s = .next s)
    ∧ ∀ (h : HostAction) (s : State), (hostAct h s).halt = if h = .reset then .none else s.halt

/-- The interrupt latch is set only by requestInterrupt() and cleared only at T1 of interrupt entry and by reset().
Formalises R338. -/
def Obligations.InterruptLatchIsClearedOnlyByTakingIt : Prop :=
  (∀ s t : State, busCycle s = .next t →
      t.irqPending
        = (s.irqPending
            && !(decide (s.halt = .none) && decide (s.phase = .fetchOpcode) && !s.pausePending && !s.p.i)))
    ∧ (∀ (h : HostAction) (s : State),
        (hostAct h s).irqPending
          = if h = .requestInterrupt then true else if h = .reset then false else s.irqPending)
    ∧ ∀ s : State, hostAct .requestInterrupt (hostAct .requestInterrupt s) = hostAct .requestInterrupt s

/-- No bus cycle and no instruction changes a ROM image, a parameter, the pause latch, or clears the redraw flag or
the record; nothing changes a parameter, and nothing changes a ROM image after a reset() or a load. That a load after a
load does nothing is the model's choice (log 18). Rests on 10_state.md section 3, 10_state.md section 4, 20_memory.md
section 6, 70_reset_and_hazards.md section 1. -/
def Obligations.RomsParametersAndHostLatchesAreKept : Prop :=
  (∀ s t : State, busCycle s = .next t ∨ step s = .next t →
      t.kernalRom = s.kernalRom ∧ t.basicRom = s.basicRom ∧ t.params = s.params ∧ t.pausePending = s.pausePending
        ∧ t.romsOpen = s.romsOpen ∧ t.extTime = s.extTime ∧ (s.redrawNeeded = true → t.redrawNeeded = true)
        ∧ (∃ new, t.history = new ++ s.history) ∧ ∃ new, t.deliveries = s.deliveries ++ new)
    ∧ (∀ (es : List Happening) (s t : State), runHappenings es s = .next t → t.params = s.params)
    ∧ ∀ (before after : List Happening) (s t u : State),
      (.host .reset ∈ before ∨ ∃ kernal basic, .host (.loadRoms kernal basic) ∈ before) →
      runHappenings before s = .next t → runHappenings after t = .next u →
      u.kernalRom = t.kernalRom ∧ u.basicRom = t.basicRom

/-- The invariant holds at reset. Rests on 10_state.md section 5. -/
def Obligations.InvariantHoldsAtReset : Prop :=
  Inv State.reset

/-- Every interleaving of bus cycles and host actions keeps the invariant, and so does every step. Rests on
10_state.md section 4, 40_microsteps.md section 1, 60_exceptions.md section 4, 60_exceptions.md section 5,
60_exceptions.md section 6. -/
def Obligations.InvariantIsKeptByEveryHappening : Prop :=
  (∀ (es : List Happening) (s t : State), Inv s →
      (∀ kernal basic, Happening.host (.loadRoms kernal basic) ∈ es →
        kernal.wf romUnlisted 8192 = true ∧ ∀ rom, basic = some rom → rom.wf romUnlisted 8192 = true) →
      runHappenings es s = .next t → Inv t)
    ∧ ∀ s t : State, Inv s → step s = .next t → Inv t

/-- From a sound state nothing ever faults, and nothing is refused while the BASIC image is loaded. Rests on
60_exceptions.md section 1, 20_memory.md section 3, 40_microsteps.md section 1. -/
def Obligations.NoFaultAndOnlyAnAbsentBasicImageRefuses : Prop :=
  ∀ s : State, Inv s →
    (∀ f, busCycle s ≠ .fault f ∧ step s ≠ .fault f)
      ∧ (∀ q, busCycle s = .refused q ∨ step s = .refused q → q = .basicRomAbsent ∧ s.basicRom = none)
      ∧ (s.basicRom.isSome = true → (∃ t, busCycle s = .next t) ∧ ∃ t, step s = .next t)

/-- A step ends at an instruction boundary, and no instruction takes more than 8 bus cycles. Rests on 40_microsteps.md
section 1, 40_microsteps.md section 2, 40_microsteps.md section 4, 10_state.md section 2. -/
def Obligations.StepEndsAtABoundary : Prop :=
  ∀ s t : State, phaseSound s = true → step s = .next t →
    t.phase = .fetchOpcode ∧ t.history.length ≤ s.history.length + 8

/-- A read returns the byte of RAM, of a ROM image or of a peripheral that the bank byte maps at its address.
Formalises R66. -/
def Obligations.ReadsFollowTheBankDecode : Prop :=
  ∀ (s : State) (a : Word),
    let bank := (ramRead s 1).toNat
    let n := a.toNat
    busValue s a =
        (if n ≤ 0x9FFF ∨ (0xC000 ≤ n ∧ n ≤ 0xCFFF) then .next (ramRead s a)
        else if n ≤ 0xBFFF then
          if bank % 2 = 1 ∧ bank / 2 % 2 = 1 then
            match s.basicRom with
            | some rom => .next (rom.get romUnlisted (n - 0xA000))
            | none => .refused .basicRomAbsent
          else .next (ramRead s a)
        else if n ≤ 0xDFFF then
          if bank / 4 % 2 = 0 then .next (ramRead s a)
          else if n ≤ 0xD3FF then
            if n % 64 < 47 then .next (Config.vicRead s.extTime s.history (BitVec.ofNat 6 (n % 64)))
            else .next Config.vicGapByte
          else if n ≤ 0xDBFF then .next Config.charShadowByte
          else if n ≤ 0xDCFF then .next (ciaRead .cia1 (BitVec.ofNat 4 (n % 16)) s)
          else if n ≤ 0xDDFF then .next (ciaRead .cia2 (BitVec.ofNat 4 (n % 16)) s)
          else .next Config.charShadowByte
        else if bank / 2 % 2 = 1 then .next (s.kernalRom.get romUnlisted (n - 0xE000))
        else .next (ramRead s a))
      ∧ busRead a s = andThen (busValue s a) fun v => .next (v, { s with history := .read a v :: s.history })

/-- A write stores to RAM where RAM is mapped, is discarded where ROM or the shadow region is, and is delivered to a
peripheral. Formalises R72, R73, R74, R75, R76. -/
def Obligations.WritesFollowTheBankDecode : Prop :=
  ∀ (s : State) (a : Word) (v : Byte),
    let bank := (ramRead s 1).toNat
    let n := a.toNat
    let t := busStore a v s
    let toRam : Prop := t = { s with ram := t.ram, redrawNeeded := s.redrawNeeded || decide (0x0400 ≤ n ∧ n ≤ 0x07FF) }
      ∧ ∀ b, ramRead t b = if b = a then v else ramRead s b
    (if n ≤ 0x9FFF ∨ (0xC000 ≤ n ∧ n ≤ 0xCFFF) then toRam
      else if n ≤ 0xBFFF then if bank % 2 = 1 ∧ bank / 2 % 2 = 1 then t = s else toRam
      else if n ≤ 0xDFFF then
        if bank / 4 % 2 = 0 then toRam
        else if n ≤ 0xD3FF then
          if n % 64 < 47 then
            t = { s with
                  deliveries := s.deliveries ++ [{ target := .vic, offset := n % 64, value := v, pc := s.pc }] }
          else t = s
        else if n ≤ 0xDBFF then t = s
        else if n ≤ 0xDCFF then t = ciaWrite .cia1 (BitVec.ofNat 4 (n % 16)) v s ∧ t.ram = s.ram
        else if n ≤ 0xDDFF then t = ciaWrite .cia2 (BitVec.ofNat 4 (n % 16)) v s ∧ t.ram = s.ram
        else t = s
      else if bank / 2 % 2 = 1 then t = s
      else toRam)
      ∧ busWrite a v s = { t with history := .write a v s.pc :: s.history }

/-- A read after a write to a RAM-mapped address returns the byte written, also after other writes, to 0x0001 too, that
leave the address mapped to RAM. Formalises R78. -/
def Obligations.ReadAfterWriteReturnsTheByte : Prop :=
  ∀ (s : State) (a : Word) (v : Byte) (others : List (Word × Byte)), targetOf s a = .ram →
    (∀ w ∈ others, w.1 ≠ a) →
    let t := others.foldl (fun s w => busWrite w.1 w.2 s) (busWrite a v s)
    targetOf t a = .ram → ∃ u, busRead a t = .next (v, u)

/-- Toggling LORAM and HIRAM shows the ROM byte or the RAM byte below it, and never changes RAM. Formalises R79. -/
def Obligations.BankSwitchRevealsRomOrTheOldRam : Prop :=
  ∀ (s : State) (rom : Memory) (bank v : Byte) (a : Word), s.basicRom = some rom →
    let t := busWrite 1 bank s
    (∀ b : Word, b ≠ 1 → ramRead t b = ramRead s b)
      ∧ (0xA000 ≤ a.toNat → a.toNat ≤ 0xBFFF →
          (if bank.getLsbD 0 = true ∧ bank.getLsbD 1 = true then
              busValue t a = .next (rom.get romUnlisted (a.toNat - 0xA000)) ∧ ramRead (busWrite a v t) a = ramRead s a
            else busValue t a = .next (ramRead s a)))
      ∧ (0xE000 ≤ a.toNat →
          (if bank.getLsbD 1 = true then
              busValue t a = .next (s.kernalRom.get romUnlisted (a.toNat - 0xE000))
                ∧ ramRead (busWrite a v t) a = ramRead s a
            else busValue t a = .next (ramRead s a)))

/-- Zero page and the stack page are RAM whatever the bank byte holds. Formalises R91. -/
def Obligations.ZeroPageAndStackAreAlwaysRam : Prop :=
  ∀ (s : State) (a : Word), a.toNat < 0x0200 →
    targetOf s a = .ram ∧ busValue s a = .next (ramRead s a)
      ∧ (∀ v, ramRead (busWrite a v s) a = v) ∧ ∀ sp : Byte, (stackAddr sp).toNat = 0x0100 + sp.toNat

/-- The effective address of every operand form, with its wrap-around, its page-cross test and its uncorrected address.
Rests on 30_encoding.md section 2 (R103, R104, R106), 40_microsteps.md section 2 (R142, R144), 40_microsteps.md
section 4 (R159, R160). -/
def Obligations.EffectiveAddressesAndPageCrossings : Prop :=
  ∀ (s : State) (b : Byte) (w : Word),
    let pointer (p : Byte) : Nat := (ramRead s (zext16 p)).toNat + 256 * (ramRead s (zext16 (p + 1))).toNat
    (effectiveAddress (.zp b) s).toNat = b.toNat
      ∧ (effectiveAddress (.zpx b) s).toNat = (b.toNat + s.x.toNat) % 256
      ∧ (effectiveAddress (.zpy b) s).toNat = (b.toNat + s.y.toNat) % 256
      ∧ effectiveAddress (.abs w) s = w
      ∧ (effectiveAddress (.abx w) s).toNat = (w.toNat + s.x.toNat) % 65536
      ∧ (effectiveAddress (.aby w) s).toNat = (w.toNat + s.y.toNat) % 65536
      ∧ (effectiveAddress (.izx b) s).toNat = pointer (b + s.x)
      ∧ (effectiveAddress (.izy b) s).toNat = (pointer b + s.y.toNat) % 65536
      ∧ (crossesPage (.abx w) s = true ↔ (lo w).toNat + s.x.toNat > 255)
      ∧ (crossesPage (.abx w) s = true ↔ hi (effectiveAddress (.abx w) s) ≠ hi w)
      ∧ (crossesPage (.aby w) s = true ↔ (lo w).toNat + s.y.toNat > 255)
      ∧ (crossesPage (.aby w) s = true ↔ hi (effectiveAddress (.aby w) s) ≠ hi w)
      ∧ (crossesPage (.izy b) s = true ↔ pointer b % 256 + s.y.toNat > 255)
      ∧ (crossesPage (.izy b) s = true ↔ (effectiveAddress (.izy b) s).toNat / 256 ≠ pointer b / 256)
      ∧ (uncorrectedAddress (.abx w) s).toNat = w.toNat / 256 * 256 + (w.toNat + s.x.toNat) % 256
      ∧ (uncorrectedAddress (.aby w) s).toNat = w.toNat / 256 * 256 + (w.toNat + s.y.toNat) % 256
      ∧ (uncorrectedAddress (.izy b) s).toNat = pointer b / 256 * 256 + (pointer b + s.y.toNat) % 256

/-- LDA, LDX and LDY complete with the operand byte in the register and N and Z from it. Formalises R180, R181, R182.
-/
def Obligations.LoadsPutTheOperandInTheRegister : Prop :=
  ReadForms .lda [(.imm, 0xA9), (.zp, 0xA5), (.zpx, 0xB5), (.abs, 0xAD), (.abx, 0xBD), (.aby, 0xB9), (.izx, 0xA1),
      (.izy, 0xB1)]
      (fun _ => True) (fun v s => { s with a := v, p := { s.p with n := v.getLsbD 7, z := decide (v = 0) } })
    ∧ ReadForms .ldx [(.imm, 0xA2), (.zp, 0xA6), (.zpy, 0xB6), (.abs, 0xAE), (.aby, 0xBE)]
        (fun _ => True) (fun v s => { s with x := v, p := { s.p with n := v.getLsbD 7, z := decide (v = 0) } })
    ∧ ReadForms .ldy [(.imm, 0xA0), (.zp, 0xA4), (.zpx, 0xB4), (.abs, 0xAC), (.abx, 0xBC)]
        (fun _ => True) (fun v s => { s with y := v, p := { s.p with n := v.getLsbD 7, z := decide (v = 0) } })

/-- STA, STX and STY complete with the register written at the effective address, and change no flag and no register.
Formalises R183, R184, R185. -/
def Obligations.StoresWriteTheRegister : Prop :=
  StoreForms .sta [(.zp, 0x85), (.zpx, 0x95), (.abs, 0x8D), (.abx, 0x9D), (.aby, 0x99), (.izx, 0x81), (.izy, 0x91)]
      (fun _ => True) (fun s => s.a)
    ∧ StoreForms .stx [(.zp, 0x86), (.zpy, 0x96), (.abs, 0x8E)] (fun _ => True) (fun s => s.x)
    ∧ StoreForms .sty [(.zp, 0x84), (.zpx, 0x94), (.abs, 0x8C)] (fun _ => True) (fun s => s.y)

/-- The six transfers copy one register into another; all but TXS set N and Z. Formalises R186, R187, R188, R189,
R190, R191. -/
def Obligations.TransfersCopyARegister : Prop :=
  InternalForm .tax 0xAA (fun s => { s with x := s.a, p := { s.p with n := s.a.getLsbD 7, z := decide (s.a = 0) } })
    ∧ InternalForm .tay 0xA8 (fun s => { s with y := s.a, p := { s.p with n := s.a.getLsbD 7, z := decide (s.a = 0) } })
    ∧ InternalForm .txa 0x8A (fun s => { s with a := s.x, p := { s.p with n := s.x.getLsbD 7, z := decide (s.x = 0) } })
    ∧ InternalForm .tya 0x98 (fun s => { s with a := s.y, p := { s.p with n := s.y.getLsbD 7, z := decide (s.y = 0) } })
    ∧ InternalForm .tsx 0xBA
        (fun s => { s with x := s.sp, p := { s.p with n := s.sp.getLsbD 7, z := decide (s.sp = 0) } })
    ∧ InternalForm .txs 0x9A (fun s => { s with sp := s.x })

/-- ADC and SBC in binary: the sum with carry and the difference with borrow, C, V, N and Z. Formalises R201, R202. -/
def Obligations.AdcAndSbcInBinary : Prop :=
  ReadForms .adc [(.imm, 0x69), (.zp, 0x65), (.zpx, 0x75), (.abs, 0x6D), (.abx, 0x7D), (.aby, 0x79), (.izx, 0x61),
      (.izy, 0x71)]
      (fun s => s.params.decimalMode = .binary ∨ s.p.d = false)
      (fun m s =>
        let sum := s.a.toNat + m.toNat + s.p.c.toNat
        let r : Byte := BitVec.ofNat 8 sum
        { s with
          a := r
          p :=
            { s.p with
              c := decide (sum > 0xFF)
              v := decide (((s.a ^^^ r) &&& (m ^^^ r) &&& 0x80) ≠ 0)
              n := r.getLsbD 7, z := decide (r = 0) } })
    ∧ ReadForms .sbc [(.imm, 0xE9), (.zp, 0xE5), (.zpx, 0xF5), (.abs, 0xED), (.abx, 0xFD), (.aby, 0xF9),
        (.izx, 0xE1), (.izy, 0xF1)]
        (fun s => s.params.decimalMode = .binary ∨ s.p.d = false)
        (fun m s =>
          let d : Int := s.a.toNat - m.toNat - (1 - s.p.c.toNat)
          let r : Byte := BitVec.ofInt 8 d
          { s with
            a := r
            p :=
              { s.p with
                c := decide (d ≥ 0)
                v := decide (((~~~m ^^^ r) &&& (s.a ^^^ r) &&& 0x80) ≠ 0)
                n := r.getLsbD 7, z := decide (r = 0) } })

/-- ADC and SBC in decimal mode compute the NMOS results, invalid digits included. Formalises R203, R204. -/
def Obligations.DecimalAdcAndSbcFollowTheNmosAlgorithm : Prop :=
  ReadForms .adc [(.imm, 0x69), (.zp, 0x65), (.zpx, 0x75), (.abs, 0x6D), (.abx, 0x7D), (.aby, 0x79), (.izx, 0x61),
      (.izy, 0x71)]
      (fun s => s.params.decimalMode = .nmosBcd ∧ s.p.d = true)
      (fun m s =>
        let low := (s.a &&& 0x0F).toNat + (m &&& 0x0F).toNat + s.p.c.toNat
        let low := if 0x0A ≤ low then (low + 0x06) % 16 + 0x10 else low
        let t := (s.a &&& 0xF0).toNat + (m &&& 0xF0).toNat + low
        let st : Int := (s.a &&& 0xF0).toInt + (m &&& 0xF0).toInt + low
        let u := if 0xA0 ≤ t then t + 0x60 else t
        { s with
          a := BitVec.ofNat 8 u
          p :=
            { s.p with
              n := decide (0x80 ≤ st % 256)
              v := decide (st < -128 ∨ 127 < st)
              z := decide ((s.a.toNat + m.toNat + s.p.c.toNat) % 256 = 0)
              c := decide (0x100 ≤ u) } })
    ∧ ReadForms .sbc [(.imm, 0xE9), (.zp, 0xE5), (.zpx, 0xF5), (.abs, 0xED), (.abx, 0xFD), (.aby, 0xF9),
        (.izx, 0xE1), (.izy, 0xF1)]
        (fun s => s.params.decimalMode = .nmosBcd ∧ s.p.d = true)
        (fun m s =>
          let d : Int := s.a.toNat - m.toNat - (1 - s.p.c.toNat)
          let r : Byte := BitVec.ofInt 8 d
          let low : Int := (s.a &&& 0x0F).toNat - (m &&& 0x0F).toNat + s.p.c.toNat - 1
          let low := if low < 0 then (low - 0x06) % 16 - 0x10 else low
          let t : Int := (s.a &&& 0xF0).toNat - (m &&& 0xF0).toNat + low
          let u := if t < 0 then t - 0x60 else t
          { s with
            a := BitVec.ofInt 8 u
            p :=
              { s.p with
                n := r.getLsbD 7
                z := decide (r = 0)
                c := decide (0 ≤ d)
                v := decide (((~~~m ^^^ r) &&& (s.a ^^^ r) &&& 0x80) ≠ 0) } })

/-- On decimal digits, decimal ADC adds and decimal SBC subtracts two-digit numbers with carry and borrow. Rests on
42_arith_logic_compare.md section 2. -/
def Obligations.DecimalArithmeticIsRightOnDecimalDigits : Prop :=
  ∀ (a m : Byte) (p : Flags), isBcd a → isBcd m → p.d = true →
    isBcd (adcFlags .nmosBcd a m p).1
      ∧ bcdValue (adcFlags .nmosBcd a m p).1 + 100 * (adcFlags .nmosBcd a m p).2.c.toNat
          = bcdValue a + bcdValue m + p.c.toNat
      ∧ isBcd (sbcFlags .nmosBcd a m p).1
      ∧ (bcdValue (sbcFlags .nmosBcd a m p).1 : Int)
          = bcdValue a - bcdValue m - (1 - p.c.toNat) + 100 * (1 - (sbcFlags .nmosBcd a m p).2.c.toNat)

/-- The laws of binary arithmetic: SBC as ADC of the complement, Z and N of the result, CMP as SEC and SBC, C as
carry. Formalises R213. -/
def Obligations.BinaryArithmeticLaws : Prop :=
  ∀ (a m : Byte) (p : Flags),
    sbcFlags .binary a m p = adcFlags .binary a (m ^^^ 0xFF) p
      ∧ (∀ r, r = adcFlags .binary a m p ∨ r = sbcFlags .binary a m p →
          (r.2.z = true ↔ r.1 = 0) ∧ r.2.n = r.1.getLsbD 7)
      ∧ compareFlags a m p = { (sbcFlags .binary a m { p with c := true }).2 with v := p.v }
      ∧ (adcFlags .binary a m p).1.toNat + 256 * (adcFlags .binary a m p).2.c.toNat = a.toNat + m.toNat + p.c.toNat
      ∧ ((sbcFlags .binary a m p).2.c = true ↔ m.toNat + (1 - p.c.toNat) ≤ a.toNat)

/-- V after binary ADC and SBC says that the signed result does not fit in a byte. Rests on 42_arith_logic_compare.md
section 2, 90_conflicts.md C1. -/
def Obligations.OverflowIsSignedOverflow : Prop :=
  ∀ (a m : Byte) (p : Flags),
    ((adcFlags .binary a m p).2.v = true ↔
        a.toInt + m.toInt + p.c.toNat < -128 ∨ 127 < a.toInt + m.toInt + p.c.toNat)
      ∧ ((sbcFlags .binary a m p).2.v = true ↔
        a.toInt - m.toInt - (1 - p.c.toNat) < -128 ∨ 127 < a.toInt - m.toInt - (1 - p.c.toNat))

/-- AND, ORA and EOR put the bitwise result in A; BIT only sets N, V and Z. Formalises R205, R206, R207, R208. -/
def Obligations.LogicActsOnTheAccumulator : Prop :=
  ReadForms .and [(.imm, 0x29), (.zp, 0x25), (.zpx, 0x35), (.abs, 0x2D), (.abx, 0x3D), (.aby, 0x39), (.izx, 0x21),
      (.izy, 0x31)]
      (fun _ => True) (fun m s => { s with a := s.a &&& m, p :=
          { s.p with n := (s.a &&& m).getLsbD 7, z := decide (s.a &&& m = 0) } })
    ∧ ReadForms .ora [(.imm, 0x09), (.zp, 0x05), (.zpx, 0x15), (.abs, 0x0D), (.abx, 0x1D), (.aby, 0x19),
        (.izx, 0x01), (.izy, 0x11)]
        (fun _ => True) (fun m s => { s with a := s.a ||| m, p :=
            { s.p with n := (s.a ||| m).getLsbD 7, z := decide (s.a ||| m = 0) } })
    ∧ ReadForms .eor [(.imm, 0x49), (.zp, 0x45), (.zpx, 0x55), (.abs, 0x4D), (.abx, 0x5D), (.aby, 0x59),
        (.izx, 0x41), (.izy, 0x51)]
        (fun _ => True) (fun m s => { s with a := s.a ^^^ m, p :=
            { s.p with n := (s.a ^^^ m).getLsbD 7, z := decide (s.a ^^^ m = 0) } })
    ∧ ReadForms .bit [(.zp, 0x24), (.abs, 0x2C)] (fun _ => True)
        (fun m s =>
          { s with p := { s.p with z := decide ((s.a &&& m) = 0), n := m.getLsbD 7, v := m.getLsbD 6 } })

/-- CMP, CPX and CPY set C, Z and N from the unsigned comparison and change no register. Formalises R209, R210, R211,
R212. -/
def Obligations.ComparesSetOnlyCarryZeroAndNegative : Prop :=
  ReadForms .cmp [(.imm, 0xC9), (.zp, 0xC5), (.zpx, 0xD5), (.abs, 0xCD), (.abx, 0xDD), (.aby, 0xD9), (.izx, 0xC1),
      (.izy, 0xD1)]
      (fun _ => True)
      (fun m s => { s with p :=
          { s.p with c := decide (m.toNat ≤ s.a.toNat), n := (s.a - m).getLsbD 7, z := decide (s.a = m) } })
    ∧ ReadForms .cpx [(.imm, 0xE0), (.zp, 0xE4), (.abs, 0xEC)] (fun _ => True)
        (fun m s => { s with p :=
            { s.p with c := decide (m.toNat ≤ s.x.toNat), n := (s.x - m).getLsbD 7, z := decide (s.x = m) } })
    ∧ ReadForms .cpy [(.imm, 0xC0), (.zp, 0xC4), (.abs, 0xCC)] (fun _ => True)
        (fun m s => { s with p :=
            { s.p with c := decide (m.toNat ≤ s.y.toNat), n := (s.y - m).getLsbD 7, z := decide (s.y = m) } })

/-- ASL, LSR, ROL and ROR, on memory and on the accumulator: the shifted byte, C the bit shifted out, N and Z of the
result. Formalises R230, R231, R232, R233. -/
def Obligations.MemoryShiftsWriteBackTheShiftedByte : Prop :=
  RmwForms .asl [(.zp, 0x06), (.zpx, 0x16), (.abs, 0x0E), (.abx, 0x1E)] (fun _ => True)
        (fun v s => (v <<< 1, s.a, { s.p with n := v.getLsbD 6, z := decide (v &&& 0x7F = 0), c := v.getLsbD 7 }))
    ∧ RmwForms .lsr [(.zp, 0x46), (.zpx, 0x56), (.abs, 0x4E), (.abx, 0x5E)] (fun _ => True)
        (fun v s => (v >>> 1, s.a, { s.p with n := false, z := decide (v &&& 0xFE = 0), c := v.getLsbD 0 }))
    ∧ RmwForms .rol [(.zp, 0x26), (.zpx, 0x36), (.abs, 0x2E), (.abx, 0x3E)] (fun _ => True)
        (fun v s => ((v <<< 1) + (if s.p.c then 1 else 0), s.a,
            { s.p with n := v.getLsbD 6, z := decide (v &&& 0x7F = 0) && !s.p.c, c := v.getLsbD 7 }))
    ∧ RmwForms .ror [(.zp, 0x66), (.zpx, 0x76), (.abs, 0x6E), (.abx, 0x7E)] (fun _ => True)
        (fun v s => ((v >>> 1) + (if s.p.c then 0x80 else 0), s.a,
            { s.p with n := s.p.c, z := decide (v &&& 0xFE = 0) && !s.p.c, c := v.getLsbD 0 }))
    ∧ InternalForm (.asl .acc) 0x0A
        (fun s => { s with a := s.a <<< 1, p :=
            { s.p with n := s.a.getLsbD 6, z := decide (s.a &&& 0x7F = 0), c := s.a.getLsbD 7 } })
    ∧ InternalForm (.lsr .acc) 0x4A
        (fun s => { s with a := s.a >>> 1, p :=
            { s.p with n := false, z := decide (s.a &&& 0xFE = 0), c := s.a.getLsbD 0 } })
    ∧ InternalForm (.rol .acc) 0x2A
        (fun s => { s with a := (s.a <<< 1) + (if s.p.c then 1 else 0), p :=
            { s.p with n := s.a.getLsbD 6, z := decide (s.a &&& 0x7F = 0) && !s.p.c, c := s.a.getLsbD 7 } })
    ∧ InternalForm (.ror .acc) 0x6A
        (fun s => { s with a := (s.a >>> 1) + (if s.p.c then 0x80 else 0), p :=
            { s.p with n := s.p.c, z := decide (s.a &&& 0xFE = 0) && !s.p.c, c := s.a.getLsbD 0 } })

/-- INC, DEC, INX, INY, DEX and DEY add or subtract 1 modulo 256 and set only N and Z. Formalises R234, R235, R236,
R237, R238, R239. -/
def Obligations.IncrementsAndDecrementsWrapAndKeepCarry : Prop :=
  RmwForms .inc [(.zp, 0xE6), (.zpx, 0xF6), (.abs, 0xEE), (.abx, 0xFE)] (fun _ => True)
      (fun v s => (v + 1, s.a, { s.p with n := (v + 1).getLsbD 7, z := decide (v = 0xFF) }))
    ∧ RmwForms .dec [(.zp, 0xC6), (.zpx, 0xD6), (.abs, 0xCE), (.abx, 0xDE)] (fun _ => True)
        (fun v s => (v - 1, s.a, { s.p with n := (v - 1).getLsbD 7, z := decide (v = 1) }))
    ∧ InternalForm .inx 0xE8
        (fun s => { s with x := s.x + 1, p := { s.p with n := (s.x + 1).getLsbD 7, z := decide (s.x = 0xFF) } })
    ∧ InternalForm .iny 0xC8
        (fun s => { s with y := s.y + 1, p := { s.p with n := (s.y + 1).getLsbD 7, z := decide (s.y = 0xFF) } })
    ∧ InternalForm .dex 0xCA
        (fun s => { s with x := s.x - 1, p := { s.p with n := (s.x - 1).getLsbD 7, z := decide (s.x = 1) } })
    ∧ InternalForm .dey 0x88
        (fun s => { s with y := s.y - 1, p := { s.p with n := (s.y - 1).getLsbD 7, z := decide (s.y = 1) } })

/-- Every conditional branch is taken on its flag, with its target modulo 65536 and 2, 3 or 4 cycles. Formalises R260,
R261, R262, R263, R264, R265, R266, R267, R268. -/
def Obligations.BranchesTestTheirFlag : Prop :=
  BranchForm .bpl 0x10 (fun p => p.n = false) ∧ BranchForm .bmi 0x30 (fun p => p.n = true)
    ∧ BranchForm .bvc 0x50 (fun p => p.v = false) ∧ BranchForm .bvs 0x70 (fun p => p.v = true)
    ∧ BranchForm .bcc 0x90 (fun p => p.c = false) ∧ BranchForm .bcs 0xB0 (fun p => p.c = true)
    ∧ BranchForm .bne 0xD0 (fun p => p.z = false) ∧ BranchForm .beq 0xF0 (fun p => p.z = true)

/-- JMP goes to its operand, or to the word its pointer names, whose second byte lies in the pointer's own page.
Formalises R269, R270. -/
def Obligations.JmpGoesToItsTarget : Prop :=
  (∀ (t : Word) (s : State),
      exec (.jmp (.abs t)) s = .next (atBoundary t
        (.read (s.pc + 2) (hi t) :: .read (s.pc + 1) (lo t) :: .read s.pc 0x4C :: s.history) s))
    ∧ ∀ (p second : Word) (s : State),
        second.toNat = p.toNat / 256 * 256 + (p.toNat + 1) % 256 →
        readable s p = true → readable s second = true →
        ∃ l g h h', ReadsAt s p l
            (.read (s.pc + 2) (hi p) :: .read (s.pc + 1) (lo p) :: .read s.pc 0x6C :: s.history) g
          ∧ ReadsAt s second h g h' ∧ exec (.jmp (.ind p)) s = .next (atBoundary (word h l) h' s)

/-- JSR pushes q + 2, high byte first, and goes to its target. Where the pushes overwrite its own operand byte, the byte
pushed counts: the model follows R148 and R271 against R89 there (log 15). Rests on 44_control_flow.md section 3 (R271),
40_microsteps.md section 3 (R148). -/
def Obligations.JsrPushesTheAddressOfItsLastByte : Prop :=
  ∀ (t : Word) (s : State),
    let r := s.pc + 2
    let high : Byte :=
      if r = stackAddr (s.sp - 1) then lo r else if r = stackAddr s.sp then hi r else hi t
    ∃ u, exec (.jsr t) s = .next u
      ∧ u =
        { s with
          pc := word high (lo t)
          sp := s.sp - 2
          ram := u.ram
          phase := .fetchOpcode
          history :=
            .read r high :: .write (stackAddr (s.sp - 1)) (lo r) r :: .write (stackAddr s.sp) (hi r) r
              :: .read (stackAddr s.sp) (ramRead s (stackAddr s.sp)) :: .read (s.pc + 1) (lo t) :: .read s.pc 0x20
              :: s.history }
      ∧ ramRead u (stackAddr s.sp) = hi r ∧ ramRead u (stackAddr (s.sp - 1)) = lo r
      ∧ ∀ a, a ≠ stackAddr s.sp → a ≠ stackAddr (s.sp - 1) → ramRead u a = ramRead s a

/-- RTS pulls two bytes, low byte first, and goes to the word plus 1. Formalises R272. -/
def Obligations.RtsReturnsAfterThePulledAddress : Prop :=
  ∀ s : State,
    let low := ramRead s (stackAddr (s.sp + 1))
    let high := ramRead s (stackAddr (s.sp + 2))
    readable s (s.pc + 1) = true → readable s (word high low) = true →
    ∃ v g w h, ReadsAt s (s.pc + 1) v (.read s.pc 0x60 :: s.history) g
      ∧ ReadsAt s (word high low) w
          (.read (stackAddr (s.sp + 2)) high :: .read (stackAddr (s.sp + 1)) low
            :: .read (stackAddr s.sp) (ramRead s (stackAddr s.sp)) :: g) h
      ∧ exec .rts s
        = .next { s with pc := word high low + 1, sp := s.sp + 2, phase := .fetchOpcode, history := h }

/-- An RTS that finds the stack as the JSR left it returns to the instruction after the JSR, with SP as before it.
Formalises R275. -/
def Obligations.RtsReturnsToTheJsr : Prop :=
  ∀ (t : Word) (s u w : State), exec (.jsr t) s = .next u → w.sp = u.sp →
    ramRead w (stackAddr s.sp) = ramRead u (stackAddr s.sp) →
    ramRead w (stackAddr (s.sp - 1)) = ramRead u (stackAddr (s.sp - 1)) →
    readable w (w.pc + 1) = true → readable w (s.pc + 2) = true →
    w.sp = s.sp - 2 ∧ ∃ z, exec .rts w = .next z ∧ z.pc = s.pc + 3 ∧ z.sp = s.sp

/-- BRK pushes q + 2 and P | 0x30, sets I and goes through the IRQ/BRK vector. Formalises R273. -/
def Obligations.BrkTakesTheInterruptVector : Prop :=
  ∀ (pad : Byte) (s : State),
    let r := s.pc + 2
    let low := vectorByte s 0xFFFE
    let high := vectorByte s 0xFFFF
    ∃ u, exec (.brk pad) s = .next u
      ∧ u =
        { s with
          pc := word high low
          sp := s.sp - 3
          p := { s.p with i := true }
          ram := u.ram
          phase := .fetchOpcode
          history :=
            .read 0xFFFF high :: .read 0xFFFE low :: .write (stackAddr (s.sp - 2)) (s.p.toByte ||| 0x30) r
              :: .write (stackAddr (s.sp - 1)) (lo r) r :: .write (stackAddr s.sp) (hi r) r
              :: .read (s.pc + 1) pad :: .read s.pc 0x00 :: s.history }
      ∧ ramRead u (stackAddr s.sp) = hi r ∧ ramRead u (stackAddr (s.sp - 1)) = lo r
      ∧ ramRead u (stackAddr (s.sp - 2)) = s.p.toByte ||| 0x30
      ∧ ∀ a, a ≠ stackAddr s.sp → a ≠ stackAddr (s.sp - 1) → a ≠ stackAddr (s.sp - 2) → ramRead u a = ramRead s a

/-- A pending interrupt with I clear is taken at the boundary: PC and the status are pushed, I is set, PC comes from
the vector. Formalises R340. -/
def Obligations.InterruptEntryPushesPcAndStatus : Prop :=
  ∀ s : State, s.halt = .none → s.phase = .fetchOpcode → s.pausePending = false → s.irqPending = true → s.p.i = false →
    readable s s.pc = true →
    let low := vectorByte s 0xFFFE
    let high := vectorByte s 0xFFFF
    let status := (s.p.toByte &&& 0xEF) ||| 0x20
    ∃ u v w g h, step s = .next u ∧ ReadsAt s s.pc v s.history g ∧ ReadsAt s s.pc w g h
      ∧ u =
        { s with
          pc := word high low
          sp := s.sp - 3
          p := { s.p with i := true }
          ram := u.ram
          irqPending := false
          history :=
            .read 0xFFFF high :: .read 0xFFFE low :: .write (stackAddr (s.sp - 2)) status s.pc
              :: .write (stackAddr (s.sp - 1)) (lo s.pc) s.pc :: .write (stackAddr s.sp) (hi s.pc) s.pc :: h }
      ∧ ramRead u (stackAddr s.sp) = hi s.pc ∧ ramRead u (stackAddr (s.sp - 1)) = lo s.pc
      ∧ ramRead u (stackAddr (s.sp - 2)) = status
      ∧ ∀ a, a ≠ stackAddr s.sp → a ≠ stackAddr (s.sp - 1) → a ≠ stackAddr (s.sp - 2) → ramRead u a = ramRead s a

/-- RTI pulls the status and then PC, low byte first, without adding 1. Formalises R274. -/
def Obligations.RtiPullsStatusAndPc : Prop :=
  ∀ s : State,
    let status := ramRead s (stackAddr (s.sp + 1))
    let low := ramRead s (stackAddr (s.sp + 2))
    let high := ramRead s (stackAddr (s.sp + 3))
    readable s (s.pc + 1) = true →
    ∃ v g, ReadsAt s (s.pc + 1) v (.read s.pc 0x40 :: s.history) g
      ∧ exec .rti s = .next
        { s with
          pc := word high low
          sp := s.sp + 3
          p := { n := status.getLsbD 7, v := status.getLsbD 6, d := status.getLsbD 3, i := status.getLsbD 2,
                 z := status.getLsbD 1, c := status.getLsbD 0 }
          phase := .fetchOpcode
          history :=
            .read (stackAddr (s.sp + 3)) high :: .read (stackAddr (s.sp + 2)) low
              :: .read (stackAddr (s.sp + 1)) status :: .read (stackAddr s.sp) (ramRead s (stackAddr s.sp)) :: g }

/-- An RTI that finds the frame intact restores the interrupted PC, all stored flags and SP. Formalises R344. -/
def Obligations.RtiUndoesAnInterrupt : Prop :=
  (∀ s u w : State, takeIrq s = .next u → w.sp = u.sp →
      (∀ k : Byte, k.toNat < 3 → ramRead w (stackAddr (s.sp - k)) = ramRead u (stackAddr (s.sp - k))) →
      readable w (w.pc + 1) = true →
      ∃ z, exec .rti w = .next z ∧ z.pc = s.pc ∧ z.p = s.p ∧ z.sp = s.sp ∧ z.irqPending = w.irqPending
        ∧ (w.irqPending = true → s.p.i = false → w.pausePending = false → w.halt = .none →
            stepCall z = andThen (openIrq z) fun t => .next (.ok, t)))
    ∧ ∀ (pad : Byte) (s u w : State), exec (.brk pad) s = .next u → w.sp = u.sp →
      (∀ k : Byte, k.toNat < 3 → ramRead w (stackAddr (s.sp - k)) = ramRead u (stackAddr (s.sp - k))) →
      readable w (w.pc + 1) = true →
      ∃ z, exec .rti w = .next z ∧ z.pc = s.pc + 2 ∧ z.p = s.p ∧ z.sp = s.sp

/-- P reads with bit 5 set and bit 4 clear, is pushed with both set by a program and with bit 4 clear by an interrupt,
and loads without them. Formalises R26. -/
def Obligations.StatusByteHasBreakAndUnusedOnlyOnTheStack : Prop :=
  ∀ (p : Flags) (b : Byte),
    p.toByte.getLsbD 7 = p.n ∧ p.toByte.getLsbD 6 = p.v ∧ p.toByte.getLsbD 5 = true ∧ p.toByte.getLsbD 4 = false
      ∧ p.toByte.getLsbD 3 = p.d ∧ p.toByte.getLsbD 2 = p.i ∧ p.toByte.getLsbD 1 = p.z ∧ p.toByte.getLsbD 0 = p.c
      ∧ p.pushedByProgram = p.toByte ||| 0x10 ∧ p.pushedByProgram.getLsbD 5 = true ∧ p.pushedByIrq = p.toByte
      ∧ Flags.fromStack b = Flags.fromStack (b ||| 0x30) ∧ (Flags.fromStack b).toByte = (b &&& 0xCF) ||| 0x20
      ∧ Flags.fromStack p.toByte = p ∧ Flags.fromStack p.pushedByProgram = p ∧ Flags.fromStack p.pushedByIrq = p
      ∧ ∀ s : State, (snapshot s).p = s.p.toByte

/-- PHA and PHP store at 0x0100 + SP and lower SP; PLA and PLP raise SP and load. Formalises R290, R291, R292, R293.
-/
def Obligations.PushesAndPullsUseTheStackPage : Prop :=
  (∀ (i : Instr) (opc val : Byte) (s : State),
      (i = .pha ∧ opc = 0x48 ∧ val = s.a) ∨ (i = .php ∧ opc = 0x08 ∧ val = s.p.toByte ||| 0x30) →
      readable s (s.pc + 1) = true →
      ∃ u v h, exec i s = .next u ∧ ReadsAt s (s.pc + 1) v (.read s.pc opc :: s.history) h
        ∧ u =
          { s with
            pc := s.pc + 1
            sp := s.sp - 1
            ram := u.ram
            phase := .fetchOpcode
            history := .write (stackAddr s.sp) val (s.pc + 1) :: h }
        ∧ ramRead u (stackAddr s.sp) = val ∧ ∀ a, a ≠ stackAddr s.sp → ramRead u a = ramRead s a)
    ∧ ∀ (i : Instr) (opc : Byte) (s : State),
        let val := ramRead s (stackAddr (s.sp + 1))
        let after : State :=
          if i = .pla then { s with a := val, p := { s.p with n := val.getLsbD 7, z := decide (val = 0) } }
          else
            { s with
              p := { n := val.getLsbD 7, v := val.getLsbD 6, d := val.getLsbD 3, i := val.getLsbD 2,
                     z := val.getLsbD 1, c := val.getLsbD 0 } }
        (i = .pla ∧ opc = 0x68) ∨ (i = .plp ∧ opc = 0x28) → readable s (s.pc + 1) = true →
        ∃ v h, ReadsAt s (s.pc + 1) v (.read s.pc opc :: s.history) h
          ∧ exec i s = .next
            { after with
              pc := s.pc + 1
              sp := s.sp + 1
              phase := .fetchOpcode
              history :=
                .read (stackAddr (s.sp + 1)) val :: .read (stackAddr s.sp) (ramRead s (stackAddr s.sp)) :: h }

/-- CLC, SEC, CLI, SEI, CLD, SED and CLV write one flag; NOP writes none. Formalises R294, R295, R296, R297, R298,
R299, R300, R301. -/
def Obligations.FlagInstructionsWriteOneFlag : Prop :=
  InternalForm .clc 0x18 (fun s => { s with p := { s.p with c := false } })
    ∧ InternalForm .sec 0x38 (fun s => { s with p := { s.p with c := true } })
    ∧ InternalForm .cli 0x58 (fun s => { s with p := { s.p with i := false } })
    ∧ InternalForm .sei 0x78 (fun s => { s with p := { s.p with i := true } })
    ∧ InternalForm .cld 0xD8 (fun s => { s with p := { s.p with d := false } })
    ∧ InternalForm .sed 0xF8 (fun s => { s with p := { s.p with d := true } })
    ∧ InternalForm .clv 0xB8 (fun s => { s with p := { s.p with v := false } })
    ∧ InternalForm .nop 0xEA (fun s => s)

/-- Under implement, the eight unofficial instructions shift, rotate, decrement or increment memory and then act on A,
store A & X, or load A and X. Formalises R313, R314, R315, R316, R317, R318, R319, R320. -/
def Obligations.UnofficialInstructionsCombineTwoOperations : Prop :=
  RmwForms .slo [(.zp, 0x07), (.zpx, 0x17), (.abs, 0x0F), (.abx, 0x1F), (.aby, 0x1B), (.izx, 0x03), (.izy, 0x13)]
        (fun s => s.params.unofficialPolicy = .implement)
        (fun v s =>
          let r := v <<< 1
          (r, s.a ||| r, { s.p with c := v.getLsbD 7, n := (s.a ||| r).getLsbD 7, z := decide (s.a ||| r = 0) }))
    ∧ RmwForms .rla [(.zp, 0x27), (.zpx, 0x37), (.abs, 0x2F), (.abx, 0x3F), (.aby, 0x3B), (.izx, 0x23), (.izy, 0x33)]
        (fun s => s.params.unofficialPolicy = .implement)
        (fun v s =>
          let r := (v <<< 1) + (if s.p.c then 1 else 0)
          (r, s.a &&& r, { s.p with c := v.getLsbD 7, n := (s.a &&& r).getLsbD 7, z := decide (s.a &&& r = 0) }))
    ∧ RmwForms .sre [(.zp, 0x47), (.zpx, 0x57), (.abs, 0x4F), (.abx, 0x5F), (.aby, 0x5B), (.izx, 0x43), (.izy, 0x53)]
        (fun s => s.params.unofficialPolicy = .implement)
        (fun v s =>
          let r := v >>> 1
          (r, s.a ^^^ r, { s.p with c := v.getLsbD 0, n := (s.a ^^^ r).getLsbD 7, z := decide (s.a ^^^ r = 0) }))
    ∧ RmwForms .rra [(.zp, 0x67), (.zpx, 0x77), (.abs, 0x6F), (.abx, 0x7F), (.aby, 0x7B), (.izx, 0x63), (.izy, 0x73)]
        (fun s => s.params.unofficialPolicy = .implement)
        (fun v s =>
          let r := (v >>> 1) + (if s.p.c then 0x80 else 0)
          (r, adcFlags s.params.decimalMode s.a r { s.p with c := v.getLsbD 0 }))
    ∧ StoreForms .sax [(.zp, 0x87), (.zpy, 0x97), (.abs, 0x8F), (.izx, 0x83)]
        (fun s => s.params.unofficialPolicy = .implement) (fun s => s.a &&& s.x)
    ∧ ReadForms .lax [(.zp, 0xA7), (.zpy, 0xB7), (.abs, 0xAF), (.aby, 0xBF), (.izx, 0xA3), (.izy, 0xB3)]
        (fun s => s.params.unofficialPolicy = .implement)
        (fun v s => { s with a := v, x := v, p := { s.p with n := v.getLsbD 7, z := decide (v = 0) } })
    ∧ RmwForms .dcp [(.zp, 0xC7), (.zpx, 0xD7), (.abs, 0xCF), (.abx, 0xDF), (.aby, 0xDB), (.izx, 0xC3), (.izy, 0xD3)]
        (fun s => s.params.unofficialPolicy = .implement)
        (fun v s =>
          let r := v - 1
          (r, s.a, { s.p with c := decide (r.toNat ≤ s.a.toNat), n := (s.a - r).getLsbD 7, z := decide (s.a = r) }))
    ∧ RmwForms .isc [(.zp, 0xE7), (.zpx, 0xF7), (.abs, 0xEF), (.abx, 0xFF), (.aby, 0xFB), (.izx, 0xE3), (.izy, 0xF3)]
        (fun s => s.params.unofficialPolicy = .implement)
        (fun v s =>
          let r := v + 1
          (r, sbcFlags s.params.decimalMode s.a r s.p))

/-- Under nop_with_cycles an unofficial opcode fetches its bytes and idles for the rest of its cycle count. Formalises
R312, R155. -/
def Obligations.NopWithCyclesOnlyFetchesAndIdles : Prop :=
  ∀ row ∈ unofficialTable, ∀ (m : Operand) (opc : Byte) (cycles : Nat) (s : State), (m.mode, opc, cycles) ∈ row.2 →
    s.params.unofficialPolicy = .nopWithCycles →
    exec (row.1 m) s = .next (atBoundary (nextPc m s)
      (List.replicate (cycles - m.mode.length) .idle ++ operandFetches m s ++ .read s.pc opc :: s.history) s)

/-- Under error an unofficial opcode halts the core at its fetch with UnimplementedOpcode. Formalises R311. -/
def Obligations.ErrorPolicyHaltsAtTheUnofficialOpcode : Prop :=
  ∀ row ∈ unofficialTable, ∀ (m : Operand) (opc : Byte) (cycles : Nat) (s : State), (m.mode, opc, cycles) ∈ row.2 →
    s.params.unofficialPolicy = .error →
    let t := { s with halt := .unimplementedOpcode s.pc opc, history := .read s.pc opc :: s.history }
    exec (row.1 m) s = .next t
      ∧ (s.halt = .none → s.phase = .fetchOpcode → s.pausePending = false → (s.irqPending && !s.p.i) = false →
          busValue s s.pc = .next opc →
          stepCall s = .next (.halted (.unimplementedOpcode s.pc opc), t) ∧ step s = .next t)

/-- Each of the 53 illegal opcodes halts the core at its fetch with FatalHalt, whatever the policy. Formalises R321.
-/
def Obligations.IllegalOpcodesHaltTheCore : Prop :=
  ∀ (opc : Byte) (s : State),
    opc ∈ ([0x02, 0x04, 0x0B, 0x0C, 0x12, 0x14, 0x1A, 0x1C, 0x22, 0x2B, 0x32, 0x34, 0x3A, 0x3C, 0x42, 0x44,
      0x4B, 0x52, 0x54, 0x5A, 0x5C, 0x62, 0x64, 0x6B, 0x72, 0x74, 0x7A, 0x7C, 0x80, 0x82, 0x89, 0x8B,
      0x92, 0x93, 0x9B, 0x9C, 0x9E, 0x9F, 0xAB, 0xB2, 0xBB, 0xC2, 0xCB, 0xD2, 0xD4, 0xDA, 0xDC, 0xE2,
      0xEB, 0xF2, 0xF4, 0xFA, 0xFC] : List Byte) →
    let t := { s with halt := .fatalHalt s.pc opc, history := .read s.pc opc :: s.history }
    exec (.illegal opc) s = .next t ∧ step t = .next t ∧ (hostReset t).halt = .none
      ∧ (s.halt = .none → s.phase = .fetchOpcode → s.pausePending = false → (s.irqPending && !s.p.i) = false →
          busValue s s.pc = .next opc →
          stepCall s = .next (.halted (.fatalHalt s.pc opc), t) ∧ step s = .next t)

/-- A flag changes only under the instructions of the table of R27, and interrupt entry changes only I. Formalises
R27. -/
def Obligations.EachFlagIsWrittenOnlyByItsInstructions : Prop :=
  (∀ (i : Instr) (s t : State), exec i s = .next t →
      (t.p.n ≠ s.p.n ∨ t.p.z ≠ s.p.z → i.mnem ∈
        ([.lda, .ldx, .ldy, .tax, .tay, .txa, .tya, .tsx, .pla, .adc, .sbc, .and, .ora, .eor, .cmp, .cpx, .cpy,
          .asl, .lsr, .rol, .ror, .inc, .dec, .inx, .iny, .dex, .dey, .bit, .slo, .rla, .sre, .rra, .lax, .dcp, .isc,
          .plp, .rti] : List Mnem))
      ∧ (t.p.c ≠ s.p.c → i.mnem ∈
        ([.adc, .sbc, .cmp, .cpx, .cpy, .asl, .lsr, .rol, .ror, .clc, .sec, .slo, .rla, .sre, .rra, .dcp, .isc, .plp,
          .rti] : List Mnem))
      ∧ (t.p.v ≠ s.p.v → i.mnem ∈ ([.adc, .sbc, .bit, .clv, .rra, .isc, .plp, .rti] : List Mnem))
      ∧ (t.p.i ≠ s.p.i → i.mnem ∈ ([.sei, .cli, .brk, .plp, .rti] : List Mnem))
      ∧ (t.p.d ≠ s.p.d → i.mnem ∈ ([.sed, .cld, .plp, .rti] : List Mnem)))
    ∧ ∀ s t : State, takeIrq s = .next t → t.p = { s.p with i := true }

/-- A, X, Y and SP change only under their instructions, and PC ends after every instruction that does not transfer
control. Rests on 10_state.md section 1, 40_microsteps.md section 4. -/
def Obligations.RegistersAreWrittenOnlyByTheirInstructions : Prop :=
  ∀ (i : Instr) (s t : State), exec i s = .next t →
    (t.a ≠ s.a → i.mnem ∈
        ([.lda, .txa, .tya, .pla, .adc, .sbc, .and, .ora, .eor, .asl, .lsr, .rol, .ror, .slo, .rla, .sre, .rra, .lax,
          .isc] : List Mnem))
      ∧ (t.x ≠ s.x → i.mnem ∈ ([.ldx, .tax, .tsx, .inx, .dex, .lax] : List Mnem))
      ∧ (t.y ≠ s.y → i.mnem ∈ ([.ldy, .tay, .iny, .dey] : List Mnem))
      ∧ (t.sp ≠ s.sp → i.mnem ∈ ([.txs, .pha, .php, .pla, .plp, .jsr, .rts, .brk, .rti] : List Mnem))
      ∧ (i.mnem ∉ ([.bpl, .bmi, .bvc, .bvs, .bcc, .bcs, .bne, .beq, .jmp, .jsr, .rts, .brk, .rti,
          .illegal] : List Mnem) →
          (classOf i.mnem = .unofficial → s.params.unofficialPolicy ≠ .error) →
          t.pc = s.pc + BitVec.ofNat 16 i.mode.length)

/-- Every instruction and interrupt entry makes as many bus cycles as the cycle table says. Formalises R156. -/
def Obligations.CycleCountsAreThoseOfTheTable : Prop :=
  (∀ (i : Instr) (s t : State), exec i s = .next t →
      (classOf i.mnem = .documented ∨ (classOf i.mnem = .unofficial ∧ s.params.unofficialPolicy = .implement)) →
      t.history.length = s.history.length + tableCycles i s)
    ∧ ∀ s t : State, takeIrq s = .next t → t.history.length = s.history.length + 7

/-- A port read gives the data bit where the direction is output and the external level elsewhere; bit 7 of CIA2 port
A is the acknowledgement line. Formalises R358, R371. -/
def Obligations.PortsPassOutputBitsThroughTheDirectionMask : Prop :=
  (∀ (s : State) (n : CiaId) (k : Nat), k < 8 →
      let q := ciaPorts n s
      let line : Bool := if s.params.ackPolarity = .activeLow then !s.serial.ack else s.serial.ack
      let inA : Bool :=
        if n = .cia2 ∧ k = 7 then line else (Config.ciaExtA n s.extTime s.history).getLsbD k
      (ciaRead n 0 s).getLsbD k = (if q.ddra.getLsbD k then q.pra.getLsbD k else inA)
        ∧ (ciaRead n 1 s).getLsbD k
          = (if q.ddrb.getLsbD k then q.prb.getLsbD k else (Config.ciaExtB n s.extTime s.history).getLsbD k)
        ∧ ciaRead n 2 s = q.ddra ∧ ciaRead n 3 s = q.ddrb
        ∧ ∀ off : BitVec 4, 4 ≤ off.toNat → ciaRead n off s = Config.ciaRead n s.extTime s.history off)
    ∧ ∀ (b : SerialBus) (ch out : Byte),
        let t := b.edgeNotify ch out
        (t.ack ≠ b.ack →
            (b.sstate = .idle ∧ t.sstate = .waitCommand) ∨ (b.sstate = .waitCommand ∧ t.sstate = .waitSecondaryAddress)
              ∨ (b.sstate = .waitCommand ∧ t.sstate = .talk) ∨ (b.sstate = .waitSecondaryAddress ∧ t.sstate = .eoi)
              ∨ (b.sstate = .listen ∧ t.sstate = .idle))
          ∧ (b.sstate = .idle → t.sstate = .waitCommand → t.ack = true)
          ∧ (b.sstate = .waitCommand → t.sstate = .waitSecondaryAddress ∨ t.sstate = .talk → t.ack = false)
          ∧ (b.sstate = .waitSecondaryAddress → t.sstate = .eoi → t.ack = false)
          ∧ (b.sstate = .listen → t.sstate = .idle → t.ack = false)

/-- A write to CIA2 port A or its direction register updates the output byte and notifies the serial bus exactly when
the byte changes. Formalises R359, R360. -/
def Obligations.PortWritesNotifyTheSerialBusOnlyOnAChange : Prop :=
  ∀ (s : State) (n : CiaId) (off : BitVec 4) (v : Byte),
    let t := ciaWrite n off v s
    let q := ciaPorts n s
    (off.toNat < 4 →
        ciaPorts n t
            = { pra := if off = 0 then v else q.pra, prb := if off = 1 then v else q.prb
                ddra := if off = 2 then v else q.ddra, ddrb := if off = 3 then v else q.ddrb }
          ∧ t = { s with cia1 := t.cia1, cia2 := t.cia2, outA2 := t.outA2, serial := t.serial }
          ∧ (n = .cia1 → t.cia2 = s.cia2) ∧ (n = .cia2 → t.cia1 = s.cia1)
          ∧ (if n = .cia2 ∧ (off = 0 ∨ off = 2) then
                t.outA2 = t.cia2.pra &&& t.cia2.ddra
                  ∧ t.serial
                    = if t.outA2 = s.outA2 then s.serial else s.serial.edgeNotify (s.outA2 ^^^ t.outA2) t.outA2
              else t.outA2 = s.outA2 ∧ t.serial = s.serial))
      ∧ (4 ≤ off.toNat →
          t = { s with
                deliveries := s.deliveries ++ [{ target := .cia n, offset := off.toNat, value := v, pc := s.pc }] })

/-- The serial bus changes only in a write cycle to CIA2 port A or its direction register; a bus cycle keeps its events,
and the host only removes some. Formalises R365. -/
def Obligations.SerialStateChangesOnlyInAPortAWrite : Prop :=
  (∀ s t : State, busCycle s = .next t → t.serial ≠ s.serial ∨ t.outA2 ≠ s.outA2 →
      t.outA2 ≠ s.outA2
        ∧ ∃ a v pc off, t.history = .write a v pc :: s.history ∧ targetOf s a = .cia .cia2 off ∧ (off = 0 ∨ off = 2))
    ∧ (∀ s t : State, busCycle s = .next t → ∃ new, t.serial.events = s.serial.events ++ new)
    ∧ ∀ (h : HostAction) (s : State),
        (hostAct h s).outA2 = s.outA2
          ∧ ((hostAct h s).serial = s.serial
            ∨ ∃ n, h = .consumeEvents n ∧ (hostAct h s).serial = { s.serial with events := s.serial.events.drop n })

/-- Eight CLK rises shift a byte in, least significant bit first, and each state of the bus acts on it as its rule
says. Formalises R369, R370, R372, R373, R374, R375, R376, R377, R380. -/
def Obligations.EightRisesDeliverOneByte : Prop :=
  (∀ (b : SerialBus) (byte : Byte) (atn : Bool) (ns : List Notification), Delivers byte atn ns →
      b.nbits = 0 → b.shreg = 0 →
      (b.sstate = .waitCommand →
          b.notifyAll ns =
            if 0x20 ≤ byte.toNat ∧ byte.toNat ≤ 0x3E then
              { b with primary := byte &&& 0x1F, ack := false, sstate := .waitSecondaryAddress }
            else if 0x40 ≤ byte.toNat ∧ byte.toNat ≤ 0x5E then
              { b with primary := byte &&& 0x1F, ack := false, sstate := .talk }
            else b)
        ∧ (b.sstate = .waitSecondaryAddress →
            b.notifyAll ns = { b with secondary := byte, ack := false, sstate := .eoi })
        ∧ (b.sstate = .listen →
            b.notifyAll ns =
              if atn = false then { b with queue := b.queue ++ [byte] }
              else if byte = 0x3F then
                { b with
                  events := b.events ++ [.openFile b.primary b.secondary b.queue]
                  queue := []
                  ack := false
                  sstate := .idle }
              else b))
    ∧ (∀ (b : SerialBus) (ch out : Byte), b.sstate = .idle →
        b.edgeNotify ch out
          = if lineAtn out = true ∧ lineClkLow out = true then
              { b with sstate := .waitCommand, nbits := 0, shreg := 0, ack := true }
            else b)
    ∧ (∀ (b : SerialBus) (ch out : Byte), b.sstate = .eoi →
        b.edgeNotify ch out
          = if clkRise ch out = true then { b with sstate := .listen, nbits := 0, shreg := 0 } else b)
    ∧ (∀ (b : SerialBus) (ns : List Notification), b.sstate = .talk → b.notifyAll ns = b)
    ∧ ∀ (b : SerialBus) (ch out byte : Byte) (atn : Bool) (ns : List Notification), b.sstate = .idle →
      lineAtn out = true → lineClkLow out = true → 0x20 ≤ byte.toNat → byte.toNat ≤ 0x3E → Delivers byte atn ns →
      (b.edgeNotify ch out).notifyAll ns
        = { b with
            sstate := .waitSecondaryAddress
            nbits := 0
            shreg := 0
            primary := byte &&& 0x1F
            ack := false }

/-- A whole LISTEN, secondary address, name, UNLISTEN transaction emits one OpenFile event with exactly the name sent.
Rests on 60_exceptions.md section 5. -/
def Obligations.OpenTransactionEmitsTheFileName : Prop :=
  ∀ (b : SerialBus) (ch out device sa : Byte) (name : List Byte) (atn atn' : Bool) (chE outE : Byte)
    (nsListen nsSecondary nsName nsUnlisten : List Notification),
    b.sstate = .idle → b.queue = [] → lineAtn out = true → lineClkLow out = true → device.toNat ≤ 30 →
    Delivers (0x20 + device) atn nsListen → Delivers sa atn' nsSecondary → clkRise chE outE = true →
    DeliversAll name nsName → Delivers 0x3F true nsUnlisten →
    (b.edgeNotify ch out).notifyAll (nsListen ++ nsSecondary ++ [(chE, outE)] ++ nsName ++ nsUnlisten)
      = { b with
          sstate := .idle
          nbits := 0
          shreg := 0
          primary := device
          secondary := sa
          ack := false
          events := b.events ++ [.openFile device sa name] }

/-- Each host action has exactly its effect; raw memory access bypasses the bank decode. Formalises R388, R92. While
`romsOpen` holds (log 14) no ROM image has been loaded and reset() has not been called. -/
def Obligations.HostActionsHaveTheirEffectsOnly : Prop :=
  ∀ (s : State) (a : Word) (v : Byte) (on : Bool) (n : Nat) (kernal : Memory) (basic : Option Memory),
    hostAct .requestInterrupt s = { s with irqPending := true }
      ∧ hostAct (.setPause on) s = { s with pausePending := on }
      ∧ hostAct .clearRedraw s = { s with redrawNeeded := false }
      ∧ hostAct (.consumeEvents n) s = { s with serial := { s.serial with events := s.serial.events.drop n } }
      ∧ (s.romsOpen = true →
          hostAct (.loadRoms kernal basic) s = { s with kernalRom := kernal, basicRom := basic, romsOpen := false })
      ∧ hostAct .advancePeripherals s = { s with extTime := s.extTime + 1 }
      ∧ hostAct .reset s = hostReset s
      ∧ hostAct (.rawWrite a v) s = { s with ram := (hostAct (.rawWrite a v) s).ram }
      ∧ (∀ b, rawRead (hostAct (.rawWrite a v) s) b = if b = a then v else rawRead s b)
      ∧ ∀ b, rawRead s b = s.ram.get ramUnlisted b.toNat

end
end

