-- ==== Sys2Proof/Laws/PerInstr.lean ====
section
/-! SUPPORT. The family `EncodeLength`: a well-formed instruction has as many bytes as its format says (R115), one
lemma per constructor. -/

namespace Sys2Proof.Laws

/-- The words of a well-formed instruction are its opcode byte and its operand bytes. -/
theorem encode_eq {i : Instr} (h : WellFormed i) : encode i = Machine.opcodeByte i :: i.operandBytes := by
  simp only [encode, Machine.opcode_of_wellFormed h]

/-- The statement about one instruction. -/
def EncodeLength.Statement (i : Instr) : Prop := WellFormed i → (encode i).length = i.mode.length

theorem EncodeLength.of_bytes {i : Instr} (hb : i.operandBytes.length + 1 = i.mode.length) : EncodeLength.Statement i :=
  fun h => by rw [encode_eq h, List.length_cons, hb]

theorem EncodeLength.operand (m : Operand) : m.bytes.length + 1 = m.mode.length := by cases m <;> rfl

theorem EncodeLength.lda (m : Operand) : EncodeLength.Statement (.lda m) := of_bytes (operand m)
theorem EncodeLength.ldx (m : Operand) : EncodeLength.Statement (.ldx m) := of_bytes (operand m)
theorem EncodeLength.ldy (m : Operand) : EncodeLength.Statement (.ldy m) := of_bytes (operand m)
theorem EncodeLength.sta (m : Operand) : EncodeLength.Statement (.sta m) := of_bytes (operand m)
theorem EncodeLength.stx (m : Operand) : EncodeLength.Statement (.stx m) := of_bytes (operand m)
theorem EncodeLength.sty (m : Operand) : EncodeLength.Statement (.sty m) := of_bytes (operand m)
theorem EncodeLength.tax : EncodeLength.Statement .tax := of_bytes rfl
theorem EncodeLength.tay : EncodeLength.Statement .tay := of_bytes rfl
theorem EncodeLength.txa : EncodeLength.Statement .txa := of_bytes rfl
theorem EncodeLength.tya : EncodeLength.Statement .tya := of_bytes rfl
theorem EncodeLength.tsx : EncodeLength.Statement .tsx := of_bytes rfl
theorem EncodeLength.txs : EncodeLength.Statement .txs := of_bytes rfl
theorem EncodeLength.adc (m : Operand) : EncodeLength.Statement (.adc m) := of_bytes (operand m)
theorem EncodeLength.sbc (m : Operand) : EncodeLength.Statement (.sbc m) := of_bytes (operand m)
theorem EncodeLength.and (m : Operand) : EncodeLength.Statement (.and m) := of_bytes (operand m)
theorem EncodeLength.ora (m : Operand) : EncodeLength.Statement (.ora m) := of_bytes (operand m)
theorem EncodeLength.eor (m : Operand) : EncodeLength.Statement (.eor m) := of_bytes (operand m)
theorem EncodeLength.bit (m : Operand) : EncodeLength.Statement (.bit m) := of_bytes (operand m)
theorem EncodeLength.cmp (m : Operand) : EncodeLength.Statement (.cmp m) := of_bytes (operand m)
theorem EncodeLength.cpx (m : Operand) : EncodeLength.Statement (.cpx m) := of_bytes (operand m)
theorem EncodeLength.cpy (m : Operand) : EncodeLength.Statement (.cpy m) := of_bytes (operand m)
theorem EncodeLength.asl (m : Operand) : EncodeLength.Statement (.asl m) := of_bytes (operand m)
theorem EncodeLength.lsr (m : Operand) : EncodeLength.Statement (.lsr m) := of_bytes (operand m)
theorem EncodeLength.rol (m : Operand) : EncodeLength.Statement (.rol m) := of_bytes (operand m)
theorem EncodeLength.ror (m : Operand) : EncodeLength.Statement (.ror m) := of_bytes (operand m)
theorem EncodeLength.inc (m : Operand) : EncodeLength.Statement (.inc m) := of_bytes (operand m)
theorem EncodeLength.dec (m : Operand) : EncodeLength.Statement (.dec m) := of_bytes (operand m)
theorem EncodeLength.inx : EncodeLength.Statement .inx := of_bytes rfl
theorem EncodeLength.iny : EncodeLength.Statement .iny := of_bytes rfl
theorem EncodeLength.dex : EncodeLength.Statement .dex := of_bytes rfl
theorem EncodeLength.dey : EncodeLength.Statement .dey := of_bytes rfl
theorem EncodeLength.bpl (off : Byte) : EncodeLength.Statement (.bpl off) := of_bytes rfl
theorem EncodeLength.bmi (off : Byte) : EncodeLength.Statement (.bmi off) := of_bytes rfl
theorem EncodeLength.bvc (off : Byte) : EncodeLength.Statement (.bvc off) := of_bytes rfl
theorem EncodeLength.bvs (off : Byte) : EncodeLength.Statement (.bvs off) := of_bytes rfl
theorem EncodeLength.bcc (off : Byte) : EncodeLength.Statement (.bcc off) := of_bytes rfl
theorem EncodeLength.bcs (off : Byte) : EncodeLength.Statement (.bcs off) := of_bytes rfl
theorem EncodeLength.bne (off : Byte) : EncodeLength.Statement (.bne off) := of_bytes rfl
theorem EncodeLength.beq (off : Byte) : EncodeLength.Statement (.beq off) := of_bytes rfl
theorem EncodeLength.jmp (t : JumpOperand) : EncodeLength.Statement (.jmp t) := of_bytes (by cases t <;> rfl)
theorem EncodeLength.jsr (t : Word) : EncodeLength.Statement (.jsr t) := of_bytes rfl
theorem EncodeLength.rts : EncodeLength.Statement .rts := of_bytes rfl
theorem EncodeLength.brk (pad : Byte) : EncodeLength.Statement (.brk pad) := of_bytes rfl
theorem EncodeLength.rti : EncodeLength.Statement .rti := of_bytes rfl
theorem EncodeLength.pha : EncodeLength.Statement .pha := of_bytes rfl
theorem EncodeLength.php : EncodeLength.Statement .php := of_bytes rfl
theorem EncodeLength.pla : EncodeLength.Statement .pla := of_bytes rfl
theorem EncodeLength.plp : EncodeLength.Statement .plp := of_bytes rfl
theorem EncodeLength.clc : EncodeLength.Statement .clc := of_bytes rfl
theorem EncodeLength.sec : EncodeLength.Statement .sec := of_bytes rfl
theorem EncodeLength.cli : EncodeLength.Statement .cli := of_bytes rfl
theorem EncodeLength.sei : EncodeLength.Statement .sei := of_bytes rfl
theorem EncodeLength.cld : EncodeLength.Statement .cld := of_bytes rfl
theorem EncodeLength.sed : EncodeLength.Statement .sed := of_bytes rfl
theorem EncodeLength.clv : EncodeLength.Statement .clv := of_bytes rfl
theorem EncodeLength.nop : EncodeLength.Statement .nop := of_bytes rfl
theorem EncodeLength.slo (m : Operand) : EncodeLength.Statement (.slo m) := of_bytes (operand m)
theorem EncodeLength.rla (m : Operand) : EncodeLength.Statement (.rla m) := of_bytes (operand m)
theorem EncodeLength.sre (m : Operand) : EncodeLength.Statement (.sre m) := of_bytes (operand m)
theorem EncodeLength.rra (m : Operand) : EncodeLength.Statement (.rra m) := of_bytes (operand m)
theorem EncodeLength.sax (m : Operand) : EncodeLength.Statement (.sax m) := of_bytes (operand m)
theorem EncodeLength.lax (m : Operand) : EncodeLength.Statement (.lax m) := of_bytes (operand m)
theorem EncodeLength.dcp (m : Operand) : EncodeLength.Statement (.dcp m) := of_bytes (operand m)
theorem EncodeLength.isc (m : Operand) : EncodeLength.Statement (.isc m) := of_bytes (operand m)
theorem EncodeLength.illegal (opc : Byte) : EncodeLength.Statement (.illegal opc) := of_bytes rfl

end Sys2Proof.Laws
end

