-- ==== Sys2Proof/Tests/Slice0.lean ====
section
/-! SUPPORT. Tests, each expected value from the place of the spec that its comment names, and a witness for the
hypotheses of every obligation that has some. -/

namespace Sys2Proof.Machine

/-! ## The well-formedness check refuses what is no instruction -/

theorem test_wf_store_to_immediate : WellFormed (.sta (.imm 0)) = False := by decide
theorem test_wf_ldx_has_no_zpx : WellFormed (.ldx (.zpx 0)) = False := by decide
theorem test_wf_shift_has_no_aby : WellFormed (.asl (.aby 0)) = False := by decide
theorem test_wf_inc_has_no_acc : WellFormed (.inc .acc) = False := by decide
theorem test_wf_bit_has_no_imm : WellFormed (.bit (.imm 0)) = False := by decide
theorem test_wf_sax_has_no_izy : WellFormed (.sax (.izy 0)) = False := by decide
theorem test_wf_illegal_of_a_legal_byte : WellFormed (.illegal 0xEA) = False := by decide
theorem test_wf_ill_formed_is_refused : exec (.sta (.imm 0)) State.reset = .refused .illFormed := rfl
theorem test_encode_of_no_instruction : encode (.bit (.imm 0)) = [] := by decide
theorem test_wf_accepts_each_kind :
    WellFormed (.sta (.izy 0)) ∧ WellFormed (.jmp (.ind 0x02FF)) ∧ WellFormed (.lsr .acc)
        ∧ WellFormed (.illegal 0x02) := by
  decide

/-! ## Decoding: one word of each constructor, from the table's `match` byte and 30_encoding.md R101 to R106 -/

def decodes (rows : List (Nat × Nat × Instr)) : Bool := rows.all fun r => decodeTableWord r.1 r.2.1 == some r.2.2

theorem test_decode_loads_stores_transfers :
    decodes
      [(16, 0x34A1, .lda (.izx 0x34)), (16, 0x34A5, .lda (.zp 0x34)), (16, 0x34A9, .lda (.imm 0x34)),
        (24, 0x1234AD, .lda (.abs 0x1234)), (16, 0x34B1, .lda (.izy 0x34)), (16, 0x34B5, .lda (.zpx 0x34)),
        (24, 0x1234B9, .lda (.aby 0x1234)), (24, 0x1234BD, .lda (.abx 0x1234)), (16, 0x34B6, .ldx (.zpy 0x34)),
        (16, 0x34A4, .ldy (.zp 0x34)), (24, 0x12348D, .sta (.abs 0x1234)), (16, 0x3486, .stx (.zp 0x34)),
        (16, 0x3484, .sty (.zp 0x34)), (8, 0xAA, .tax), (8, 0xA8, .tay), (8, 0x8A, .txa), (8, 0x98, .tya),
        (8, 0xBA, .tsx), (8, 0x9A, .txs)] = true := by
  decide
theorem test_decode_arithmetic_logic :
    decodes
      [(16, 0x3461, .adc (.izx 0x34)), (24, 0x1234ED, .sbc (.abs 0x1234)), (24, 0x123439, .and (.aby 0x1234)),
        (16, 0x3405, .ora (.zp 0x34)), (16, 0x3451, .eor (.izy 0x34)), (24, 0x12342C, .bit (.abs 0x1234)),
        (16, 0x34C9, .cmp (.imm 0x34)), (16, 0x34E0, .cpx (.imm 0x34)), (16, 0x34C0, .cpy (.imm 0x34))] = true := by
  decide
theorem test_decode_shifts_increments :
    decodes
      [(16, 0x3406, .asl (.zp 0x34)), (16, 0x3456, .lsr (.zpx 0x34)), (8, 0x2A, .rol .acc),
        (24, 0x12347E, .ror (.abx 0x1234)), (16, 0x34E6, .inc (.zp 0x34)), (24, 0x1234DE, .dec (.abx 0x1234)),
        (8, 0xE8, .inx), (8, 0xC8, .iny), (8, 0xCA, .dex), (8, 0x88, .dey)] = true := by
  decide
theorem test_decode_control :
    decodes
      [(16, 0x3410, .bpl 0x34), (16, 0x3430, .bmi 0x34), (16, 0x3450, .bvc 0x34), (16, 0x3470, .bvs 0x34),
        (16, 0x3490, .bcc 0x34), (16, 0x34B0, .bcs 0x34), (16, 0x34D0, .bne 0x34), (16, 0x34F0, .beq 0x34),
        (24, 0x12344C, .jmp (.abs 0x1234)), (24, 0x12346C, .jmp (.ind 0x1234)), (24, 0x123420, .jsr 0x1234),
        (8, 0x60, .rts), (16, 0x3400, .brk 0x34), (8, 0x40, .rti)] = true := by
  decide
theorem test_decode_stack_flags :
    decodes
      [(8, 0x48, .pha), (8, 0x8, .php), (8, 0x68, .pla), (8, 0x28, .plp), (8, 0x18, .clc), (8, 0x38, .sec),
        (8, 0x58, .cli), (8, 0x78, .sei), (8, 0xD8, .cld), (8, 0xF8, .sed), (8, 0xB8, .clv), (8, 0xEA, .nop)]
            = true := by
  decide
theorem test_decode_unofficial_illegal :
    decodes
      [(16, 0x3403, .slo (.izx 0x34)), (16, 0x3433, .rla (.izy 0x34)), (24, 0x12345F, .sre (.abx 0x1234)),
        (24, 0x12346F, .rra (.abs 0x1234)), (16, 0x3483, .sax (.izx 0x34)), (16, 0x34B3, .lax (.izy 0x34)),
        (16, 0x34D7, .dcp (.zpx 0x34)), (16, 0x34E3, .isc (.izx 0x34)), (8, 0x2, .illegal 0x02)] = true := by
  decide
theorem test_decode_rejects_missing_bytes :
    decode [] = .error .noBytes ∧ decode [0xAD, 0x34] = .error (.truncated 0xAD) := ⟨rfl, rfl⟩
theorem test_encode_is_little_endian : encode (.sta (.abx 0x02FF)) = [0x9D, 0xFF, 0x02] := by decide

/-! ## One step -/

/-- A boundary at 0xC000 as 95_test_vectors.md starts: I clear, every register 0, RAM[0x0001] = 0x37. -/
def base : State := { State.reset with p := Flags.fromStack 0 }

def bytesAt (a : Word) : List Byte → State → State
  | [], s => s
  | b :: bs, s => bytesAt (a + 1) bs (ramWrite a b s)

/-- An instruction's bytes at 0xC000, and a set-up. -/
def code (bytes : List Byte) (setup : State → State) : State := setup (bytesAt 0xC000 bytes base)

def poke (m : List (Word × Byte)) (s : State) : State := m.foldl (fun s c => ramWrite c.1 c.2 s) s

/-- One value of the state a step ends in. -/
def see {α : Type} (f : State → α) (s : State) : Option α :=
  match step s with
  | .next t => some (f t)
  | .fault _ | .refused _ => none

/-- "cyc" of 95_test_vectors.md. -/
def cyc (t : State) : Nat := t.history.length

def nmosBcd (s : State) : State := { s with params := { s.params with decimalMode := .nmosBcd } }

def policy (q : UnofficialPolicy) (s : State) : State := { s with params := { s.params with unofficialPolicy := q } }

def withP (b : Byte) (s : State) : State := { s with p := Flags.fromStack b }

def withAP (a b : Byte) (s : State) : State := { withP b s with a := a }

def axpc (t : State) : Byte × Byte × Nat := (t.a, t.p.toByte, cyc t)

/-! ### 95_test_vectors.md 1 and 2.1; the transfers from 41_load_store_transfer.md R186 to R189 -/

theorem test_lda_izy_cross :
    see axpc
        (code [0xB1, 0x10] fun s => poke [(0x10, 0xFF), (0x11, 0x02), (0x0300, 0x99)] { s with y := 1 })
      = some (0x99, 0xA0, 6) := by
  decide
theorem test_lda_izx_pointer_wraps :
    see axpc
        (code [0xA1, 0xFE] fun s => poke [(0xFF, 0x00), (0x00, 0x2F), (0x2F00, 0x55)] { s with x := 1 })
      = some (0x55, 0x20, 6) := by
  decide
theorem test_ldx_zpy_wraps :
    see (fun t => (t.x, t.p.toByte, cyc t))
        (code [0xB6, 0xF0] fun s => poke [(0x10, 0x77)] { s with y := 0x20 })
      = some (0x77, 0x20, 4) := by
  decide
theorem test_ldy_abx_cross :
    see (fun t => (t.y, t.history.reverse))
        (code [0xBC, 0xFF, 0x02] fun s => poke [(0x0200, 0x11), (0x0300, 0x80)] { s with x := 1 })
      = some (0x80, [.read 0xC000 0xBC, .read 0xC001 0xFF, .read 0xC002 0x02, .read 0x0200 0x11,
          .read 0x0300 0x80]) := by
  decide
theorem test_sta_video_ram_redraws :
    see (fun t => (ramRead t 0x0400, t.redrawNeeded, cyc t))
        (code [0x8D, 0x00, 0x04] (withAP 0x41 0))
      = some (0x41, true, 4) := by
  decide
theorem test_sta_abx_reads_first :
    see (fun t => t.history.reverse)
        (code [0x9D, 0xFF, 0x02] fun s => { s with a := 0x12, x := 1 })
      = some [.read 0xC000 0x9D, .read 0xC001 0xFF, .read 0xC002 0x02, .read 0x0200 0, .write 0x0300 0x12 0xC003] := by
  decide
theorem test_stx_zp :
    see (fun t => (ramRead t 0x10, t.p.toByte, cyc t))
        (code [0x86, 0x10] fun s => { s with x := 0x80 })
      = some (0x80, 0x20, 3) := by
  decide
theorem test_sty_zpx_wraps :
    see (fun t => (ramRead t 0x00, cyc t))
        (code [0x94, 0x01] fun s => poke [(0x00, 0x2F)] { s with x := 0xFF })
      = some (0x00, 4) := by
  decide
theorem test_tax :
    see (fun t => (t.x, t.p.toByte, cyc t)) (code [0xAA] fun s => { s with a := 0x80 }) = some (0x80, 0xA0, 2) := by
  decide
theorem test_tay :
    see (fun t => (t.y, t.p.toByte, cyc t)) (code [0xA8] fun s => { s with a := 0x80 }) = some (0x80, 0xA0, 2) := by
  decide
theorem test_txa :
    see (fun t => (t.a, t.p.toByte, cyc t)) (code [0x8A] fun s => { s with x := 0x80 }) = some (0x80, 0xA0, 2) := by
  decide
theorem test_tya :
    see (fun t => (t.a, t.p.toByte, cyc t)) (code [0x98] fun s => { s with y := 0x80 }) = some (0x80, 0xA0, 2) := by
  decide
theorem test_tsx :
    see (fun t => (t.x, t.p.toByte, cyc t)) (code [0xBA] fun s => { s with sp := 0xF0 }) = some (0xF0, 0xA0, 2) := by
  decide
theorem test_txs_sets_no_flag :
    see (fun t => (t.sp, t.p.toByte, cyc t)) (code [0x9A] id) = some (0x00, 0x20, 2) := by
  decide

/-! ### 95_test_vectors.md 2.2 -/

theorem test_adc_overflow : see axpc (code [0x69, 0x80] (withAP 0x80 0x00)) = some (0x00, 0x63, 2) := by decide
theorem test_adc_bcd_zero_from_binary_sum :
    see axpc (code [0x69, 0x01] fun s => nmosBcd (withAP 0x99 0x08 s)) = some (0x00, 0xA9, 2) := by
  decide
theorem test_sbc_overflow : see axpc (code [0xE9, 0xB0] (withAP 0x50 0x01)) = some (0xA0, 0xE0, 2) := by decide
theorem test_sbc_bcd_borrows :
    see axpc (code [0xE9, 0x01] fun s => nmosBcd (withAP 0x00 0x09 s)) = some (0x99, 0xA8, 2) := by
  decide
theorem test_adc_bcd_invalid_digits :
    see axpc (code [0x69, 0x46] fun s => nmosBcd (withAP 0x58 0x09 s)) = some (0x05, 0xE9, 2) := by
  decide
theorem test_and : see axpc (code [0x29, 0x0F] (withAP 0xF0 0x00)) = some (0x00, 0x22, 2) := by decide
theorem test_ora : see axpc (code [0x09, 0x80] (withAP 0x01 0x00)) = some (0x81, 0xA0, 2) := by decide
theorem test_eor : see axpc (code [0x49, 0xFF] (withAP 0xFF 0x00)) = some (0x00, 0x22, 2) := by decide
theorem test_bit_zero_of_and :
    see axpc (code [0x24, 0x10] fun s => poke [(0x10, 0xC0)] (withAP 0x01 0 s)) = some (0x01, 0xE2, 3) := by
  decide
theorem test_bit_overflow_of_bit_6 :
    see axpc (code [0x24, 0x10] fun s => poke [(0x10, 0x41)] (withAP 0x41 0 s)) = some (0x41, 0x60, 3) := by
  decide
theorem test_cmp_less : see axpc (code [0xC9, 0x20] (withAP 0x10 0x00)) = some (0x10, 0xA0, 2) := by decide
theorem test_cmp_equal : see axpc (code [0xC9, 0x10] (withAP 0x10 0x00)) = some (0x10, 0x23, 2) := by decide
theorem test_cpx_equal :
    see (fun t => (t.x, t.p.toByte, cyc t))
        (code [0xE0, 0x05] fun s => { s with x := 5 })
      = some (0x05, 0x23, 2) := by
  decide
theorem test_cpy_unsigned :
    see (fun t => (t.y, t.p.toByte, cyc t))
        (code [0xC0, 0x00] fun s => { s with y := 0xFF })
      = some (0xFF, 0xA1, 2) := by
  decide

/-! ### 95_test_vectors.md 2.3 -/

theorem test_asl_acc : see axpc (code [0x0A] (withAP 0x81 0x00)) = some (0x02, 0x21, 2) := by decide
theorem test_lsr_acc : see axpc (code [0x4A] (withAP 0x01 0x00)) = some (0x00, 0x23, 2) := by decide
theorem test_rol_acc : see axpc (code [0x2A] (withAP 0x80 0x00)) = some (0x00, 0x23, 2) := by decide
theorem test_ror_acc : see axpc (code [0x6A] (withAP 0x01 0x01)) = some (0x80, 0xA1, 2) := by decide
theorem test_rol_abx_writes_twice :
    see (fun t => (t.p.toByte, t.history.reverse))
        (code [0x3E, 0xF0, 0x12] fun s => poke [(0x1310, 0x40)] { withP 1 s with x := 0x20 })
      = some (0xA0, [.read 0xC000 0x3E, .read 0xC001 0xF0, .read 0xC002 0x12, .read 0x1210 0, .read 0x1310 0x40,
          .write 0x1310 0x40 0xC003, .write 0x1310 0x81 0xC003]) := by
  decide
theorem test_inc_writes_twice :
    see (fun t => (t.p.toByte, t.history.reverse))
        (code [0xE6, 0x10] fun s => poke [(0x10, 0xFF)] s)
      = some (0x22, [.read 0xC000 0xE6, .read 0xC001 0x10, .read 0x10 0xFF, .write 0x10 0xFF 0xC002,
          .write 0x10 0 0xC002]) := by
  decide
theorem test_dec :
    see (fun t => (ramRead t 0x10, t.p.toByte, cyc t))
        (code [0xC6, 0x10] fun s => poke [(0x10, 0x01)] s)
      = some (0x00, 0x22, 5) := by
  decide
theorem test_inx_wraps :
    see (fun t => (t.x, t.p.toByte, cyc t)) (code [0xE8] fun s => { s with x := 0xFF }) = some (0x00, 0x22, 2) := by
  decide
theorem test_iny_negative :
    see (fun t => (t.y, t.p.toByte, cyc t)) (code [0xC8] fun s => { s with y := 0x7F }) = some (0x80, 0xA0, 2) := by
  decide
theorem test_dex_to_zero :
    see (fun t => (t.x, t.p.toByte, cyc t)) (code [0xCA] fun s => { s with x := 1 }) = some (0x00, 0x22, 2) := by
  decide
theorem test_dey_wraps : see (fun t => (t.y, t.p.toByte, cyc t)) (code [0x88] id) = some (0xFF, 0xA0, 2) := by decide

/-! ### 95_test_vectors.md 2.4; the other branches from 44_control_flow.md R261 to R267 -/

theorem test_beq_not_taken : see (fun t => (t.pc, cyc t)) (code [0xF0, 0x02] id) = some (0xC002, 2) := by decide
theorem test_beq_wraps_past_the_top :
    see (fun t => (t.pc, cyc t)) (poke [(1, 0x35), (0xFFFD, 0xF0), (0xFFFE, 0x05)] { withP 2 base with pc := 0xFFFD })
      = some (0x0004, 4) := by
  decide
theorem test_bne_backward : see (fun t => (t.pc, cyc t)) (code [0xD0, 0x80] id) = some (0xBF82, 4) := by decide
theorem test_bpl_taken : see (fun t => (t.pc, cyc t)) (code [0x10, 0x02] id) = some (0xC004, 3) := by decide
theorem test_bmi_taken : see (fun t => (t.pc, cyc t)) (code [0x30, 0x02] (withP 0x80)) = some (0xC004, 3) := by decide
theorem test_bvc_not_taken :
    see (fun t => (t.pc, cyc t)) (code [0x50, 0x02] (withP 0x40)) = some (0xC002, 2) := by
  decide
theorem test_bvs_taken : see (fun t => (t.pc, cyc t)) (code [0x70, 0x02] (withP 0x40)) = some (0xC004, 3) := by decide
theorem test_bcc_not_taken :
    see (fun t => (t.pc, cyc t)) (code [0x90, 0x02] (withP 1)) = some (0xC002, 2) := by
  decide
theorem test_bcs_taken : see (fun t => (t.pc, cyc t)) (code [0xB0, 0x02] (withP 1)) = some (0xC004, 3) := by decide
theorem test_jmp_abs : see (fun t => (t.pc, cyc t)) (code [0x4C, 0x00, 0xC1] id) = some (0xC100, 3) := by decide
theorem test_jmp_ind_wraps_in_page :
    see (fun t => (t.pc, cyc t))
        (code [0x6C, 0xFF, 0x02] (poke [(0x02FF, 0x34), (0x0200, 0x12), (0x0300, 0x56)]))
      = some (0x1234, 5) := by
  decide
theorem test_jsr :
    see (fun t => (t.pc, t.sp, ramRead t 0x01FF, ramRead t 0x01FE, cyc t))
        (code [0x20, 0x00, 0xC1] id)
      = some (0xC100, 0xFD, 0xC0, 0x02, 6) := by
  decide
theorem test_rts :
    see (fun t => (t.pc, t.sp, cyc t))
        (code [0x60] fun s => poke [(0x01FE, 0x02), (0x01FF, 0xC0)] { s with sp := 0xFD })
      = some (0xC003, 0xFF, 6) := by
  decide
theorem test_brk_vector :
    see (fun t => (t.pc, t.sp, t.p.i, cyc t))
        (code [0x00, 0x00] fun s => { s with kernalRom := [(0x1FFE, 0x48), (0x1FFF, 0xFF)] })
      = some (0xFF48, 0xFC, true, 7) := by
  decide
theorem test_brk_frame :
    see (fun t => (ramRead t 0x01FF, ramRead t 0x01FE, ramRead t 0x01FD))
        (code [0x00, 0x00] id)
      = some (0xC0, 0x02, 0x30) := by
  decide
theorem test_rti :
    see (fun t => (t.pc, t.sp, t.p.toByte, cyc t))
        (code [0x40] fun s => poke [(0x01FD, 0x21), (0x01FE, 0x02), (0x01FF, 0xC0)] { s with sp := 0xFC })
      = some (0xC002, 0xFF, 0x21, 6) := by
  decide
/-- 44_control_flow.md R271: T5 pushes over the operand's own high byte at 0x0140, and T6 fetches the byte pushed. -/
theorem test_jsr_overwrites_its_operand :
    see (fun t => (t.pc, t.sp)) (poke [(0x013E, 0x20), (0x013F, 0x34), (0x0140, 0x12)]
        { base with pc := 0x013E, sp := 0x41 })
      = some (0x4034, 0x3F) := by
  decide

/-! ### 95_test_vectors.md 2.5; the other flag instructions from 45_stack_flags_nop.md R294 to R298 -/

theorem test_pha_wraps :
    see (fun t => (ramRead t 0x0100, t.sp, cyc t))
        (code [0x48] fun s => { s with a := 0x77, sp := 0x00 })
      = some (0x77, 0xFF, 3) := by
  decide
theorem test_php_sets_bits_4_and_5 :
    see (fun t => (ramRead t 0x01FF, t.sp, cyc t)) (code [0x08] (withP 0x21)) = some (0x31, 0xFE, 3) := by
  decide
theorem test_pla_wraps :
    see (fun t => (t.a, t.p.toByte, t.sp, cyc t))
        (code [0x68] (poke [(0x0100, 0x00)]))
      = some (0x00, 0x22, 0x00, 4) := by
  decide
theorem test_plp_drops_bit_4 :
    see (fun t => (t.p.toByte, t.sp, cyc t))
        (code [0x28] fun s => poke [(0x01FF, 0xFF)] { s with sp := 0xFE })
      = some (0xEF, 0xFF, 4) := by
  decide
theorem test_clc :
    see (fun t => (t.p.toByte, t.pc, cyc t)) (code [0x18] (withP 0xCF)) = some (0xEE, 0xC001, 2) := by
  decide
theorem test_sec :
    see (fun t => (t.p.toByte, t.pc, cyc t)) (code [0x38] (withP 0x00)) = some (0x21, 0xC001, 2) := by
  decide
theorem test_cli :
    see (fun t => (t.p.toByte, t.pc, cyc t)) (code [0x58] (withP 0xCF)) = some (0xEB, 0xC001, 2) := by
  decide
theorem test_sei :
    see (fun t => (t.p.toByte, t.pc, cyc t)) (code [0x78] (withP 0x00)) = some (0x24, 0xC001, 2) := by
  decide
theorem test_cld :
    see (fun t => (t.p.toByte, t.pc, cyc t)) (code [0xD8] (withP 0xCF)) = some (0xE7, 0xC001, 2) := by
  decide
theorem test_sed :
    see (fun t => (t.p.toByte, t.pc, cyc t)) (code [0xF8] (withP 0x00)) = some (0x28, 0xC001, 2) := by
  decide
theorem test_clv :
    see (fun t => (t.p.toByte, t.pc, cyc t)) (code [0xB8] (withP 0xCF)) = some (0xAF, 0xC001, 2) := by
  decide
theorem test_nop :
    see (fun t => (t.p.toByte, t.pc, cyc t)) (code [0xEA] (withP 0xCF)) = some (0xEF, 0xC001, 2) := by
  decide

/-! ### 95_test_vectors.md 2.6 -/

theorem test_slo :
    see (fun t => (ramRead t 0x10, axpc t))
        (code [0x07, 0x10] fun s => policy .implement (poke [(0x10, 0x80)] (withAP 0x01 0x00 s)))
      = some (0x00, 0x01, 0x21, 5) := by
  decide
theorem test_rla :
    see (fun t => (ramRead t 0x10, axpc t))
        (code [0x27, 0x10] fun s => policy .implement (poke [(0x10, 0x40)] (withAP 0xFF 0x01 s)))
      = some (0x81, 0x81, 0xA0, 5) := by
  decide
theorem test_sre :
    see (fun t => (ramRead t 0x10, axpc t))
        (code [0x47, 0x10] fun s => policy .implement (poke [(0x10, 0x03)] (withAP 0x01 0x00 s)))
      = some (0x01, 0x00, 0x23, 5) := by
  decide
theorem test_rra :
    see (fun t => (ramRead t 0x10, axpc t))
        (code [0x67, 0x10] fun s => policy .implement (poke [(0x10, 0x02)] (withAP 0x10 0x00 s)))
      = some (0x01, 0x11, 0x20, 5) := by
  decide
theorem test_dcp :
    see (fun t => (ramRead t 0x10, axpc t))
        (code [0xC7, 0x10] fun s => policy .implement (poke [(0x10, 0x06)] (withAP 0x05 0x00 s)))
      = some (0x05, 0x05, 0x23, 5) := by
  decide
theorem test_isc :
    see (fun t => (ramRead t 0x10, axpc t))
        (code [0xE7, 0x10] fun s => policy .implement (poke [(0x10, 0x0F)] (withAP 0x10 0x01 s)))
      = some (0x10, 0x00, 0x23, 5) := by
  decide
theorem test_sax_sets_no_flag :
    see (fun t => (ramRead t 0x10, axpc t))
        (code [0x87, 0x10] fun s => policy .implement { withAP 0xF0 0xCF s with x := 0x3C })
      = some (0x30, 0xF0, 0xEF, 3) := by
  decide
theorem test_lax :
    see (fun t => (t.x, axpc t))
        (code [0xA7, 0x10] fun s => policy .implement (poke [(0x10, 0x80)] (withAP 0x00 0x00 s)))
      = some (0x80, 0x80, 0xA0, 3) := by
  decide
theorem test_dcp_izy :
    see (fun t => (ramRead t 0x20, axpc t))
        (code [0xD3, 0x10] fun s => policy .implement (poke [(0x10, 0x20), (0x20, 0x06)] (withAP 5 0 s)))
      = some (0x05, 0x05, 0x23, 8) := by
  decide
theorem test_slo_as_nop :
    see (fun t => (ramRead t 0x10, t.pc, axpc t))
        (code [0x07, 0x10] fun s => policy .nopWithCycles (poke [(0x10, 0x80)] (withAP 1 0xCF s)))
      = some (0x80, 0xC002, 0x01, 0xEF, 5) := by
  decide
theorem test_lax_as_nop_has_no_cross :
    see (fun t => (t.pc, cyc t))
        (code [0xBF, 0xFF, 0x02] fun s => policy .nopWithCycles { s with y := 1 })
      = some (0xC003, 4) := by
  decide
theorem test_slo_as_error :
    see (fun t => (t.halt, t.pc, t.history))
        (code [0x07, 0x10] id)
      = some (.unimplementedOpcode 0xC000 0x07, 0xC000, [.read 0xC000 0x07]) := by
  decide
theorem test_illegal_halts :
    see (fun t => (t.halt, t.pc, t.history))
        (code [0x02] (policy .implement))
      = some (.fatalHalt 0xC000 0x02, 0xC000, [.read 0xC000 0x02]) := by
  decide

/-! ### 95_test_vectors.md 2.7 -/

/-- A read's value, where it has one. -/
def readAt (a : Word) (s : State) : Option Byte :=
  match busValue s a with
  | .next v => some v
  | .fault _ | .refused _ => none

def basic94 (s : State) : State := { s with basicRom := some [(0, 0x94)] }

theorem test_read_basic_rom : readAt 0xA000 (basic94 (poke [(0xA000, 0x5A)] base)) = some 0x94 := by decide
theorem test_read_ram_below_basic :
    readAt 0xA000 (basic94 (poke [(0xA000, 0x5A), (1, 0x36)] base)) = some 0x5A := by decide
theorem test_write_to_rom_is_discarded :
    ((busWrite 0xE000 0x11 base).ram, readAt 0xE000 (busWrite 1 0x35 (busWrite 0xE000 0x11 base))) = ([], some 0) := by
  decide
theorem test_read_ram_below_io :
    (readAt 0xD000 (poke [(1, 0x33), (0xD000, 0x77)] base), readAt 0xD000 (poke [(1, 0x30), (0xD000, 0x77)] base))
      = (some 0x77, some 0x77) := by
  decide
theorem test_vic_gap_and_mirror :
    (targetOf base 0xD02E, targetOf base 0xD02F, targetOf base 0xD040) = (.vic 0x2E, .vicGap, .vic 0x00) := by decide
theorem test_char_shadow_write_is_discarded :
    (targetOf base 0xD800, (busWrite 0xD800 1 base).ram) = (.charShadow, []) := by decide
theorem test_cia_mirror : (targetOf base 0xDC10, targetOf base 0xDD02) = (.cia .cia1 0, .cia .cia2 2) := by decide
theorem test_read_direction_register :
    readAt 0xDD02 { base with cia2 := { base.cia2 with ddra := 0x38 } } = some 0x38 := by decide
theorem test_absent_basic_rom_is_refused :
    busValue { base with basicRom := none } 0xA000 = .refused .basicRomAbsent := rfl
theorem test_reset_reads_the_rom_image :
    hostReset
        { poke [(1, 0x30), (0xFFFC, 0x12)] base with sp := 0, pc := 0, halt := .fatalHalt 1 2, irqPending := true }
      = { poke [(1, 0x30), (0xFFFC, 0x12)] base with
          sp := 0xFF, pc := 0xC000, halt := .none, irqPending := false, p := { base.p with i := true } } := by
  decide

/-- The reset state is power-on with every draw 0 and then `reset()`. -/
theorem test_reset_state_is_a_draw :
    hostReset (powerOn State.reset.params [(0x1FFD, 0xC0)] (some [])
      { a := 0, x := 0, y := 0, n := false, v := false, d := false, z := false, c := false, ram := [] })
      = State.reset := by
  decide

/-! ### 95_test_vectors.md 2.8 -/

def pendingIrq (s : State) : State := { s with irqPending := true }

/-- The boundary of the first vector: the vector 0xC100 is in RAM, HIRAM is clear. -/
def irqState : State :=
  pendingIrq { poke [(1, 0x35), (0xFFFE, 0x00), (0xFFFF, 0xC1)] (withP 0x80 base) with pc := 0xC00F }

theorem test_irq_entry_trace :
    see (fun t => (t.pc, t.sp, t.p.i, t.irqPending, t.history.reverse)) irqState
      = some (0xC100, 0xFC, true, false,
          [.read 0xC00F 0, .read 0xC00F 0, .write 0x01FF 0xC0 0xC00F, .write 0x01FE 0x0F 0xC00F,
           .write 0x01FD 0xA0 0xC00F, .read 0xFFFE 0, .read 0xFFFF 0xC1]) := by
  decide
theorem test_irq_waits_for_i :
    see (fun t => (t.pc, t.irqPending)) (code [0xEA] fun s => pendingIrq (withP 4 s)) = some (0xC001, true) := by
  decide
theorem test_pause_before_irq :
    stepCall { pendingIrq base with pausePending := true }
      = .next (.paused, { pendingIrq base with pausePending := true }) := rfl
theorem test_pause_in_mid_instruction :
    (match busCycle (code [0xEA] id) with
      | .next t => see (fun u => (u.pc, u.phase, cyc u)) { t with pausePending := true }
      | .fault _ | .refused _ => none)
      = some (0xC001, .fetchOpcode, 2) := by
  decide

/-! ### The serial vector, 95_test_vectors.md 3 -/

/-- `STA $DD00` of each value in turn, on a machine whose port A drives bits 3, 4 and 5. -/
def portWrites (values : List Byte) (s : State) : State := values.foldl (fun s v => ciaWrite .cia2 0 v s) s

def line0 : State := ciaWrite .cia2 2 0x38 State.reset
def line1 : State := portWrites [0x18] line0
def line17 : State :=
  portWrites [0x38, 0x28, 0x38, 0x28, 0x38, 0x28, 0x18, 0x08, 0x38, 0x28, 0x18, 0x08, 0x38, 0x28, 0x38, 0x28] line1
def line33 : State :=
  portWrites [0x38, 0x28, 0x38, 0x28, 0x38, 0x28, 0x38, 0x28, 0x18, 0x08, 0x18, 0x08, 0x18, 0x08, 0x18, 0x08] line17
def line35 : State := portWrites [0x10, 0x00] line33
def line51 : State :=
  portWrites [0x30, 0x20, 0x30, 0x20, 0x10, 0x00, 0x30, 0x20, 0x30, 0x20, 0x10, 0x00, 0x30, 0x20, 0x30, 0x20] line35
def line67 : State :=
  portWrites [0x18, 0x08, 0x18, 0x08, 0x18, 0x08, 0x18, 0x08, 0x18, 0x08, 0x18, 0x08, 0x38, 0x28, 0x38, 0x28] line51

theorem test_serial_lines :
    (line0.outA2 = 0x00 ∧ line0.serial = State.reset.serial)
      ∧ (line1.outA2 = 0x18 ∧ ackBit line1 = false
        ∧ line1.serial = { State.reset.serial with sstate := .waitCommand, ack := true })
      ∧ line17.serial = { State.reset.serial with sstate := .waitSecondaryAddress, primary := 0x08 }
      ∧ line33.serial = { State.reset.serial with sstate := .eoi, primary := 0x08, secondary := 0xF0 }
      ∧ line35.serial = { line33.serial with sstate := .listen }
      ∧ line51.serial = { line35.serial with queue := [0x24] }
      ∧ line67.outA2 = 0x28 ∧ ackBit line67 = true
      ∧ line67.serial = { line33.serial with sstate := .idle, events := [.openFile 0x08 0xF0 [0x24]] } := by
  decide +kernel

/-- CLK low and released for each bit of a byte, with ATN as given: the notifications of 95_test_vectors.md 3. -/
def pulses (byte : Byte) (atn : Bool) : List Notification :=
  (List.range 8).flatMap fun k =>
    let out : Byte := (if atn then 0x08 else 0) ||| (if byte.getLsbD k then 0 else 0x20)
    [(0x10, out ||| 0x10), (0x10, out)]

def waiting : SerialBus := { State.reset.serial with sstate := .waitCommand, ack := true }

theorem test_commands_dropped_and_talk :
    (waiting.notifyAll (pulses 0x3F true), waiting.notifyAll (pulses 0x60 true)) = (waiting, waiting)
      ∧ waiting.notifyAll (pulses 0x48 true ++ pulses 0x28 true)
        = { waiting with sstate := .talk, primary := 0x08, ack := false }
      ∧ ({ waiting with sstate := .listen, queue := [1] } : SerialBus).notifyAll (pulses 0x5F true)
        = { waiting with sstate := .listen, queue := [1] } := by
  decide +kernel

/-! ### The debug surface, 60_exceptions.md R385 and 30_encoding.md R117, R119 -/

theorem test_disassemble_indexed :
    disassemble (code [0x9D, 0xFF, 0x02] id) 0xC000
      = ['S', 'T', 'A', ' ', '$', '0', '2', 'F', 'F', ',', 'X'] := by
  decide
theorem test_disassemble_branch_target :
    disassemble (code [0xD0, 0xF8] id) 0xC000 = ['B', 'N', 'E', ' ', '$', 'B', 'F', 'F', 'A'] := by decide
theorem test_run_stops_at_breakpoint :
    (match runUntil [0xC002] 10 (code [0xA9, 0x80, 0xEA] id) with
      | .next r => some (r.1, r.2.a, cyc r.2)
      | .fault _ | .refused _ => none)
      = some (.breakpoint, 0x80, 2) := by
  decide


/-! ## A witness for the hypotheses of each obligation that has some

Each theorem gives concrete states and operands that meet all of an obligation's hypotheses together, clause by clause,
with values at the ends of their ranges where a clause has a range. -/

def isNext {α : Type} (r : Result α) : Bool :=
  match r with
  | .next _ => true
  | .fault _ | .refused _ => false

/-- The state in an answer. -/
def after (r : Result State) : State :=
  match r with
  | .next t => t
  | .fault _ | .refused _ => base

/-- In progress: `LDA $1234` after its opcode fetch. -/
def inFlight : State := after (busCycle (code [0xAD, 0x34, 0x12] id))

def halted : State := { base with halt := .fatalHalt 0xC000 0x02 }

def paused : State := { base with pausePending := true }

/-- The next thing at this boundary is an opcode fetch. -/
def Fetches (s : State) : Prop :=
  s.halt = .none ∧ s.phase = .fetchOpcode ∧ s.pausePending = false ∧ (s.irqPending && !s.p.i) = false

theorem witness_DecodeOfEncodeIsTheInstruction :
    WellFormed (.sta (.izy 0xFF)) ∧ WellFormed (.jmp (.ind 0xFFFF)) ∧ WellFormed (.illegal 0xFC) ∧ WellFormed .nop := by
  decide

theorem witness_EncodeOfDecodeIsTheBytes :
    decode [0xAD, 0x34, 0x12, 0xEA] = .ok (.lda (.abs 0x1234), [0xEA]) ∧ decode [0xFC] = .ok (.illegal 0xFC, []) :=
  ⟨rfl, rfl⟩

theorem witness_StepRunsTheDecodedInstruction :
    let s := code [0xAD, 0x34, 0x12] id
    Fetches s ∧ decode [0xAD, 0x34, 0x12] = .ok (.lda (.abs 0x1234), [])
      ∧ (memoryByte s s.pc = some 0xAD ∧ memoryByte s (s.pc + 1) = some 0x34 ∧ memoryByte s (s.pc + 2) = some 0x12)
      ∧ fetchInstr s = .next (.lda (.abs 0x1234)) :=
  ⟨⟨rfl, rfl, rfl, rfl⟩, rfl, by decide, rfl⟩

theorem witness_StepIsTheBusCyclesOfOneInstruction :
    phaseSound base = true ∧ inFlight.phase ≠ .fetchOpcode ∧ phaseSound inFlight = true := by decide

theorem witness_EachCallIsOneBusCycle :
    halted.halt ≠ .none ∧ (paused.halt = .none ∧ paused.phase = .fetchOpcode ∧ paused.pausePending = true)
      ∧ (inFlight.phase ≠ .fetchOpcode ∧ isNext (stepCall inFlight) = true)
      ∧ (base.pausePending = false ∧ isNext (stepCall base) = true) := by decide

theorem witness_FetchChecksPauseThenInterruptThenOpcode :
    halted.halt ≠ .none ∧ (paused.halt = .none ∧ paused.phase = .fetchOpcode ∧ paused.pausePending = true)
      ∧ (irqState.halt = .none ∧ irqState.phase = .fetchOpcode ∧ irqState.pausePending = false
        ∧ irqState.irqPending = true ∧ irqState.p.i = false)
      ∧ (Fetches base ∧ busValue base base.pc = .next 0x00 ∧ fetchHalt base 0x00 = .none)
      ∧ (inFlight.halt = .none
        ∧ inFlight.phase = .runMicroSteps { opc := 0xAD, seq := .read .abs, t := 2, latches := {} }) :=
  ⟨by decide, by decide, by decide, ⟨⟨rfl, rfl, rfl, rfl⟩, rfl, rfl⟩, rfl, rfl⟩

theorem witness_HaltIsSetOnlyByAFetch :
    (isNext (busCycle (code [0x02] id)) = true ∧ (after (busCycle (code [0x02] id))).halt ≠ (code [0x02] id).halt)
      ∧ halted.halt ≠ .none := by decide

theorem witness_InterruptLatchIsClearedOnlyByTakingIt :
    irqState.irqPending = true ∧ isNext (busCycle irqState) = true ∧ (after (busCycle irqState)).irqPending = false
      ∧ isNext (busCycle (pendingIrq inFlight)) = true := by decide

/-- No ROM image has been loaded into this state and `reset()` has not been called. -/
def bare : State := { base with romsOpen := true, kernalRom := [], basicRom := none }

def loadKernal (v : Byte) : Happening := .host (.loadRoms [(0x1FFD, v)] none)

/-- What follows a load or a reset: another load, and a bus cycle. -/
def later : List Happening := [loadKernal 0xC1, .cycle]

theorem witness_RomsParametersAndHostLatchesAreKept :
    let s : State := { code [0x8D, 0x00, 0xD0] id with redrawNeeded := true }
    (isNext (busCycle s) = true ∧ isNext (step s) = true ∧ s.redrawNeeded = true)
      ∧ (runHappenings [loadKernal 0xC0] bare = .next (hostAct (.loadRoms [(0x1FFD, 0xC0)] none) bare)
        ∧ isNext (runHappenings later (hostAct (.loadRoms [(0x1FFD, 0xC0)] none) bare)) = true)
      ∧ (runHappenings [.host .reset] bare = .next (hostReset bare)
        ∧ isNext (runHappenings later (hostReset bare)) = true) :=
  ⟨by decide, ⟨rfl, by decide⟩, rfl, by decide⟩

/-- R402: a load acts once, and not after a reset. -/
theorem test_roms_are_loaded_once :
    (after (runHappenings [loadKernal 0xC0, loadKernal 0xC1] bare)).kernalRom = [(0x1FFD, 0xC0)]
      ∧ (after (runHappenings [.host .reset, loadKernal 0xC1] bare)).kernalRom = [] := by
  decide

theorem inv_base : Inv base := ⟨by decide, by decide, by decide⟩

theorem inv_inFlight : Inv inFlight := ⟨by decide, by decide, by decide⟩

theorem witness_InvariantIsKeptByEveryHappening :
    let es : List Happening :=
      [.host (.loadRoms [(0x1FFF, 0x01)] (some [(0x0000, 0x94), (0x1FFF, 0xFF)])), .cycle, .host .reset]
    Inv bare
      ∧ (∀ kernal basic, Happening.host (.loadRoms kernal basic) ∈ es →
        kernal.wf romUnlisted 8192 = true ∧ ∀ rom, basic = some rom → rom.wf romUnlisted 8192 = true)
      ∧ isNext (runHappenings es bare) = true ∧ (Inv base ∧ isNext (step base) = true) := by
  refine ⟨⟨by decide, by decide, by decide⟩, fun kernal basic h => ?_, by decide, inv_base, by decide⟩
  simp only [List.mem_cons, Happening.host.injEq, HostAction.loadRoms.injEq, List.not_mem_nil, or_false, reduceCtorEq,
    or_self] at h
  obtain ⟨rfl, rfl⟩ := h
  exact ⟨by decide, fun rom hr => by cases hr; decide⟩

/-- The BASIC image is absent and the core is about to fetch from its range. -/
def noBasic : State := { base with basicRom := none, pc := 0xA000 }

theorem witness_NoFaultAndOnlyAnAbsentBasicImageRefuses :
    (Inv inFlight ∧ inFlight.basicRom.isSome = true)
      ∧ (Inv noBasic ∧ busCycle noBasic = .refused .basicRomAbsent ∧ step noBasic = .refused .basicRomAbsent) :=
  ⟨⟨inv_inFlight, by decide⟩, ⟨by decide, by decide, by decide⟩, rfl, rfl⟩

theorem witness_StepEndsAtABoundary :
    phaseSound inFlight = true ∧ isNext (step inFlight) = true ∧ phaseSound irqState = true
      ∧ isNext (step irqState) = true := by decide

theorem witness_ReadAfterWriteReturnsTheByte :
    let s := poke [(1, 0x36)] base
    let others : List (Word × Byte) := [(0xA001, 0x55), (0x0001, 0x37), (0xBFFE, 0x66), (0x0001, 0x35)]
    (targetOf s 0xA000 = .ram ∧ (∀ w ∈ others, w.1 ≠ 0xA000)
        ∧ targetOf (others.foldl (fun s w => busWrite w.1 w.2 s) (busWrite 0xA000 0x5A s)) 0xA000 = .ram)
      ∧ (targetOf s 0xBFFF = .ram ∧ (∀ w ∈ others, w.1 ≠ 0xBFFF)
        ∧ targetOf (others.foldl (fun s w => busWrite w.1 w.2 s) (busWrite 0xBFFF 0x5A s)) 0xBFFF = .ram) :=
  ⟨⟨by decide, by simp, by decide⟩, by decide, by simp, by decide⟩

theorem witness_BankSwitchRevealsRomOrTheOldRam :
    (basic94 base).basicRom = some [(0, 0x94)]
      ∧ (0xA000 ≤ (0xA000 : Word).toNat ∧ (0xA000 : Word).toNat ≤ 0xBFFF)
      ∧ (0xA000 ≤ (0xBFFF : Word).toNat ∧ (0xBFFF : Word).toNat ≤ 0xBFFF)
      ∧ 0xE000 ≤ (0xE000 : Word).toNat ∧ 0xE000 ≤ (0xFFFF : Word).toNat := by decide

theorem witness_ZeroPageAndStackAreAlwaysRam :
    (0x0000 : Word).toNat < 0x0200 ∧ (0x01FF : Word).toNat < 0x0200 := by decide

/-- Every operand form of an instruction, at an operand whose index crosses a page, meets the readability hypotheses,
and the instruction completes there. -/
def completesIn (s : State) (k : Mnem) : Bool :=
  k.opcodes.all fun row =>
    let m := operandOf row.1 0xFF 0x02
    (assemble k row.1 row.2 0xFF 0x02).mode == row.1 && operandReadable m s && storeReadable m s && readable s (s.pc + 1)
      && isNext (exec (assemble k row.1 row.2 0xFF 0x02) s)

def crossing : State := { withP 0 base with a := 0x99, x := 1, y := 1 }

theorem witness_LoadsPutTheOperandInTheRegister : [Mnem.lda, .ldx, .ldy].all (completesIn crossing) = true := by decide

theorem witness_StoresWriteTheRegister : [Mnem.sta, .stx, .sty].all (completesIn crossing) = true := by decide

theorem witness_TransfersCopyARegister :
    [Mnem.tax, .tay, .txa, .tya, .tsx, .txs].all (completesIn crossing) = true := by decide

theorem witness_AdcAndSbcInBinary :
    let inDecimal := withP 0x08 crossing
    let nmos := nmosBcd crossing
    (inDecimal.params.decimalMode = .binary ∧ [Mnem.adc, .sbc].all (completesIn inDecimal) = true)
      ∧ nmos.p.d = false ∧ [Mnem.adc, .sbc].all (completesIn nmos) = true := by decide

theorem witness_DecimalAdcAndSbcFollowTheNmosAlgorithm :
    let s := nmosBcd (withP 0x08 crossing)
    s.params.decimalMode = .nmosBcd ∧ s.p.d = true ∧ [Mnem.adc, .sbc].all (completesIn s) = true := by decide

theorem witness_DecimalArithmeticIsRightOnDecimalDigits :
    isBcd 0x99 ∧ isBcd 0x00 ∧ (Flags.fromStack 0x08).d = true :=
  ⟨⟨by decide, by decide⟩, ⟨by decide, by decide⟩, by decide⟩

theorem witness_LogicActsOnTheAccumulator : [Mnem.and, .ora, .eor, .bit].all (completesIn crossing) = true := by decide

theorem witness_ComparesSetOnlyCarryZeroAndNegative :
    [Mnem.cmp, .cpx, .cpy].all (completesIn crossing) = true := by decide

theorem witness_MemoryShiftsWriteBackTheShiftedByte :
    [Mnem.asl, .lsr, .rol, .ror].all (completesIn crossing) = true := by decide

theorem witness_IncrementsAndDecrementsWrapAndKeepCarry :
    [Mnem.inc, .dec, .inx, .iny, .dex, .dey].all (completesIn crossing) = true := by decide

/-- All flags clear, and all set: each branch's condition holds in one of the two and fails in the other. -/
theorem witness_BranchesTestTheirFlag :
    let clear := withP 0 base
    let set := withP 0xCF base
    (clear.p.n = false ∧ clear.p.v = false ∧ clear.p.c = false ∧ clear.p.z = false)
      ∧ (set.p.n = true ∧ set.p.v = true ∧ set.p.c = true ∧ set.p.z = true)
      ∧ (hi (branchTarget 0xC002 0x7F) = hi 0xC002 ∧ readable base 0xC002 = true)
      ∧ (hi (branchTarget 0xC002 0x80) ≠ hi 0xC002 ∧ readable base (word 0xC0 0x82) = true) := by decide

theorem witness_JmpGoesToItsTarget :
    (0x0200 : Word).toNat = (0x02FF : Word).toNat / 256 * 256 + ((0x02FF : Word).toNat + 1) % 256
      ∧ (0xFF00 : Word).toNat = (0xFFFF : Word).toNat / 256 * 256 + ((0xFFFF : Word).toNat + 1) % 256
      ∧ readable base 0x02FF = true ∧ readable base 0x0200 = true ∧ readable base 0xFFFF = true
      ∧ readable base 0xFF00 = true := by decide

/-- 95_test_vectors.md 2.4, RTS. -/
def rtsState : State := poke [(0x01FE, 0x02), (0x01FF, 0xC0)] { base with sp := 0xFD }

theorem witness_RtsReturnsAfterThePulledAddress :
    readable rtsState (rtsState.pc + 1) = true ∧ readable rtsState (word 0xC0 0x02) = true
      ∧ isNext (exec .rts rtsState) = true := by decide

def afterJsr : State := after (exec (.jsr 0xC100) base)

theorem witness_RtsReturnsToTheJsr :
    exec (.jsr 0xC100) base = .next afterJsr ∧ readable afterJsr (afterJsr.pc + 1) = true
      ∧ readable afterJsr (base.pc + 2) = true :=
  ⟨rfl, by decide, by decide⟩

theorem witness_InterruptEntryPushesPcAndStatus :
    irqState.halt = .none ∧ irqState.phase = .fetchOpcode ∧ irqState.pausePending = false ∧ irqState.irqPending = true
      ∧ irqState.p.i = false ∧ readable irqState irqState.pc = true := by decide

theorem witness_RtiPullsStatusAndPc : readable base (base.pc + 1) = true ∧ isNext (exec .rti base) = true := by decide

def afterIrq : State := after (takeIrq irqState)

def afterBrk : State := after (exec (.brk 0x55) base)

theorem witness_RtiUndoesAnInterrupt :
    (takeIrq irqState = .next afterIrq ∧ readable (pendingIrq afterIrq) (afterIrq.pc + 1) = true
        ∧ (pendingIrq afterIrq).irqPending = true ∧ irqState.p.i = false ∧ afterIrq.pausePending = false
        ∧ afterIrq.halt = .none)
      ∧ exec (.brk 0x55) base = .next afterBrk ∧ readable afterBrk (afterBrk.pc + 1) = true :=
  ⟨⟨rfl, by decide, by decide, by decide, by decide, by decide⟩, rfl, by decide⟩

theorem witness_PushesAndPullsUseTheStackPage :
    [Mnem.pha, .php, .pla, .plp].all (completesIn crossing) = true := by decide

theorem witness_FlagInstructionsWriteOneFlag :
    [Mnem.clc, .sec, .cli, .sei, .cld, .sed, .clv, .nop].all (completesIn crossing) = true := by decide

theorem witness_UnofficialInstructionsCombineTwoOperations :
    let s := policy .implement crossing
    s.params.unofficialPolicy = .implement
      ∧ [Mnem.slo, .rla, .sre, .rra, .sax, .lax, .dcp, .isc].all (completesIn s) = true := by decide

theorem witness_NopWithCyclesOnlyFetchesAndIdles :
    let s := policy .nopWithCycles crossing
    s.params.unofficialPolicy = .nopWithCycles
      ∧ [Mnem.slo, .rla, .sre, .rra, .sax, .lax, .dcp, .isc].all (completesIn s) = true := by decide

theorem witness_ErrorPolicyHaltsAtTheUnofficialOpcode :
    let s := code [0x07, 0x10] id
    s.params.unofficialPolicy = .error ∧ Fetches s ∧ busValue s s.pc = .next 0x07
      ∧ [Mnem.slo, .rla, .sre, .rra, .sax, .lax, .dcp, .isc].all (completesIn s) = true :=
  ⟨rfl, ⟨rfl, rfl, rfl, rfl⟩, rfl, by decide⟩

theorem witness_IllegalOpcodesHaltTheCore :
    let s := code [0xFC] id
    (0xFC : Byte) ∈ illegalOpcodes ∧ Fetches s ∧ busValue s s.pc = .next 0xFC :=
  ⟨by decide, ⟨rfl, rfl, rfl, rfl⟩, rfl⟩

/-- PLP changes all six flags at once; interrupt entry is taken. -/
theorem witness_EachFlagIsWrittenOnlyByItsInstructions :
    let s := poke [(0x0100, 0xFF)] base
    isNext (exec .plp s) = true ∧ (after (exec .plp s)).p =
        { n := true, v := true, d := true, i := true, z := true, c := true }
      ∧ s.p = { n := false, v := false, d := false, i := false, z := false, c := false }
      ∧ isNext (takeIrq irqState) = true := by decide

theorem witness_RegistersAreWrittenOnlyByTheirInstructions :
    (after (exec (.lda (.imm 1)) base)).a ≠ base.a ∧ (after (exec .inx base)).x ≠ base.x
      ∧ (after (exec .iny base)).y ≠ base.y ∧ (after (exec .pha base)).sp ≠ base.sp
      ∧ (let s := policy .implement base
         classOf (Instr.lax (.zp 0)).mnem = .unofficial ∧ s.params.unofficialPolicy ≠ .error
           ∧ isNext (exec (.lax (.zp 0)) s) = true) := by decide

theorem witness_CycleCountsAreThoseOfTheTable :
    (isNext (exec (.lda (.abx 0x02FF)) crossing) = true ∧ classOf (Instr.lda (.abx 0x02FF)).mnem = .documented)
      ∧ (isNext (exec (.isc (.izy 0xFF)) (policy .implement crossing)) = true
        ∧ classOf (Instr.isc (.izy 0xFF)).mnem = .unofficial)
      ∧ isNext (takeIrq irqState) = true := by decide

/-- The acknowledgement line changes in each of the five transitions that the statement lists. -/
theorem witness_PortsPassOutputBitsThroughTheDirectionMask :
    (7 < 8 ∧ 4 ≤ (4 : BitVec 4).toNat ∧ 4 ≤ (15 : BitVec 4).toNat)
      ∧ (let idle := State.reset.serial
        (idle.edgeNotify 0x18 0x18).sstate = .waitCommand ∧ (idle.edgeNotify 0x18 0x18).ack ≠ idle.ack)
      ∧ (let t := waiting.notifyAll (pulses 0x28 true)
        t.sstate = .waitSecondaryAddress ∧ t.ack ≠ waiting.ack)
      ∧ (let t := waiting.notifyAll (pulses 0x48 true)
        t.sstate = .talk ∧ t.ack ≠ waiting.ack)
      ∧ (let b : SerialBus := { waiting with sstate := .waitSecondaryAddress }
        let t := b.notifyAll (pulses 0xF0 true)
        t.sstate = .eoi ∧ t.ack ≠ b.ack)
      ∧ (let b : SerialBus := { waiting with sstate := .listen }
        let t := b.notifyAll (pulses 0x3F true)
        t.sstate = .idle ∧ t.ack ≠ b.ack) := by
  decide +kernel

theorem witness_PortWritesNotifyTheSerialBusOnlyOnAChange :
    (0 : BitVec 4).toNat < 4 ∧ (3 : BitVec 4).toNat < 4 ∧ 4 ≤ (4 : BitVec 4).toNat ∧ 4 ≤ (15 : BitVec 4).toNat
      ∧ (ciaWrite .cia2 0 0x18 line0).outA2 ≠ line0.outA2 ∧ (ciaWrite .cia2 2 0x38 line0).outA2
          = line0.outA2 := by decide

/-- The store cycle of `STA $DD00` that asserts ATN and holds CLK low. -/
def atPortStore : State :=
  after (busCycle (after (busCycle (after (busCycle
    (bytesAt 0xC000 [0x8D, 0x00, 0xDD] { line0 with a := 0x18 }))))))

theorem witness_SerialStateChangesOnlyInAPortAWrite :
    isNext (busCycle atPortStore) = true ∧ (after (busCycle atPortStore)).serial ≠ atPortStore.serial := by decide

theorem delivers_pulses (byte : Byte) (atn : Bool) : Delivers byte atn (pulses byte atn) := by
  refine ⟨(pulses byte atn).dropLast, 0x10, (if atn then 0x08 else 0) ||| (if byte.getLsbD 7 then 0 else 0x20), ?_⟩
  revert byte atn
  decide +kernel

theorem witness_EightRisesDeliverOneByte :
    (Delivers 0x3E true (pulses 0x3E true) ∧ waiting.nbits = 0 ∧ waiting.shreg = 0 ∧ waiting.sstate = .waitCommand)
      ∧ (Delivers 0xFF false (pulses 0xFF false)
        ∧ ({ waiting with sstate := .waitSecondaryAddress } : SerialBus).sstate = .waitSecondaryAddress)
      ∧ (Delivers 0x3F true (pulses 0x3F true) ∧ ({ waiting with sstate := .listen } : SerialBus).sstate = .listen)
      ∧ (State.reset.serial.sstate = .idle ∧ lineAtn 0x18 = true ∧ lineClkLow 0x18 = true ∧ lineAtn 0x10 = false
        ∧ lineClkLow 0x08 = false)
      ∧ (({ waiting with sstate := .eoi } : SerialBus).sstate = .eoi ∧ clkRise 0x10 0x00 = true)
      ∧ ({ waiting with sstate := .talk } : SerialBus).sstate = .talk
      ∧ (State.reset.serial.sstate = .idle ∧ lineAtn 0x18 = true ∧ lineClkLow 0x18 = true
        ∧ 0x20 ≤ (0x20 : Byte).toNat ∧ (0x3E : Byte).toNat ≤ 0x3E ∧ Delivers 0x20 true (pulses 0x20 true)) :=
  ⟨⟨delivers_pulses _ _, by decide⟩, ⟨delivers_pulses _ _, rfl⟩, ⟨delivers_pulses _ _, rfl⟩, by decide,
    by decide, rfl, rfl, by decide, by decide, by decide, by decide, delivers_pulses _ _⟩

theorem witness_OpenTransactionEmitsTheFileName :
    State.reset.serial.sstate = .idle ∧ State.reset.serial.queue = [] ∧ lineAtn 0x18 = true ∧ lineClkLow 0x18 = true
      ∧ (30 : Byte).toNat ≤ 30 ∧ Delivers (0x20 + 30) true (pulses (0x20 + 30) true)
      ∧ Delivers 0xF0 true (pulses 0xF0 true) ∧ clkRise 0x10 0x00 = true
      ∧ DeliversAll [0x24, 0x41] (pulses 0x24 false ++ (pulses 0x41 false ++ [])) ∧ DeliversAll [] []
      ∧ Delivers 0x3F true (pulses 0x3F true) :=
  ⟨rfl, rfl, by decide, by decide, by decide, delivers_pulses _ _, delivers_pulses _ _, by decide,
    ⟨_, _, rfl, delivers_pulses _ _, _, _, rfl, delivers_pulses _ _, rfl⟩, rfl, delivers_pulses _ _⟩

theorem witness_HostActionsHaveTheirEffectsOnly : bare.romsOpen = true := rfl

end Sys2Proof.Machine
end

section
/-! The state: the status byte, power-on, and which flags an instruction writes. -/

namespace Sys2Proof.Machine

/-! ## The status byte (R26) -/

section
variable (p : Flags) (b : Byte)

/-- The bits of P as it is read, from bit 0 up. -/
theorem Flags.getLsbD_toByte (k : Nat) :
    p.toByte.getLsbD k = [p.c, p.z, p.i, p.d, false, true, p.v, p.n].getD k false := by
  by_cases hk : k < 8
  · obtain ⟨n, v, d, i, z, c⟩ := p
    revert n v d i z c
    interval_cases k <;> decide
  · rw [BitVec.getLsbD_of_ge _ _ (by omega), List.getD_eq_default _ _ (by simpa using hk)]

@[simp] theorem Flags.fromStack_toByte : fromStack p.toByte = p := by
  simp only [fromStack, getLsbD_toByte]
  rfl

/-- Loading a status byte does not see its bits 4 and 5. -/
@[simp] theorem Flags.fromStack_or_30 : fromStack (b ||| 0x30) = fromStack b := by
  simp [fromStack]

theorem Flags.toByte_fromStack : (fromStack b).toByte = (b &&& 0xCF) ||| 0x20 := by
  revert b; decide

/-- The byte an interrupt pushes is P as it is read. -/
theorem Flags.pushedByIrq_eq : p.pushedByIrq = p.toByte := by
  obtain ⟨n, v, d, i, z, c⟩ := p
  revert n v d i z c
  decide

/-- The byte a program pushes differs from P as it is read in bit 4 alone. -/
theorem Flags.pushedByProgram_eq : p.pushedByProgram = p.toByte ||| 0x10 := by
  obtain ⟨n, v, d, i, z, c⟩ := p
  revert n v d i z c
  decide

end

/-- Settles O45: bit by bit for the byte that is read, and through it for the two bytes that are pushed. -/
theorem statusByteHasBreakAndUnusedOnlyOnTheStack : Obligations.StatusByteHasBreakAndUnusedOnlyOnTheStack := by
  intro p b
  have bit := p.getLsbD_toByte
  refine ⟨bit 7, bit 6, bit 5, bit 4, bit 3, bit 2, bit 1, bit 0, p.pushedByProgram_eq, ?_, p.pushedByIrq_eq,
    (Flags.fromStack_or_30 b).symm, Flags.toByte_fromStack b, p.fromStack_toByte, ?_, ?_, fun _ => rfl⟩
  · simp [Flags.pushedByProgram]
  · rw [Flags.pushedByProgram, Flags.fromStack_or_30, Flags.fromStack_toByte]
  · rw [p.pushedByIrq_eq, Flags.fromStack_toByte]

/-! ## Power-on (R40, R401) -/

/-- RAM after power-on: 0x37 at address 1, the draw everywhere else. -/
theorem ramRead_powerOn (q : Params) (kernal : Memory) (basic : Option Memory) (r : Draws) (a : Word) :
    ramRead (powerOn q kernal basic r) a = if a = 1 then 0x37 else r.ram.get ramUnlisted a.toNat := by
  have hram : (powerOn q kernal basic r).ram = r.ram.set ramUnlisted (1 : Word).toNat 0x37 := rfl
  simp only [ramRead, hram, Memory.get_set, BitVec.toNat_inj]

/-- After power-on and the load of the images a reset() changes nothing. -/
theorem hostReset_powerOn (q : Params) (kernal : Memory) (basic : Option Memory) (r : Draws) :
    hostReset (powerOn q kernal basic r) = powerOn q kernal basic r := rfl

/-- Settles O2: reset() leaves the state that power-on and the load of the images give, so one set of values serves for
both. -/
theorem powerOnAndResetForEveryDraw : Obligations.PowerOnAndResetForEveryDraw := by
  intro q kernal basic r
  rw [hostReset_powerOn]
  have hram := ramRead_powerOn q kernal basic r
  refine ⟨rfl, rfl, rfl, rfl, rfl, rfl, rfl, Flags.getLsbD_toByte _ 5, Flags.getLsbD_toByte _ 4, rfl, rfl, rfl,
    rfl, (hram 1).trans (if_pos rfl), fun a ha => (hram a).trans (if_neg ha), rfl, rfl, rfl, rfl, rfl, rfl, rfl, rfl⟩

/-! ## What a run can do to the registers -/

/-- A, X, Y, SP and P together. -/
structure Regs where
  a : Byte
  x : Byte
  y : Byte
  sp : Byte
  p : Flags

def State.regs (s : State) : Regs := ⟨s.a, s.x, s.y, s.sp, s.p⟩

section
variable {β : Type} (π : Regs → β)

/-- The terminal operation of an instruction leaves the observation `π` of the registers as it was. -/
def Operation.keeps : Operation → Prop
  | .read g | .pull g => ∀ v s, π (g v s).regs = π s.regs
  | .rmw g => ∀ v s, π (g v s).2.regs = π s.regs
  | .internal g => ∀ s, π (g s).regs = π s.regs
  | .write _ | .branch _ | .push _ | .fixed => True

/-- What the cycles of a sequence write besides its operation: SP where it uses the stack, I on interrupt entry, and P
on the return from one; the observation `π` sees none of it. -/
def Seq.keeps : Seq → Prop
  | .push | .pull | .jsr | .rts => ∀ r sp, π { r with sp := sp } = π r
  | .brk | .irq => (∀ r sp, π { r with sp := sp } = π r) ∧ ∀ r, π { r with p := { r.p with i := true } } = π r
  | .rti => (∀ r sp, π { r with sp := sp } = π r) ∧ ∀ r p, π { r with p := p } = π r
  | _ => True

/-- Every next state that a cycle of `f` answers has the registers' observation of `s`, and runs the same sequence if
it is still within one. -/
def CycleKeeps (s : State) (f : InFlight) (r : Result State) : Prop :=
  ∀ t, r = .next t → π t.regs = π s.regs ∧ ∀ g, t.phase = .runMicroSteps g → g.seq = f.seq

variable {π} {s u : State} {f : InFlight}

theorem cycleKeeps_fault (x : Fault) : CycleKeeps π s f (.fault x) := by
  rintro _ ⟨⟩

theorem cycleKeeps_finish (h : π u.regs = π s.regs) : CycleKeeps π s f (.next (finish u)) := by
  rintro _ ⟨⟩; exact ⟨h, nofun⟩

theorem cycleKeeps_proceed {l : Latches} (h : π u.regs = π s.regs) : CycleKeeps π s f (.next (proceed f l u)) := by
  rintro _ ⟨⟩; exact ⟨h, by rintro _ ⟨⟩; rfl⟩

theorem cycleKeeps_proceedUntil {n : Nat} (h : π u.regs = π s.regs) :
    CycleKeeps π s f (.next (proceedUntil n f u)) := by
  unfold proceedUntil
  split
  · exact cycleKeeps_proceed h
  · exact cycleKeeps_finish h

theorem cycleKeeps_read {a : Word} {k : Byte × State → Result State}
    (h : ∀ v, CycleKeeps π s f (k (v, record (.read a v) u))) : CycleKeeps π s f (andThen (busRead a u) k) := by
  intro t ht
  obtain ⟨r, hr, ht⟩ := andThen_eq_next.1 ht
  obtain ⟨-, hu⟩ := busRead_eq_next.1 hr
  exact h r.1 t (hu ▸ ht)

theorem cycleKeeps_dummy {a : Word} {k : State → Result State}
    (h : ∀ v, CycleKeeps π s f (k (record (.read a v) u))) : CycleKeeps π s f (andThen (dummyRead a u) k) := by
  rw [dummyRead, andThen_assoc]
  exact cycleKeeps_read h

theorem cycleKeeps_fetch {src : Source} {b : OperandByte} {k : Byte × State → Result State}
    (h : ∀ v, CycleKeeps π s f (k (v, setPc (u.pc + 1) (record (.read u.pc v) u)))) :
    CycleKeeps π s f (andThen (fetchOperand src b u) k) := by
  intro t ht
  obtain ⟨r, hr, ht⟩ := andThen_eq_next.1 ht
  obtain ⟨-, hu⟩ := fetchOperand_eq_next hr
  exact h r.1 t (hu ▸ ht)

/-! ### The registers under the operations of the state -/

@[simp] theorem regs_busWrite (a : Word) (v : Byte) (s : State) : (busWrite a v s).regs = s.regs := by
  simp [State.regs]

@[simp] theorem regs_pushByte (v : Byte) (s : State) : (pushByte v s).regs = { s.regs with sp := s.sp - 1 } := by
  simp [State.regs, pushByte]

/-! ### The cycles of each sequence -/

/-- An address cycle changes no register but PC. -/
theorem addressCycle_regs {src : Source} {m : Mode} {n : Nat} {l : Latches} {r : Latches × State}
    (h : addressCycle src m n l s = .next r) : r.2.regs = s.regs := by
  unfold addressCycle at h
  have fetched {b : OperandByte} {v : Byte × State} (hv : fetchOperand src b s = .next v) : v.2.regs = s.regs := by
    rw [(fetchOperand_eq_next hv).2]; rfl
  have read {a : Word} {v : Byte × State} (hv : busRead a s = .next v) : v.2.regs = s.regs := by
    rw [(busRead_eq_next.1 hv).2]; rfl
  have dummy {a : Word} {u : State} (hv : dummyRead a s = .next u) : u.regs = s.regs := by
    obtain ⟨_, -, rfl⟩ := dummyRead_eq_next.1 hv; rfl
  split at h <;> first
    | (obtain ⟨v, hv, e⟩ := andThen_eq_next.1 h
       cases e
       first | exact fetched hv | exact read hv | exact dummy hv)
    | cases h

theorem accessCycle_keeps {src : Source} {m : Mode} {access : Nat → InFlight → State → Result State}
    (ha : ∀ k, CycleKeeps π s f (access k f s)) : CycleKeeps π s f (accessCycle src m access f s) := by
  unfold accessCycle
  split
  · intro t ht
    obtain ⟨r, hr, ht⟩ := andThen_eq_next.1 ht
    exact cycleKeeps_proceed (congrArg π (addressCycle_regs hr)) t ht
  · exact ha _

theorem readAccess_keeps {g : Byte → State → State} (hg : (Operation.read g).keeps π) {m : Mode} (k : Nat) :
    CycleKeeps π s f (readAccess g m k f s) := by
  have final (a : Word) : CycleKeeps π s f (finalRead g a s) := cycleKeeps_read fun v => cycleKeeps_finish (hg v _)
  unfold readAccess
  split
  · exact final _
  · split
    · exact cycleKeeps_read fun v => cycleKeeps_proceed rfl
    · exact final _
  · exact final _
  · exact cycleKeeps_fault _

theorem writeAccess_keeps {g : State → Byte} {m : Mode} (k : Nat) : CycleKeeps π s f (writeAccess g m k f s) := by
  have store (a : Word) (v : Byte) : π (busWrite a v s).regs = π s.regs := by rw [regs_busWrite]
  unfold writeAccess
  split
  · exact cycleKeeps_dummy fun v => cycleKeeps_proceed rfl
  · exact cycleKeeps_finish (store _ _)
  · exact cycleKeeps_finish (store _ _)
  · exact cycleKeeps_fault _

theorem rmwAccess_keeps {g : Byte → State → Byte × State} (hg : (Operation.rmw g).keeps π) {m : Mode} (k : Nat) :
    CycleKeeps π s f (rmwAccess g m k f s) := by
  have read : CycleKeeps π s f (rmwRead f s) := cycleKeeps_read fun v => cycleKeeps_proceed rfl
  have dummyWrite : CycleKeeps π s f (.next (rmwDummyWrite f s)) := cycleKeeps_proceed (by rw [regs_busWrite])
  have finalWrite : CycleKeeps π s f (.next (rmwFinalWrite g f s)) :=
    cycleKeeps_finish (by rw [regs_busWrite]; exact hg _ s)
  unfold rmwAccess
  split
  · exact cycleKeeps_dummy fun v => cycleKeeps_proceed rfl
  · exact read
  · exact read
  · exact dummyWrite
  · exact dummyWrite
  · exact finalWrite
  · exact finalWrite
  · exact cycleKeeps_fault _

theorem internalCycle_keeps {g : State → State} (hg : (Operation.internal g).keeps π) :
    CycleKeeps π s f (internalCycle g f s) := by
  unfold internalCycle
  split
  · exact cycleKeeps_dummy fun v => cycleKeeps_finish (hg _)
  · exact cycleKeeps_fault _

theorem immediateCycle_keeps {src : Source} {g : Byte → State → State} (hg : (Operation.read g).keeps π) :
    CycleKeeps π s f (immediateCycle src g f s) := by
  unfold immediateCycle
  split
  · exact cycleKeeps_fetch fun v => cycleKeeps_finish (hg v _)
  · exact cycleKeeps_fault _

theorem branchCycle_keeps {src : Source} {c : Flags → Bool} : CycleKeeps π s f (branchCycle src c f s) := by
  unfold branchCycle
  split
  · refine cycleKeeps_fetch fun v => ?_
    split
    · exact cycleKeeps_proceed rfl
    · exact cycleKeeps_finish rfl
  · refine cycleKeeps_dummy fun v => ?_
    split
    · exact cycleKeeps_finish rfl
    · exact cycleKeeps_proceed rfl
  · exact cycleKeeps_dummy fun v => cycleKeeps_finish rfl
  · exact cycleKeeps_fault _

theorem jmpAbsCycle_keeps {src : Source} : CycleKeeps π s f (jmpAbsCycle src f s) := by
  unfold jmpAbsCycle
  split
  · exact cycleKeeps_fetch fun v => cycleKeeps_proceed rfl
  · exact cycleKeeps_fetch fun v => cycleKeeps_finish rfl
  · exact cycleKeeps_fault _

theorem jmpIndCycle_keeps {src : Source} : CycleKeeps π s f (jmpIndCycle src f s) := by
  unfold jmpIndCycle
  split
  · exact cycleKeeps_fetch fun v => cycleKeeps_proceed rfl
  · exact cycleKeeps_fetch fun v => cycleKeeps_proceed rfl
  · exact cycleKeeps_read fun v => cycleKeeps_proceed rfl
  · exact cycleKeeps_read fun v => cycleKeeps_finish rfl
  · exact cycleKeeps_fault _

theorem nopCycle_keeps {src : Source} {len cycles : Nat} : CycleKeeps π s f (nopCycle src len cycles f s) := by
  unfold nopCycle
  split
  · exact cycleKeeps_fault _
  · split
    · exact cycleKeeps_fetch fun v => cycleKeeps_proceedUntil rfl
    · exact cycleKeeps_proceedUntil rfl

/-! The sequences that use the stack move SP. -/

section
variable (hsp : ∀ r sp, π { r with sp := sp } = π r)
include hsp

theorem pushByte_keeps (v : Byte) (u : State) : π (pushByte v u).regs = π u.regs := by
  rw [regs_pushByte, hsp]

theorem bumpSp_keeps (u : State) : π (bumpSp u).regs = π u.regs := hsp u.regs _

theorem cycleKeeps_stackPreRead :
    CycleKeeps π s f (andThen (stackPreRead s) fun s => .next (proceed f f.latches s)) := by
  rw [stackPreRead, andThen_assoc]
  exact cycleKeeps_dummy fun v => cycleKeeps_proceed (bumpSp_keeps hsp _)

theorem jsrCycle_keeps {src : Source} : CycleKeeps π s f (jsrCycle src f s) := by
  unfold jsrCycle
  split
  · exact cycleKeeps_fetch fun v => cycleKeeps_proceed rfl
  · exact cycleKeeps_dummy fun v => cycleKeeps_proceed rfl
  · exact cycleKeeps_proceed (pushByte_keeps hsp _ s)
  · exact cycleKeeps_proceed (pushByte_keeps hsp _ s)
  · exact cycleKeeps_fetch fun v => cycleKeeps_finish rfl
  · exact cycleKeeps_fault _

theorem rtsCycle_keeps : CycleKeeps π s f (rtsCycle f s) := by
  unfold rtsCycle
  split
  · exact cycleKeeps_dummy fun v => cycleKeeps_proceed rfl
  · exact cycleKeeps_stackPreRead hsp
  · exact cycleKeeps_read fun v => cycleKeeps_proceed (bumpSp_keeps hsp _)
  · exact cycleKeeps_read fun v => cycleKeeps_proceed rfl
  · exact cycleKeeps_dummy fun v => cycleKeeps_finish rfl
  · exact cycleKeeps_fault _

theorem pushCycle_keeps {g : State → Byte} : CycleKeeps π s f (pushCycle g f s) := by
  unfold pushCycle
  split
  · exact cycleKeeps_dummy fun v => cycleKeeps_proceed rfl
  · exact cycleKeeps_finish (pushByte_keeps hsp _ s)
  · exact cycleKeeps_fault _

theorem pullCycle_keeps {g : Byte → State → State} (hg : (Operation.pull g).keeps π) :
    CycleKeeps π s f (pullCycle g f s) := by
  unfold pullCycle
  split
  · exact cycleKeeps_dummy fun v => cycleKeeps_proceed rfl
  · exact cycleKeeps_stackPreRead hsp
  · exact cycleKeeps_read fun v => cycleKeeps_finish (hg v _)
  · exact cycleKeeps_fault _

theorem entryCycle_keeps (hi : ∀ r, π { r with p := { r.p with i := true } } = π r) {st : Flags → Byte} :
    CycleKeeps π s f (entryCycle st f s) := by
  unfold entryCycle
  split
  · exact cycleKeeps_proceed (pushByte_keeps hsp _ s)
  · exact cycleKeeps_proceed (pushByte_keeps hsp _ s)
  · exact cycleKeeps_proceed ((hi (pushByte _ s).regs).trans (pushByte_keeps hsp _ s))
  · exact cycleKeeps_read fun v => cycleKeeps_proceed rfl
  · exact cycleKeeps_read fun v => cycleKeeps_finish rfl
  · exact cycleKeeps_fault _

theorem brkCycle_keeps (hi : ∀ r, π { r with p := { r.p with i := true } } = π r) {src : Source} :
    CycleKeeps π s f (brkCycle src f s) := by
  unfold brkCycle
  split
  · exact cycleKeeps_fetch fun v => cycleKeeps_proceed rfl
  · exact entryCycle_keeps hsp hi

theorem irqCycle_keeps (hi : ∀ r, π { r with p := { r.p with i := true } } = π r) :
    CycleKeeps π s f (irqCycle f s) := by
  unfold irqCycle
  split
  · exact cycleKeeps_dummy fun v => cycleKeeps_proceed rfl
  · exact entryCycle_keeps hsp hi

theorem returnCycle_keeps (hp : ∀ r p, π { r with p := p } = π r) : CycleKeeps π s f (returnCycle f s) := by
  unfold returnCycle
  split
  · exact cycleKeeps_dummy fun v => cycleKeeps_proceed rfl
  · exact cycleKeeps_stackPreRead hsp
  · exact cycleKeeps_read fun v => cycleKeeps_proceed ((bumpSp_keeps hsp _).trans (hp s.regs _))
  · exact cycleKeeps_read fun v => cycleKeeps_proceed (bumpSp_keeps hsp _)
  · exact cycleKeeps_read fun v => cycleKeeps_finish rfl
  · exact cycleKeeps_fault _

end

/-- One cycle keeps every observation that its operation and its sequence keep. -/
theorem microCycle_keeps {src : Source} {op : Operation} (ho : op.keeps π) (hq : f.seq.keeps π) :
    CycleKeeps π s f (microCycle src op f s) := by
  unfold microCycle
  split <;> simp only [Seq.keeps, *] at hq
  · exact internalCycle_keeps ho
  · exact immediateCycle_keeps ho
  · exact accessCycle_keeps (readAccess_keeps ho)
  · exact accessCycle_keeps writeAccess_keeps
  · exact accessCycle_keeps (rmwAccess_keeps ho)
  · exact branchCycle_keeps
  · exact jmpAbsCycle_keeps
  · exact jmpIndCycle_keeps
  · exact jsrCycle_keeps hq
  · exact rtsCycle_keeps hq
  · exact returnCycle_keeps hq.1 hq.2
  · exact pushCycle_keeps hq
  · exact pullCycle_keeps hq ho
  · exact brkCycle_keeps hq.1 hq.2
  · exact irqCycle_keeps hq.1 hq.2
  · exact nopCycle_keeps
  · exact cycleKeeps_fault _

/-! ### Whole runs -/

theorem runCycles_keeps {src : Source} {op : Operation} {q : Seq} (ho : op.keeps π) (hq : q.keeps π) (n : Nat) :
    ∀ {s t : State}, (∀ f, s.phase = .runMicroSteps f → f.seq = q) → runCycles src op n s = .next t →
      π t.regs = π s.regs := by
  induction n with
  | zero => rintro s _ - ⟨⟩; rfl
  | succ n ih =>
    intro s t hs h
    unfold runCycles at h
    split at h
    case h_1 => cases h; rfl
    case h_2 f hf =>
      obtain ⟨u, hu, h⟩ := andThen_eq_next.1 h
      obtain ⟨hk, hseq⟩ := microCycle_keeps ho (hs f hf ▸ hq) u hu
      exact (ih (fun g hg => (hseq g hg).trans (hs f hf)) h).trans hk

theorem runSeq_keeps {i : Instr} {q : Seq} {op : Operation} {t : State} (ho : op.keeps π) (hq : q.keeps π)
    (h : runSeq i q op s = .next t) : π t.regs = π s.regs := by
  unfold runSeq at h
  split at h
  · exact runCycles_keeps (s := openInstr _ q s) ho hq _ (by rintro _ ⟨⟩; rfl) h
  · cases h

/-- Under every policy an unofficial instruction keeps what its operation and its sequence keep. -/
theorem runUnofficial_keeps {i : Instr} {op : Operation} {t : State} (ho : op.keeps π) (hq : (instrSeq i).keeps π)
    (h : runUnofficial i op s = .next t) : π t.regs = π s.regs := by
  unfold runUnofficial at h
  split at h
  · split at h <;> cases h
    rfl
  · exact runSeq_keeps (q := nopSeq i) ho trivial h
  · exact runSeq_keeps ho hq h

/-- An instruction keeps every observation of the registers that its operation and its sequence keep. -/
theorem exec_keeps {i : Instr} {t : State} (ho : (operationOf i).keeps π) (hq : (instrSeq i).keeps π)
    (h : exec i s = .next t) : π t.regs = π s.regs := by
  cases hc : classOf i.mnem with
  | documented =>
    by_cases hj : i.mnem = .jsr
    · cases i with
      | jsr w =>
        rw [exec_jsr] at h
        exact runSeq_keeps (q := .jsr) (op := .fixed) trivial hq h
      | _ => cases hj
    · rw [exec_documented hc hj] at h
      exact runSeq_keeps ho hq h
  | unofficial =>
    rw [exec_unofficial hc] at h
    exact runUnofficial_keeps ho hq h
  | illegal =>
    cases i with
    | illegal opc =>
      change execIllegal opc s = .next t at h
      unfold execIllegal at h
      split at h <;> cases h
      rfl
    | _ => cases hc

end

/-! ## The flags that each instruction writes (R27) -/

@[simp] theorem adcFlags_d (mode : DecimalMode) (a m : Byte) (p : Flags) : (adcFlags mode a m p).2.d = p.d := by
  unfold adcFlags; split <;> rfl

@[simp] theorem adcFlags_i (mode : DecimalMode) (a m : Byte) (p : Flags) : (adcFlags mode a m p).2.i = p.i := by
  unfold adcFlags; split <;> rfl

@[simp] theorem sbcFlags_d (mode : DecimalMode) (a m : Byte) (p : Flags) : (sbcFlags mode a m p).2.d = p.d := by
  unfold sbcFlags; split <;> rfl

@[simp] theorem sbcFlags_i (mode : DecimalMode) (a m : Byte) (p : Flags) : (sbcFlags mode a m p).2.i = p.i := by
  unfold sbcFlags; split <;> rfl

/-- P with the flags blanked that the table of R27 lets an instruction write. -/
def unwrittenFlags (k : Mnem) (p : Flags) : Flags :=
  match k with
  | .lda | .ldx | .ldy | .tax | .tay | .txa | .tya | .tsx | .pla | .and | .ora | .eor | .inc | .dec | .inx | .iny
  | .dex | .dey | .lax => { p with n := false, z := false }
  | .cmp | .cpx | .cpy | .asl | .lsr | .rol | .ror | .slo | .rla | .sre | .dcp =>
    { p with n := false, z := false, c := false }
  | .bit => { p with n := false, v := false, z := false }
  | .adc | .sbc | .rra | .isc => { p with n := false, v := false, z := false, c := false }
  | .clc | .sec => { p with c := false }
  | .cli | .sei | .brk => { p with i := false }
  | .cld | .sed => { p with d := false }
  | .clv => { p with v := false }
  | .plp | .rti => ⟨false, false, false, false, false, false⟩
  | .sta | .stx | .sty | .txs | .bpl | .bmi | .bvc | .bvs | .bcc | .bcs | .bne | .beq | .jmp | .jsr | .rts | .pha
  | .php | .nop | .sax | .illegal => p

theorem operationOf_keeps_unwrittenFlags (i : Instr) :
    (operationOf i).keeps fun r => unwrittenFlags i.mnem r.p := by
  cases i with
  | adc | sbc | rra | isc =>
    intro v s
    simp [unwrittenFlags, Instr.mnem, State.regs, opAdc, opSbc, opRra, opIsc, thenOp, onByte, rorFlags, setNZ]
  | asl m | lsr m | rol m | ror m => cases m <;> first | exact fun _ _ => rfl | exact fun _ => rfl
  | _ => first | exact True.intro | exact fun _ _ => rfl | exact fun _ => rfl

theorem instrSeq_keeps_unwrittenFlags (i : Instr) : (instrSeq i).keeps fun r => unwrittenFlags i.mnem r.p := by
  cases i with
  | asl m | lsr m | rol m | ror m => cases m <;> exact True.intro
  | jmp t => cases t <;> exact True.intro
  | brk => exact ⟨fun _ _ => rfl, fun _ => rfl⟩
  | rti => exact ⟨fun _ _ => rfl, fun _ _ => rfl⟩
  | jsr | rts | pha | php | pla | plp => exact fun _ _ => rfl
  | _ => exact True.intro

/-- Executing an instruction keeps every flag that the table of R27 does not let it write. -/
theorem exec_unwrittenFlags {i : Instr} {s t : State} (h : exec i s = .next t) :
    unwrittenFlags i.mnem t.p = unwrittenFlags i.mnem s.p :=
  exec_keeps (operationOf_keeps_unwrittenFlags i) (instrSeq_keeps_unwrittenFlags i) h

/-- Interrupt entry sets I and changes no other flag (R340). -/
theorem takeIrq_p {s t : State} (h : takeIrq s = .next t) : t.p = { s.p with i := true } := by
  have hr : readable s s.pc = true := by
    obtain ⟨u, hu, -⟩ := andThen_eq_next.1 h
    obtain ⟨w, hw, -⟩ := andThen_eq_next.1 hu
    obtain ⟨v, hv, -⟩ := dummyRead_eq_next.1 hw
    exact readable_of_busValue hv
  obtain ⟨v, w, h0, h1, -, -, l, m, g, g', -, -, e⟩ := takeIrq_eq hr
  cases e.symm.trans h
  rfl

/-- Settles O52: an instruction whose mnemonic is not in a flag's list has that flag in its `unwrittenFlags`, which it
keeps; interrupt entry is known in closed form. -/
theorem eachFlagIsWrittenOnlyByItsInstructions : Obligations.EachFlagIsWrittenOnlyByItsInstructions := by
  refine ⟨fun i s t h => ?_, fun s t => takeIrq_p⟩
  have hk := exec_unwrittenFlags h
  generalize i.mnem = k at hk ⊢
  cases k <;> simp_all [unwrittenFlags]

end Sys2Proof.Machine
end

section
/-! Memory: the bank decode over addresses as numbers, and what reads and writes do under it. -/

namespace Sys2Proof.Machine

/-! ## The decode (R62 to R70) -/

/-- The decode of R64 to R70 on numbers: the bank byte and the address. -/
def bankTarget (bank n : Nat) : Target :=
  if n ≤ 0x9FFF ∨ (0xC000 ≤ n ∧ n ≤ 0xCFFF) then .ram
  else if n ≤ 0xBFFF then if bank % 2 = 1 ∧ bank / 2 % 2 = 1 then .basic else .ram
  else if n ≤ 0xDFFF then
    if bank / 4 % 2 = 0 then .ram
    else if n ≤ 0xD3FF then if n % 64 < 47 then .vic (BitVec.ofNat 6 (n % 64)) else .vicGap
    else if n ≤ 0xDBFF then .charShadow
    else if n ≤ 0xDCFF then .cia .cia1 (BitVec.ofNat 4 (n % 16))
    else if n ≤ 0xDDFF then .cia .cia2 (BitVec.ofNat 4 (n % 16))
    else .charShadow
  else if bank / 2 % 2 = 1 then .kernal
  else .ram

section
variable (a : Word) (bank : Byte)

/-- The page of an address, compared with a page number. -/
theorem hi_le_iff (p : Byte) : hi a ≤ p ↔ a.toNat ≤ 256 * p.toNat + 255 := by
  have : (hi a).toNat = a.toNat / 256 := by
    simp only [hi, BitVec.extractLsb'_toNat, Nat.shiftRight_eq_div_pow]
    omega
  rw [BitVec.le_def, this]
  omega

/-- A register window's offset is the low bits of the address, so the window is mirrored. -/
theorem setWidth_eq_ofNat_mod (k : Nat) : a.setWidth k = BitVec.ofNat k (a.toNat % 2 ^ k) :=
  BitVec.eq_of_toNat_eq (by simp)

/-- The decode by page, over the whole address. -/
theorem decodeAddr_eq :
    decodeAddr bank a =
      if a.toNat ≤ 0x9FFF then .ram
      else if a.toNat ≤ 0xBFFF then if bank.getLsbD 0 = true ∧ bank.getLsbD 1 = true then .basic else .ram
      else if a.toNat ≤ 0xCFFF then .ram
      else if a.toNat ≤ 0xDFFF then if bank.getLsbD 2 = true then ioTarget a else .ram
      else if bank.getLsbD 1 = true then .kernal
      else .ram := by
  simp [decodeAddr, hi_le_iff]

theorem decodeAddr_basicRange (h : 0xA000 ≤ a.toNat) (h' : a.toNat ≤ 0xBFFF) :
    decodeAddr bank a = if bank.getLsbD 0 = true ∧ bank.getLsbD 1 = true then .basic else .ram := by
  rw [decodeAddr_eq, if_neg (by omega), if_pos h']

theorem decodeAddr_kernalRange (h : 0xE000 ≤ a.toNat) :
    decodeAddr bank a = if bank.getLsbD 1 = true then .kernal else .ram := by
  rw [decodeAddr_eq, if_neg (by omega), if_neg (by omega), if_neg (by omega), if_neg (by omega)]

theorem ioTarget_eq :
    ioTarget a =
      if a.toNat ≤ 0xD3FF then if a.toNat % 64 < 47 then .vic (BitVec.ofNat 6 (a.toNat % 64)) else .vicGap
      else if a.toNat ≤ 0xDBFF then .charShadow
      else if a.toNat ≤ 0xDCFF then .cia .cia1 (BitVec.ofNat 4 (a.toNat % 16))
      else if a.toNat ≤ 0xDDFF then .cia .cia2 (BitVec.ofNat 4 (a.toNat % 16))
      else .charShadow := by
  simp [ioTarget, setWidth_eq_ofNat_mod, BitVec.le_def, BitVec.lt_def]

/-- A bit of the bank byte, as arithmetic. -/
theorem getLsbD_iff_div_mod (k : Nat) : bank.getLsbD k = true ↔ bank.toNat / 2 ^ k % 2 = 1 := by
  rw [BitVec.getLsbD, Nat.testBit_eq_decide_div_mod_eq, decide_eq_true_eq]

/-- Range by range, the model's decode is the decode on numbers. -/
theorem decodeAddr_eq_bankTarget : decodeAddr bank a = bankTarget bank.toNat a.toNat := by
  have charen : bank.toNat / 2 ^ 2 % 2 = 1 ↔ ¬ bank.toNat / 4 % 2 = 0 := by omega
  simp only [decodeAddr_eq, ioTarget_eq, bankTarget, getLsbD_iff_div_mod, charen, ite_not, Nat.pow_zero, Nat.div_one,
    Nat.pow_one]
  by_cases hlow : a.toNat ≤ 0x9FFF
  · rw [if_pos hlow, if_pos (.inl hlow)]
  by_cases hc000 : 0xC000 ≤ a.toNat ∧ a.toNat ≤ 0xCFFF
  · have hbasic : ¬ a.toNat ≤ 0xBFFF := by omega
    rw [if_neg hlow, if_neg hbasic, if_pos hc000.2, if_pos (.inr hc000)]
  · rw [if_neg hlow, if_neg (not_or.2 ⟨hlow, hc000⟩)]
    by_cases hbasic : a.toNat ≤ 0xBFFF
    · rw [if_pos hbasic, if_pos hbasic]
    · have hio : ¬ a.toNat ≤ 0xCFFF := by omega
      rw [if_neg hbasic, if_neg hbasic, if_neg hio]

end

section
variable (s : State) (a : Word)

theorem targetOf_eq_bankTarget : targetOf s a = bankTarget (ramRead s 1).toNat a.toNat :=
  decodeAddr_eq_bankTarget a (ramRead s 1)

theorem targetOf_of_lt_0200 (h : a.toNat < 0x0200) : targetOf s a = .ram := by
  rw [targetOf, decodeAddr_eq, if_pos (by omega)]

end

/-! ## Reads -/

section
variable {s : State} {a : Word}

theorem busValue_of_ram (h : targetOf s a = .ram) : busValue s a = .next (ramRead s a) := by
  simp only [busValue, h]

theorem busValue_of_basic {rom : Memory} (hrom : s.basicRom = some rom) (h : targetOf s a = .basic) :
    busValue s a = .next (rom.get romUnlisted (a.toNat - 0xA000)) := by
  simp only [busValue, h, hrom]

theorem busValue_of_kernal (h : targetOf s a = .kernal) :
    busValue s a = .next (s.kernalRom.get romUnlisted (a.toNat - 0xE000)) := by
  simp only [busValue, h]

end

/-- Settles O18: the value of a read is a case split over its target, and the target is `bankTarget`. -/
theorem readsFollowTheBankDecode : Obligations.ReadsFollowTheBankDecode := by
  intro s a
  refine ⟨?_, rfl⟩
  rw [busValue, targetOf_eq_bankTarget, bankTarget]
  split_ifs <;> rfl

/-! ## Writes -/

theorem ciaWrite_ram (n : CiaId) (off : BitVec 4) (v : Byte) (s : State) : (ciaWrite n off v s).ram = s.ram := by
  unfold ciaWrite
  split
  · dsimp only
    split
    · rw [updateOutA2_frame]
      cases n <;> rfl
    · cases n <;> rfl
  · rfl

section
variable {s : State} {a : Word} (v : Byte)

/-- A RAM byte after a bus cycle's write. -/
theorem ramRead_busWrite (s : State) (a : Word) (b : Word) :
    ramRead (busWrite a v s) b = if b = a ∧ targetOf s a = .ram then v else ramRead s b :=
  ramRead_busStore a v s b

theorem inVideoRam_eq (a : Word) : inVideoRam a = decide (0x0400 ≤ a.toNat ∧ a.toNat ≤ 0x07FF) := by
  simp [inVideoRam, BitVec.le_def]

/-- A write where RAM is mapped stores the byte, and sets the redraw flag for the video range (R73, R76). -/
theorem busStore_of_ram (h : targetOf s a = .ram) :
    busStore a v s =
        { s with
          ram := (busStore a v s).ram
          redrawNeeded := s.redrawNeeded || decide (0x0400 ≤ a.toNat ∧ a.toNat ≤ 0x07FF) }
      ∧ ∀ b, ramRead (busStore a v s) b = if b = a then v else ramRead s b := by
  refine ⟨?_, fun b => by simp only [ramRead_busStore, h, and_true]⟩
  rw [busStore_ram a v s h, inVideoRam_eq]
  rfl

/-- A write where a ROM image, the shadow region or a gap of the VIC's registers is mapped is discarded (R74). -/
theorem busStore_discarded
    (h : targetOf s a = .basic ∨ targetOf s a = .kernal ∨ targetOf s a = .vicGap ∨ targetOf s a = .charShadow) :
    busStore a v s = s := by
  obtain h | h | h | h := h <;> simp only [busStore, h]

theorem busStore_of_vic {off : BitVec 6} (h : targetOf s a = .vic off) :
    busStore a v s = deliver .vic off.toNat v s := by
  simp only [busStore, h]

theorem busStore_of_cia {n : CiaId} {off : BitVec 4} (h : targetOf s a = .cia n off) :
    busStore a v s = ciaWrite n off v s ∧ (busStore a v s).ram = s.ram := by
  have : busStore a v s = ciaWrite n off v s := by simp only [busStore, h]
  exact ⟨this, this ▸ ciaWrite_ram n off v s⟩

end

/-- Settles O19: along the branches of `bankTarget`, what a write to that target changes. -/
theorem writesFollowTheBankDecode : Obligations.WritesFollowTheBankDecode := by
  intro s a v
  refine ⟨?_, by simp only [busWrite, record, busStore_history]⟩
  have ht := targetOf_eq_bankTarget s a
  rw [bankTarget] at ht
  split_ifs at ht ⊢
  · exact busStore_of_ram v ht
  · exact busStore_discarded v (.inl ht)
  · exact busStore_of_ram v ht
  · exact busStore_of_ram v ht
  · refine (busStore_of_vic v ht).trans ?_
    rw [BitVec.toNat_ofNat, Nat.mod_mod_of_dvd _ (by decide)]
    rfl
  · exact busStore_discarded v (.inr (.inr (.inl ht)))
  · exact busStore_discarded v (.inr (.inr (.inr ht)))
  · exact busStore_of_cia v ht
  · exact busStore_of_cia v ht
  · exact busStore_discarded v (.inr (.inr (.inr ht)))
  · exact busStore_discarded v (.inr (.inl ht))
  · exact busStore_of_ram v ht

/-! ## Reads after writes -/

/-- Writes to other addresses leave a RAM byte as it is, whatever they do to the mapping. -/
theorem ramRead_writes_other {a : Word} (others : List (Word × Byte)) (s : State) (h : ∀ w ∈ others, w.1 ≠ a) :
    ramRead (others.foldl (fun s w => busWrite w.1 w.2 s) s) a = ramRead s a := by
  induction others generalizing s with
  | nil => rfl
  | cons w ws ih =>
    obtain ⟨hw, hws⟩ := List.forall_mem_cons.1 h
    rw [List.foldl_cons, ih _ hws, ramRead_busWrite]
    exact if_neg fun e => hw e.1.symm

/-- Settles O20: the first write puts the byte into RAM, the others leave it there. -/
theorem readAfterWriteReturnsTheByte : Obligations.ReadAfterWriteReturnsTheByte := by
  intro s a v others hs hothers t ht
  have hv : ramRead t a = v := by
    rw [ramRead_writes_other others _ hothers, ramRead_busWrite, if_pos ⟨rfl, hs⟩]
  exact ⟨_, busRead_of_busValue (hv ▸ busValue_of_ram ht)⟩

/-! ## The bank switch (R79) -/

/-- A write to 0x0001 gives every address the decode of the new bank byte. -/
theorem targetOf_busWrite_one (bank : Byte) (s : State) (a : Word) :
    targetOf (busWrite 1 bank s) a = decodeAddr bank a := by
  rw [targetOf, ramRead_busWrite, if_pos ⟨rfl, targetOf_one s⟩]

theorem ramRead_busWrite_one {b : Word} (bank : Byte) (s : State) (h : b ≠ 1) :
    ramRead (busWrite 1 bank s) b = ramRead s b := by
  rw [ramRead_busWrite, if_neg fun e => h e.1]

/-- A write leaves no trace in RAM where RAM is not mapped. -/
theorem ramRead_busWrite_hidden {s : State} {a : Word} (v : Byte) (b : Word) (h : targetOf s a ≠ .ram) :
    ramRead (busWrite a v s) b = ramRead s b := by
  rw [ramRead_busWrite, if_neg fun e => h e.2]

/-- Settles O21: in each of the two ranges, the decode under the new bank byte gives the ROM image or RAM. -/
theorem bankSwitchRevealsRomOrTheOldRam : Obligations.BankSwitchRevealsRomOrTheOldRam := by
  intro s rom bank v a hrom t
  have ht : targetOf t a = decodeAddr bank a := targetOf_busWrite_one bank s a
  have hram : ∀ b : Word, b ≠ 1 → ramRead t b = ramRead s b := fun b => ramRead_busWrite_one bank s
  have hne {m : Nat} (hm : 1 < m) (h : m ≤ a.toNat) : a ≠ 1 := by
    rintro rfl
    exact absurd h (by simpa using hm)
  refine ⟨hram, fun h h' => ?_, fun h => ?_⟩
  · have ha := hram a (hne (by decide) h)
    rw [decodeAddr_basicRange a bank h h'] at ht
    split_ifs at ht ⊢
    · have hbasic : t.basicRom = some rom := (busWrite_basicRom 1 bank s).trans hrom
      exact ⟨busValue_of_basic hbasic ht, (ramRead_busWrite_hidden v a (by simp [ht])).trans ha⟩
    · exact ha ▸ busValue_of_ram ht
  · have ha := hram a (hne (by decide) h)
    rw [decodeAddr_kernalRange a bank h] at ht
    split_ifs at ht ⊢
    · have hkernal : t.kernalRom = s.kernalRom := busWrite_kernalRom 1 bank s
      exact ⟨hkernal ▸ busValue_of_kernal ht, (ramRead_busWrite_hidden v a (by simp [ht])).trans ha⟩
    · exact ha ▸ busValue_of_ram ht

/-! ## Zero page and the stack page (R91) -/

theorem toNat_stackAddr (sp : Byte) : (stackAddr sp).toNat = 0x0100 + sp.toNat := by
  revert sp; decide

/-- Settles O22: their addresses lie below 0xA000, where every bank byte maps RAM. -/
theorem zeroPageAndStackAreAlwaysRam : Obligations.ZeroPageAndStackAreAlwaysRam := by
  intro s a h
  have ht := targetOf_of_lt_0200 s a h
  exact ⟨ht, busValue_of_ram ht, fun v => by rw [ramRead_busWrite, if_pos ⟨rfl, ht⟩], toNat_stackAddr⟩

end Sys2Proof.Machine
end

section
/-! Encoding: the census of the opcode map, and the addresses of the operand forms as numbers. -/

namespace Sys2Proof.Machine

/-! ## The opcode classes (R111 to R113, R322) -/

/-- Settles O4: the map of R110 is read off at each of the 256 bytes, once for each class. -/
theorem everyOpcodeIsInOneClass : Obligations.EveryOpcodeIsInOneClass := by
  refine ⟨?illegal, ?unofficial, ?documented⟩
  case illegal => decide +kernel
  case unofficial => decide +kernel
  case documented => decide +kernel

/-! ## Bytes, words and the address operations as numbers -/

theorem toNat_zext16 (b : Byte) : (zext16 b).toNat = b.toNat :=
  BitVec.toNat_setWidth_of_le (by decide)

theorem toNat_hi (w : Word) : (hi w).toNat = w.toNat / 256 := by
  simp only [hi, BitVec.extractLsb'_toNat, Nat.shiftRight_eq_div_pow]
  omega

theorem toNat_lo (w : Word) : (lo w).toNat = w.toNat % 256 := by
  simp only [lo, BitVec.extractLsb'_toNat, Nat.shiftRight_zero]

theorem toNat_zpIndexed (base idx : Byte) : (zpIndexed base idx).toNat = (base.toNat + idx.toNat) % 256 := by
  rw [zpIndexed, toNat_zext16, BitVec.toNat_add]

theorem toNat_zpPointer (s : State) (p : Byte) :
    (zpPointer s p).toNat = (ramRead s (zext16 p)).toNat + 256 * (ramRead s (zext16 (p + 1))).toNat := by
  rw [zpPointer, toNat_word]
  omega

/-! ## An index added to a 16-bit base (R104, R142, R160) -/

section
variable (base : Word) (idx : Byte)

theorem toNat_indexed : (indexed (hi base) (lo base) idx).toNat = (base.toNat + idx.toNat) % 65536 := by
  rw [indexed, word_hi_lo, BitVec.toNat_add, toNat_zext16]

theorem toNat_uncorrected :
    (uncorrected (hi base) (lo base) idx).toNat = base.toNat / 256 * 256 + (base.toNat + idx.toNat) % 256 := by
  rw [uncorrected, toNat_word, BitVec.toNat_add, toNat_hi, toNat_lo, Nat.mod_add_mod]

theorem pageCross_iff (bal : Byte) : pageCross bal idx = true ↔ bal.toNat + idx.toNat > 255 :=
  decide_eq_true_iff

theorem pageCross_lo_iff : pageCross (lo base) idx = true ↔ base.toNat % 256 + idx.toNat > 255 := by
  rw [pageCross_iff, toNat_lo]

/-- The index carries out of the low byte exactly when the page of the sum is another one. The top page is no
exception: from there the sum wraps to page 0. -/
theorem pageCross_iff_page_ne :
    pageCross (lo base) idx = true
      ↔ (indexed (hi base) (lo base) idx).toNat / 256 ≠ base.toNat / 256 := by
  rw [pageCross_lo_iff, toNat_indexed]
  have := base.isLt
  have := idx.isLt
  omega

theorem pageCross_iff_hi_ne :
    pageCross (lo base) idx = true ↔ hi (indexed (hi base) (lo base) idx) ≠ hi base := by
  rw [pageCross_iff_page_ne, ← toNat_hi, ← toNat_hi, Ne, BitVec.toNat_inj]

end

/-! ## The operand forms -/

/-- Settles O23: `abx`, `aby` and `izy` add an index to a word, that of `izy` being the one its pointer names. -/
theorem effectiveAddressesAndPageCrossings : Obligations.EffectiveAddressesAndPageCrossings := by
  intro s b w pointer
  have hp (p : Byte) : pointer p = (zpPointer s p).toNat := (toNat_zpPointer s p).symm
  rw [hp, hp]
  exact ⟨toNat_zext16 b, toNat_zpIndexed b s.x, toNat_zpIndexed b s.y, rfl,
    toNat_indexed w s.x, toNat_indexed w s.y, rfl, toNat_indexed (zpPointer s b) s.y,
    pageCross_iff s.x (lo w), pageCross_iff_hi_ne w s.x,
    pageCross_iff s.y (lo w), pageCross_iff_hi_ne w s.y,
    pageCross_lo_iff (zpPointer s b) s.y, pageCross_iff_page_ne (zpPointer s b) s.y,
    toNat_uncorrected w s.x, toNat_uncorrected w s.y, toNat_uncorrected (zpPointer s b) s.y⟩

end Sys2Proof.Machine
end

section
/-! The micro-steps: one bus cycle in each call of the spec's `step()`, and how many cycles an instruction takes. -/

namespace Sys2Proof.Machine

/-! ## One call of the spec's `step()` (R130, R132) -/

section
variable {s : State}

/-- A halted core does nothing. -/
theorem stepCall_of_halted (h : s.halt ≠ .none) : stepCall s = .next (.halted s.halt, s) := by
  unfold stepCall
  cases hh : s.halt with
  | none => exact absurd hh h
  | _ => rfl

theorem stepCall_of_boundary (h : s.halt = .none) (hp : s.phase = .fetchOpcode) : stepCall s = fetchOpcodeStep s := by
  simp only [stepCall, h, hp]

theorem stepCall_of_inFlight {f : InFlight} (h : s.halt = .none) (hp : s.phase = .runMicroSteps f) :
    stepCall s = andThen (microStep f s) fun t => .next (.ok, t) := by
  simp only [stepCall, h, hp]

theorem fetchOpcodeStep_of_paused (h : s.pausePending = true) : fetchOpcodeStep s = .next (.paused, s) := by
  rw [fetchOpcodeStep, if_pos h]

/-- T1 of interrupt entry is one read at PC, and it clears the latch (R154). -/
theorem openIrq_eq_next {t : State} :
    openIrq s = .next t ↔ ∃ v, busValue s s.pc = .next v
      ∧ t = { record (.read s.pc v) s with
          irqPending := false
          phase := .runMicroSteps { opc := 0x00, seq := .irq, t := 2, latches := {} } } := by
  simp only [openIrq, andThen_eq_next, dummyRead_eq_next, Host.Outcome.next.injEq]
  exact ⟨fun ⟨u, ⟨v, hv, hu⟩, ht⟩ => ⟨v, hv, by rw [← ht, hu]⟩, fun ⟨v, hv, ht⟩ => ⟨_, ⟨v, hv, rfl⟩, ht.symm⟩⟩

/-- The call records one bus cycle, and it tells whether the core has halted. -/
def OneCycleCall (s : State) (r : CallResult × State) : Prop :=
  (∃ c, r.2.history = c :: s.history)
    ∧ ((r.1 = .ok ∧ r.2.halt = .none) ∨ (r.1 = .halted r.2.halt ∧ r.2.halt ≠ .none))

/-- At a boundary that is not paused the call takes the interrupt, starts an instruction, or halts the core. -/
theorem fetchOpcodeStep_oneCycleCall {r : CallResult × State} (hh : s.halt = .none) (hp : s.pausePending = false)
    (h : fetchOpcodeStep s = .next r) : OneCycleCall s r := by
  rw [fetchOpcodeStep, hp, if_neg Bool.false_ne_true] at h
  split at h
  · obtain ⟨t, ht, h⟩ := andThen_eq_next.1 h
    obtain ⟨v, -, rfl⟩ := openIrq_eq_next.1 ht
    cases h
    exact ⟨⟨_, rfl⟩, .inl ⟨rfl, hh⟩⟩
  · obtain ⟨opc, -, h⟩ := andThen_eq_next.1 h
    split at h
    · cases h
      exact ⟨⟨_, rfl⟩, .inl ⟨rfl, hh⟩⟩
    case h_2 hne =>
      cases h
      exact ⟨⟨_, rfl⟩, .inr ⟨rfl, hne⟩⟩

/-- A micro-step of an instruction in progress does not halt the core. -/
theorem microStep_oneCycleCall {f : InFlight} {t : State} (hh : s.halt = .none) (h : microStep f s = .next t) :
    OneCycleCall s (.ok, t) := by
  obtain ⟨hk, hc⟩ := (microCycle_one (operationOf_regsOnly _) h).kept
  exact ⟨hc, .inl ⟨rfl, hk.halt.trans hh⟩⟩

/-- Settles O9: by the phase, the call is the fetch step or a micro-step, and each of them makes one bus cycle. -/
theorem eachCallIsOneBusCycle : Obligations.EachCallIsOneBusCycle := by
  intro s
  refine ⟨stepCall_of_halted, fun hh hp hq => ?_, fun hh hpq r h => ?_⟩
  · rw [stepCall_of_boundary hh hp, fetchOpcodeStep_of_paused hq]
  · show OneCycleCall s r
    cases hp : s.phase with
    | fetchOpcode =>
      rw [stepCall_of_boundary hh hp] at h
      exact fetchOpcodeStep_oneCycleCall hh (hpq.resolve_left fun hne => hne hp) h
    | runMicroSteps f =>
      rw [stepCall_of_inFlight hh hp] at h
      obtain ⟨t, ht, h⟩ := andThen_eq_next.1 h
      cases h
      exact microStep_oneCycleCall hh ht

end

/-! ## Only instructions run -/

/-- A term with an opcode has one of its mnemonic's forms. -/
theorem wellFormed_of_opcode {i : Instr} {opc : Byte} (h : i.opcode = some opc) : WellFormed i := by
  have forms (k : Mnem) {m : Mode} (h : k.opcodes.lookup m = some opc) : k.forms.contains m = true := by
    obtain ⟨l₁, l₂, he, -⟩ := List.lookup_eq_some_iff.1 h
    have key : ∀ e ∈ k.opcodes, k.forms.contains e.1 = true := by cases k <;> decide
    exact key (m, opc) (by simp [he])
  cases i with
  | illegal b =>
    by_contra hn
    exact Option.some_ne_none opc (h.symm.trans (if_neg hn))
  | _ => exact forms _ h

theorem wellFormed_of_runSeq {i : Instr} {q : Seq} {op : Operation} {s t : State} (h : runSeq i q op s = .next t) :
    WellFormed i := by
  unfold runSeq at h
  split at h
  case h_1 opc ho => exact wellFormed_of_opcode ho
  case h_2 => cases h

/-! ## The length of a record -/

section
variable {s : State} {a : Word} {v opc : Byte} {m : Operand} {g h : List BusCycle}

theorem ReadsAt.length (hr : ReadsAt s a v g h) : h.length = g.length + 1 := by
  rw [hr.2, List.length_cons]

theorem UncorrectedRead.length {there : Bool} (hu : UncorrectedRead s m there g h) :
    h.length = g.length + there.toNat := by
  cases there with
  | false => exact congrArg List.length hu
  | true =>
    obtain ⟨u, hu⟩ := hu
    exact hu.length

/-- The opcode fetch and the address cycles. -/
theorem addressRecord_length (hm : hasAddress m = true) :
    (addressRecord opc m s).length = s.history.length + (1 + addressCycles m.mode) := by
  cases m with
  | acc | imm _ => cases hm
  | _ => rw [addressRecord, List.length_append, List.length_reverse, Nat.add_comm]; rfl

/-- The "read" column: the final read, and on a page cross the one at the uncorrected address. -/
theorem readCycles_eq (hm : hasAddress m = true) :
    readCycles m s = 2 + addressCycles m.mode + (crossesPage m s).toNat := by
  cases m with
  | acc | imm _ => cases hm
  | _ => rfl

/-- The "write" column: the write, and for an indexed form the read at the uncorrected address. -/
theorem writeCycles_eq (hm : hasAddress m = true) :
    writeCycles m = 2 + addressCycles m.mode + (isIndexed m).toNat := by
  cases m with
  | acc | imm _ => cases hm
  | _ => rfl

/-- The "RMW" column: a read and two writes. -/
theorem rmwCycles_eq (hm : hasAddress m = true) :
    rmwCycles m = 4 + addressCycles m.mode + (isIndexed m).toNat := by
  cases m with
  | acc | imm _ => cases hm
  | _ => rfl

theorem ReadsOperand.length (hr : ReadsOperand opc m s v h) : h.length = s.history.length + readCycles m s := by
  have addressed (hm : hasAddress m = true) (hr : ∃ g, UncorrectedRead s m (crossesPage m s) (addressRecord opc m s) g
      ∧ ReadsAt s (effectiveAddress m s) v g h) : h.length = s.history.length + readCycles m s := by
    obtain ⟨g, hu, hr⟩ := hr
    rw [hr.length, hu.length, addressRecord_length hm, readCycles_eq hm]
    omega
  cases m with
  | acc => cases hr
  | imm b => rw [hr.2]; rfl
  | _ => exact addressed rfl hr

end

/-! ## How many bus cycles each sequence makes -/

/-- If the result is a next state, its record has `n` bus cycles more than that of `s`. -/
def Takes (s : State) (n : Nat) (r : Result State) : Prop :=
  ∀ t, r = .next t → t.history.length = s.history.length + n

/-- Only a well-formed instruction runs to a next state. -/
theorem takes_runSeq {s : State} {n : Nat} {i : Instr} {q : Seq} {op : Operation}
    (h : WellFormed i → Takes s n (runSeq i q op s)) : Takes s n (runSeq i q op s) :=
  fun t ht => h (wellFormed_of_runSeq ht) t ht

section
variable {s : State} {i : Instr} (hw : WellFormed i) {m : Operand}
include hw

theorem takes_read {g : Byte → State → State} (hg : (Operation.read g).regsOnly) (hb : i.operandBytes = m.bytes)
    (hm : m ≠ .acc) : Takes s (readCycles m s) (runSeq i (.read m.mode) (.read g) s) := by
  intro t h
  obtain ⟨v, k, f, hr, e⟩ := runSeq_read hw hb hm (runSeq_read_readable hw hb hm h) g
  cases e.symm.trans h
  rw [finish_history, (hg v _).history, mid_history, hr.length]

theorem takes_write {g : State → Byte} (hb : i.operandBytes = m.bytes) (hm : hasAddress m = true) :
    Takes s (writeCycles m) (runSeq i (.write m.mode) (.write g) s) := by
  intro t h
  obtain ⟨k, f, hu, e⟩ := runSeq_write hw hb hm (runSeq_write_readable hw hb hm h) g
  cases e.symm.trans h
  rw [finish_history, busWrite_history, mid_history, List.length_cons, hu.length, addressRecord_length hm,
    writeCycles_eq hm]
  omega

theorem takes_rmw {g : Byte → State → Byte × State} (hg : (Operation.rmw g).regsOnly) (hb : i.operandBytes = m.bytes)
    (hm : hasAddress m = true) : Takes s (rmwCycles m) (runSeq i (.rmw m.mode) (.rmw g) s) := by
  intro t h
  obtain ⟨v, k, l, f, hu, hr, e⟩ := runSeq_rmw hw hb hm (runSeq_rmw_readable hw hb hm h) g
  cases e.symm.trans h
  simp only [finish_history, busWrite_history, (hg v _).history, mid_history, List.length_cons]
  rw [hr.length, hu.length, addressRecord_length hm, rmwCycles_eq hm]
  omega

theorem takes_internal {g : State → State} (hg : (Operation.internal g).regsOnly) :
    Takes s 2 (runSeq i .internal (.internal g) s) := by
  intro t h
  obtain ⟨v, k, f, hr, e⟩ := runSeq_internal hw (runSeq_internal_readable hw h) g
  cases e.symm.trans h
  rw [finish_history, (hg _).history, mid_history, hr.length, List.length_cons]

theorem takes_branch {c : Flags → Bool} {off : Byte} (hb : i.operandBytes = [off]) :
    Takes s (branchCycles (c s.p) off s) (runSeq i .branch (.branch c) s) := by
  intro t h
  cases hc : c s.p with
  | false =>
    cases (runSeq_branch_notTaken hw hb hc).symm.trans h
    rfl
  | true =>
    obtain ⟨hr, hr'⟩ := runSeq_branch_readable hw hb hc h
    by_cases hp : hi (branchTarget (s.pc + 2) off) = hi (s.pc + 2)
    · obtain ⟨v, k, hk, e⟩ := runSeq_branch_taken hw hb hc hr hp
      cases e.symm.trans h
      rw [branchCycles, if_pos rfl, if_pos hp]
      exact hk.length
    · obtain ⟨v, g, w, k, hg, hk, e⟩ := runSeq_branch_page hw hb hc hr (hr' hp) hp
      cases e.symm.trans h
      rw [branchCycles, if_pos rfl, if_neg hp]
      exact hk.length.trans (congrArg (· + 1) hg.length)

theorem takes_jmpAbs {w : Word} (hb : i.operandBytes = [lo w, hi w]) : Takes s 3 (runSeq i .jmpAbs .fixed s) := by
  intro t h
  cases (runSeq_jmpAbs hw hb s).symm.trans h
  rfl

theorem takes_jmpInd {p : Word} (hb : i.operandBytes = [lo p, hi p]) : Takes s 5 (runSeq i .jmpInd .fixed s) := by
  intro t h
  obtain ⟨hr, hr'⟩ := runSeq_jmpInd_readable hw hb h
  obtain ⟨l, g, u, k, hg, hk, e⟩ := runSeq_jmpInd hw hb hr hr'
  cases e.symm.trans h
  exact hk.length.trans (congrArg (· + 1) hg.length)

theorem takes_jsr {w : Word} (hb : i.operandBytes = [lo w, hi w]) : Takes s 6 (runSeq i .jsr .fixed s) := by
  intro t h
  cases (runSeq_jsr hw hb s).symm.trans h
  rfl

theorem takes_rts : Takes s 6 (runSeq i .rts .fixed s) := by
  intro t h
  obtain ⟨hr, hr'⟩ := runSeq_rts_readable hw h
  obtain ⟨v, g, w, k, hg, hk, e⟩ := runSeq_rts hw hr hr'
  cases e.symm.trans h
  exact hk.length.trans (congrArg (· + 4) hg.length)

theorem takes_rti : Takes s 6 (runSeq i .rti .fixed s) := by
  intro t h
  obtain ⟨v, g, hg, e⟩ := runSeq_rti hw (runSeq_rti_readable hw h)
  cases e.symm.trans h
  exact congrArg (· + 4) hg.length

theorem takes_push {g : State → Byte} : Takes s 3 (runSeq i .push (.push g) s) := by
  intro t h
  obtain ⟨v, k, f, hr, e⟩ := runSeq_push hw (runSeq_push_readable hw h) g
  cases e.symm.trans h
  rw [finish_history, pushByte_mid, mid_history, List.length_cons, hr.length, List.length_cons]

theorem takes_pull {g : Byte → State → State} (hg : (Operation.pull g).regsOnly) :
    Takes s 4 (runSeq i .pull (.pull g) s) := by
  intro t h
  obtain ⟨v, k, f, hr, e⟩ := runSeq_pull hw (runSeq_pull_readable hw h) g
  cases e.symm.trans h
  rw [finish_history, (hg _ _).history, mid_history]
  exact congrArg (· + 2) hr.length

theorem takes_brk {b : Byte} (hb : i.operandBytes = [b]) : Takes s 7 (runSeq i .brk .fixed s) := by
  intro t h
  obtain ⟨l, u, g, k, hg, hk, e⟩ := runSeq_brk hw hb s
  cases e.symm.trans h
  exact hk.length.trans (congrArg (· + 1) hg.length)

end

/-- IRQ entry: two dummy reads, three pushes, and the two reads of the vector (R154). -/
theorem takes_takeIrq (s : State) : Takes s 7 (takeIrq s) := by
  intro t h
  obtain ⟨u, hu, -⟩ := andThen_eq_next.1 h
  obtain ⟨x, hx, -⟩ := openIrq_eq_next.1 hu
  obtain ⟨v, w, h₀, h₁, hv, hw, l, m, g, k, hg, hk, e⟩ := takeIrq_eq (readable_of_busValue hx)
  cases e.symm.trans h
  calc k.length = g.length + 1 := hk.length
    _ = h₁.length + 3 + 1 + 1 := congrArg (· + 1) hg.length
    _ = s.history.length + 7 := by rw [hw.length, hv.length]

/-! ## The table -/

section
variable {k : Mnem} {m : Operand}

/-- A mnemonic without a form does not have it in a well-formed instruction. -/
theorem mode_ne_of_forms {x : Mode} (h : k.forms.contains m.mode = true) (hx : k.forms.contains x = false) :
    m.mode ≠ x := by
  rintro rfl
  exact Bool.false_ne_true (hx.symm.trans h)

theorem hasAddress_of_forms (h : k.forms.contains m.mode = true)
    (hacc : k.forms.contains .acc = false) (himm : k.forms.contains .imm = false) : hasAddress m = true :=
  hasAddress_of_mode ⟨mode_ne_of_forms h hacc, mode_ne_of_forms h himm⟩

end

/-- A shift: on the accumulator it is an implied instruction. -/
theorem takes_shift {i : Instr} (hw : WellFormed i) {s : State} {m : Operand} {sh : Byte → Flags → Byte × Flags}
    (hg : (shiftOperation sh m).regsOnly) (hb : i.operandBytes = m.bytes) (hm : m.mode ≠ .imm) :
    Takes s (rmwCycles m) (runSeq i (if m.mode = .acc then .internal else .rmw m.mode) (shiftOperation sh m) s) := by
  cases m with
  | acc => exact takes_internal hw hg
  | imm b => exact absurd rfl hm
  | _ => exact takes_rmw hw hg hb rfl

/-- An instruction that runs its own sequence makes as many bus cycles as the table says. -/
theorem takes_runInstr {i : Instr} (hi : classOf i.mnem ≠ .illegal) (s : State) :
    Takes s (tableCycles i s) (runInstr i (operationOf i) s) := by
  refine takes_runSeq fun hw => ?_
  have ho := operationOf_regsOnly i
  cases i with
  | lda m | ldx m | ldy m | adc m | sbc m | and m | ora m | eor m | bit m | cmp m | cpx m | cpy m | lax m =>
    exact takes_read hw ho rfl (ne_acc_of_mode (mode_ne_of_forms hw rfl))
  | sta m | stx m | sty m | sax m => exact takes_write hw rfl (hasAddress_of_forms hw rfl rfl)
  | asl m | lsr m | rol m | ror m => exact takes_shift hw ho rfl (mode_ne_of_forms hw rfl)
  | inc m | dec m | slo m | rla m | sre m | rra m | dcp m | isc m =>
    exact takes_rmw hw ho rfl (hasAddress_of_forms hw rfl rfl)
  | tax | tay | txa | tya | tsx | txs | inx | iny | dex | dey | clc | sec | cli | sei | cld | sed | clv | nop =>
    exact takes_internal hw ho
  | bpl off | bmi off | bvc off | bvs off | bcc off | bcs off | bne off | beq off => exact takes_branch hw rfl
  | jmp w =>
    cases w with
    | abs w => exact takes_jmpAbs hw rfl
    | ind p => exact takes_jmpInd hw rfl
  | jsr w => exact takes_jsr hw rfl
  | rts => exact takes_rts hw
  | brk b => exact takes_brk hw rfl
  | rti => exact takes_rti hw
  | pha | php => exact takes_push hw
  | pla | plp => exact takes_pull hw ho
  | illegal opc => exact absurd rfl hi

/-- A documented instruction runs its own sequence. -/
theorem takes_exec_documented {i : Instr} (hd : classOf i.mnem = .documented) (s : State) :
    Takes s (tableCycles i s) (exec i s) := by
  by_cases hj : i.mnem = .jsr
  · cases i with
    | jsr w => exact takes_runInstr (i := .jsr (word (jsrHighByte w s) (lo w))) nofun s
    | _ => cases hj
  · rw [exec_documented hd hj]
    exact takes_runInstr (by rw [hd]; nofun) s

/-- Settles O54: each instruction of the two classes runs its own sequence, whose cycles are counted above. -/
theorem cycleCountsAreThoseOfTheTable : Obligations.CycleCountsAreThoseOfTheTable := by
  refine ⟨fun i s t h hc => ?_, fun s => takes_takeIrq s⟩
  obtain hd | ⟨hu, hp⟩ := hc
  · exact takes_exec_documented hd s t h
  · rw [exec_unofficial hu, runUnofficial_implement hp] at h
    exact takes_runInstr (by rw [hu]; nofun) s t h

end Sys2Proof.Machine
end

section
/-! Loads, stores and transfers (spec/41_load_store_transfer.md): from a mnemonic's own opcode list to the statement
about all its forms. -/

namespace Sys2Proof.Machine

/-! ## The forms of a mnemonic -/

/-- `k` makes the terms of the mnemonic `n` from their operands. -/
def MakesTermsOf (k : Operand → Instr) (n : Mnem) : Prop :=
  ∀ m, (k m).operandBytes = m.bytes ∧ (k m).wellFormed = n.forms.contains m.mode
    ∧ (k m).opcode = n.opcodes.lookup m.mode

/-- An entry of a mnemonic's opcode list is one of its forms, with the byte that the form stands for. -/
theorem forms_and_lookup_of_mem_opcodes {n : Mnem} :
    ∀ e ∈ n.opcodes, n.forms.contains e.1 = true ∧ n.opcodes.lookup e.1 = some e.2 := by
  cases n <;> decide

section
variable {k : Operand → Instr} {n : Mnem} {ok : State → Prop} (hk : MakesTermsOf k n)
include hk

/-- Each entry of the opcode list makes an instruction with that opcode byte. -/
theorem formOk_of_mem_opcodes {m : Operand} {opc : Byte} (h : (m.mode, opc) ∈ n.opcodes) : FormOk k m opc :=
  formOk_of (fun m => (hk m).1) (fun m => (hk m).2.1) (fun m => (hk m).2.2) forms_and_lookup_of_mem_opcodes h

/-- A mnemonic that reads its operand, over all its forms. -/
theorem readForms_opcodes {f op : Byte → State → State} (hacc : n.forms.contains .acc = false)
    (hr : ∀ m s, ok s → exec (k m) s = runSeq (k m) (.read m.mode) (.read op) s)
    (hf : ∀ v s pc h fl, ok s → finish (op v (mid s pc h fl)) = atBoundary pc h (f v s)) :
    ReadForms k n.opcodes ok f :=
  readForms_of
    (fun _ _ h => ⟨formOk_of_mem_opcodes hk h,
      ne_acc_of_mode (mode_ne_of_forms (forms_and_lookup_of_mem_opcodes _ h).1 hacc)⟩)
    hr hf

/-- A mnemonic that stores to its operand, over all its forms. -/
theorem storeForms_opcodes {val op : State → Byte} (hacc : n.forms.contains .acc = false)
    (himm : n.forms.contains .imm = false)
    (hr : ∀ m s, ok s → exec (k m) s = runSeq (k m) (.write m.mode) (.write op) s)
    (hf : ∀ s pc h fl, op (mid s pc h fl) = val s) : StoreForms k n.opcodes ok val :=
  storeForms_of
    (fun _ _ h => ⟨formOk_of_mem_opcodes hk h,
      hasAddress_of_forms (forms_and_lookup_of_mem_opcodes _ h).1 hacc himm⟩)
    hr hf

end

/-! ## Loads (R180 to R182) -/

/-- Settles O24: a load reads its operand, and its operation on the byte is one assignment of a register and of P. -/
theorem loadsPutTheOperandInTheRegister : Obligations.LoadsPutTheOperandInTheRegister := by
  refine ⟨?lda, ?ldx, ?ldy⟩
  case lda =>
    exact readForms_opcodes (n := .lda) (op := opLda) (fun _ => ⟨rfl, rfl, rfl⟩) rfl (fun _ _ _ => rfl)
      fun _ _ _ _ _ _ => rfl
  case ldx =>
    exact readForms_opcodes (n := .ldx) (op := opLdx) (fun _ => ⟨rfl, rfl, rfl⟩) rfl (fun _ _ _ => rfl)
      fun _ _ _ _ _ _ => rfl
  case ldy =>
    exact readForms_opcodes (n := .ldy) (op := opLdy) (fun _ => ⟨rfl, rfl, rfl⟩) rfl (fun _ _ _ => rfl)
      fun _ _ _ _ _ _ => rfl

/-! ## Stores (R183 to R185) -/

/-- Settles O25: a store writes its register, which the address cycles have not changed. -/
theorem storesWriteTheRegister : Obligations.StoresWriteTheRegister := by
  refine ⟨?sta, ?stx, ?sty⟩
  case sta =>
    exact storeForms_opcodes (n := .sta) (op := valSta) (fun _ => ⟨rfl, rfl, rfl⟩) rfl rfl (fun _ _ _ => rfl) mid_a
  case stx =>
    exact storeForms_opcodes (n := .stx) (op := valStx) (fun _ => ⟨rfl, rfl, rfl⟩) rfl rfl (fun _ _ _ => rfl) mid_x
  case sty =>
    exact storeForms_opcodes (n := .sty) (op := valSty) (fun _ => ⟨rfl, rfl, rfl⟩) rfl rfl (fun _ _ _ => rfl) mid_y

/-! ## Transfers (R186 to R191) -/

/-- Settles O26: each transfer runs the internal sequence, and its operation is one assignment of the destination and,
but for TXS, of P. -/
theorem transfersCopyARegister : Obligations.TransfersCopyARegister := by
  refine ⟨?tax, ?tay, ?txa, ?tya, ?tsx, ?txs⟩
  case tax => exact internalForm_of (op := opTax) rfl rfl (fun _ => rfl) fun _ _ _ _ => rfl
  case tay => exact internalForm_of (op := opTay) rfl rfl (fun _ => rfl) fun _ _ _ _ => rfl
  case txa => exact internalForm_of (op := opTxa) rfl rfl (fun _ => rfl) fun _ _ _ _ => rfl
  case tya => exact internalForm_of (op := opTya) rfl rfl (fun _ => rfl) fun _ _ _ _ => rfl
  case tsx => exact internalForm_of (op := opTsx) rfl rfl (fun _ => rfl) fun _ _ _ _ => rfl
  case txs => exact internalForm_of (op := opTxs) rfl rfl (fun _ => rfl) fun _ _ _ _ => rfl

end Sys2Proof.Machine
end

section
/-! Arithmetic, logic and compare (spec/42_arith_logic_compare.md): binary and decimal mode, the laws of binary
arithmetic, and the read instructions of the family from their operations. -/

namespace Sys2Proof.Machine

/-! ## Which arithmetic is in force (R200) -/

section
variable {mode : DecimalMode} {p : Flags} (a m : Byte)

theorem decimalOn_eq_true : decimalOn mode p = true ↔ mode = .nmosBcd ∧ p.d = true := by
  rw [decimalOn, Bool.and_eq_true, decide_eq_true_iff]

theorem decimalOn_eq_false (h : mode = .binary ∨ p.d = false) : decimalOn mode p = false := by
  rw [Bool.eq_false_iff, ne_eq, decimalOn_eq_true]
  rintro ⟨rfl, hd⟩
  rcases h with h | h
  · cases h
  · exact Bool.false_ne_true (h.symm.trans hd)

theorem adcFlags_of_binary (h : mode = .binary ∨ p.d = false) : adcFlags mode a m p = adcBinary a m p := by
  rw [adcFlags, decimalOn_eq_false h, if_neg Bool.false_ne_true]

theorem sbcFlags_of_binary (h : mode = .binary ∨ p.d = false) : sbcFlags mode a m p = sbcBinary a m p := by
  rw [sbcFlags, decimalOn_eq_false h, if_neg Bool.false_ne_true]

theorem adcFlags_of_decimal (h : mode = .nmosBcd ∧ p.d = true) : adcFlags mode a m p = adcDecimal a m p := by
  rw [adcFlags, if_pos (decimalOn_eq_true.2 h)]

theorem sbcFlags_of_decimal (h : mode = .nmosBcd ∧ p.d = true) : sbcFlags mode a m p = sbcDecimal a m p := by
  rw [sbcFlags, if_pos (decimalOn_eq_true.2 h)]

end

/-! ## The laws of binary arithmetic (R209, R213) -/

section
variable (a m : Byte) (p : Flags)

/-- SBC's difference is 256 less than the sum that ADC makes of the complement. -/
theorem difference_eq_sum_not :
    (a.toNat - m.toNat - (1 - p.c.toNat) : Int) = (a.toNat + (~~~m).toNat + p.c.toNat : Nat) - 256 := by
  have hm := m.isLt
  rw [BitVec.toNat_not]
  omega

/-- SBC's result is that of ADC of the complement: the two differ by 256 before they are cut to a byte. -/
theorem ofInt_difference :
    BitVec.ofInt 8 (a.toNat - m.toNat - (1 - p.c.toNat)) = BitVec.ofNat 8 (a.toNat + (~~~m).toNat + p.c.toNat) := by
  rw [difference_eq_sum_not]
  bv_omega

theorem sbcBinary_eq_adcBinary_not : sbcBinary a m p = adcBinary a (~~~m) p := by
  have carry : (a.toNat - m.toNat - (1 - p.c.toNat) : Int) ≥ 0 ↔ a.toNat + (~~~m).toNat + p.c.toNat > 0xFF := by
    rw [difference_eq_sum_not]
    omega
  simp only [sbcBinary, adcBinary, ofInt_difference, carry, BitVec.and_comm (~~~m ^^^ _)]

/-- The ninth bit of ADC's sum is its carry. -/
theorem adcBinary_toNat :
    (adcBinary a m p).1.toNat + 256 * (adcBinary a m p).2.c.toNat = a.toNat + m.toNat + p.c.toNat := by
  have ha := a.isLt
  have hm := m.isLt
  have hc := p.c.toNat_le
  simp only [adcBinary, setNZ, BitVec.toNat_ofNat]
  by_cases h : a.toNat + m.toNat + p.c.toNat > 0xFF
  · rw [decide_eq_true h, Bool.toNat_true]
    omega
  · rw [decide_eq_false h, Bool.toNat_false]
    omega

/-- SBC's carry says that no borrow occurred. -/
theorem sbcBinary_c : (sbcBinary a m p).2.c = true ↔ m.toNat + (1 - p.c.toNat) ≤ a.toNat := by
  have hc := p.c.toNat_le
  simp only [sbcBinary, setNZ, decide_eq_true_iff]
  omega

/-- `Compare(r, M)` subtracts as SBC does with C set, and keeps V. -/
theorem compareFlags_eq_sbcBinary (r : Byte) :
    compareFlags r m p = { (sbcBinary r m { p with c := true }).2 with v := p.v } := by
  simp only [compareFlags, sbcBinary, setNZ, Bool.toNat_true, Nat.cast_one, sub_self, sub_zero]

/-- `Compare(r, M)` in terms of bytes. -/
theorem compareFlags_eq (r : Byte) :
    compareFlags r m p
      = { p with c := decide (m.toNat ≤ r.toNat), n := (r - m).getLsbD 7, z := decide (r = m) } := by
  have hd : BitVec.ofInt 8 (r.toNat - m.toNat) = r - m := by bv_omega
  have hz : r - m = 0 ↔ r = m := sub_eq_zero
  have hc : (r.toNat - m.toNat : Int) ≥ 0 ↔ m.toNat ≤ r.toNat := by omega
  simp only [compareFlags, setNZ, hd, hz, hc]

end

/-- Settles O30: the laws of R213, of `adcBinary`, `sbcBinary` and `compareFlags`, which are what the three flag
functions are in binary mode. -/
theorem binaryArithmeticLaws : Obligations.BinaryArithmeticLaws := by
  intro a m p
  have adc (m : Byte) : adcFlags .binary a m p = adcBinary a m p := adcFlags_of_binary a m (.inl rfl)
  have sbc (p : Flags) : sbcFlags .binary a m p = sbcBinary a m p := sbcFlags_of_binary a m (.inl rfl)
  have complement : m ^^^ 0xFF = ~~~m := BitVec.xor_allOnes
  rw [adc, adc, sbc, sbc, complement]
  refine ⟨sbcBinary_eq_adcBinary_not a m p, ?_, compareFlags_eq_sbcBinary m p a, adcBinary_toNat a m p,
    sbcBinary_c a m p⟩
  rintro r (rfl | rfl)
  · exact ⟨decide_eq_true_iff, rfl⟩
  · exact ⟨decide_eq_true_iff, rfl⟩

/-! ## The instructions -/

/-- A mnemonic that reads its operand, over all its forms, when its operation sees neither PC, nor the record, nor the
phase. The premises about the mnemonic and about what the operation sees are equations that hold by definition, so that
a use names the mnemonic, its operation, and what the operation does. -/
theorem readForms_of_operation {k : Operand → Instr} {ok : State → Prop} {f : Byte → State → State} (n : Mnem)
    (op : Byte → State → State) (hf : ∀ v s, ok s → op v s = f v s)
    (hk : MakesTermsOf k n := by exact fun _ => ⟨rfl, rfl, rfl⟩) (hacc : n.forms.contains .acc = false := by rfl)
    (hr : ∀ m s, exec (k m) s = runSeq (k m) (.read m.mode) (.read op) s := by exact fun _ _ => rfl)
    (hmid : ∀ v s pc h fl, op v (mid s pc h fl) = mid (op v s) pc h fl := by exact fun _ _ _ _ _ => rfl) :
    ReadForms k n.opcodes ok f :=
  readForms_opcodes hk hacc (fun m s _ => hr m s) fun v s pc h fl hs => by rw [hmid, finish_mid, hf v s hs]

/-- Settles O27: ADC and SBC over all their forms, their flag functions being the binary ones. -/
theorem adcAndSbcInBinary : Obligations.AdcAndSbcInBinary := by
  refine ⟨readForms_of_operation .adc opAdc fun m s hs => ?adc, readForms_of_operation .sbc opSbc fun m s hs => ?sbc⟩
  case adc => rw [opAdc, adcFlags_of_binary s.a m hs]; rfl
  case sbc => rw [opSbc, sbcFlags_of_binary s.a m hs]; rfl

/-- Settles O28: ADC and SBC over all their forms, their flag functions being the decimal ones. -/
theorem decimalAdcAndSbcFollowTheNmosAlgorithm : Obligations.DecimalAdcAndSbcFollowTheNmosAlgorithm := by
  refine ⟨readForms_of_operation .adc opAdc fun m s hs => ?adc, readForms_of_operation .sbc opSbc fun m s hs => ?sbc⟩
  case adc => rw [opAdc, adcFlags_of_decimal s.a m hs]; rfl
  case sbc => rw [opSbc, sbcFlags_of_decimal s.a m hs]; rfl

/-- Settles O32: each instruction reads its operand, and its operation on the byte is one assignment, of A and P, and for
BIT of P alone. -/
theorem logicActsOnTheAccumulator : Obligations.LogicActsOnTheAccumulator := by
  refine ⟨?and, ?ora, ?eor, ?bit⟩
  case and => exact readForms_of_operation .and opAnd fun _ _ _ => rfl
  case ora => exact readForms_of_operation .ora opOra fun _ _ _ => rfl
  case eor => exact readForms_of_operation .eor opEor fun _ _ _ => rfl
  case bit => exact readForms_of_operation .bit opBit fun _ _ _ => rfl

/-- Settles O33: each compare reads its operand, and its operation sets P as `Compare` of its register gives it. -/
theorem comparesSetOnlyCarryZeroAndNegative : Obligations.ComparesSetOnlyCarryZeroAndNegative := by
  refine ⟨?cmp, ?cpx, ?cpy⟩
  case cmp => exact readForms_of_operation .cmp opCmp fun m s _ => by rw [opCmp, compareFlags_eq]
  case cpx => exact readForms_of_operation .cpx opCpx fun m s _ => by rw [opCpx, compareFlags_eq]
  case cpy => exact readForms_of_operation .cpy opCpy fun m s _ => by rw [opCpy, compareFlags_eq]

end Sys2Proof.Machine
end

section
/-! Shifts, rotates, increments and decrements (spec/43_shift_incdec.md): the operations on one byte, and the
read-modify-write and internal instructions of the family from them. -/

namespace Sys2Proof.Machine

/-! ## The operations on one byte (R230 to R235) -/

section
variable (v : Byte) (c : Bool)

/-- The bit that a shift to the left leaves free is the old C, so that OR is addition. -/
theorem shiftLeft_or_carry : v <<< 1 ||| (BitVec.ofBool c).setWidth 8 = (v <<< 1) + if c then 1 else 0 := by
  revert v c; decide

theorem shiftRight_or_carry :
    v >>> 1 ||| (BitVec.ofBool c).setWidth 8 <<< 7 = (v >>> 1) + if c then 0x80 else 0 := by
  revert v c; decide

theorem getLsbD_seven_rotateLeft : ((v <<< 1) + if c then 1 else 0).getLsbD 7 = v.getLsbD 6 := by
  revert v c; decide

theorem getLsbD_seven_rotateRight : ((v >>> 1) + if c then 0x80 else 0).getLsbD 7 = c := by
  revert v c; decide

theorem rotateLeft_isZero :
    decide ((v <<< 1) + (if c then 1 else 0) = 0) = (decide (v &&& 0x7F = 0) && !c) := by
  revert v c; decide

theorem rotateRight_isZero :
    decide ((v >>> 1) + (if c then 0x80 else 0) = 0) = (decide (v &&& 0xFE = 0) && !c) := by
  revert v c; decide

end

section
variable (v : Byte) (p : Flags)

theorem rolFlags_eq :
    rolFlags v p = ((v <<< 1) + (if p.c then 1 else 0),
      { p with n := v.getLsbD 6, z := decide (v &&& 0x7F = 0) && !p.c, c := v.getLsbD 7 }) := by
  simp only [rolFlags, setNZ, shiftLeft_or_carry, getLsbD_seven_rotateLeft, rotateLeft_isZero]

theorem rorFlags_eq :
    rorFlags v p = ((v >>> 1) + (if p.c then 0x80 else 0),
      { p with n := p.c, z := decide (v &&& 0xFE = 0) && !p.c, c := v.getLsbD 0 }) := by
  simp only [rorFlags, setNZ, shiftRight_or_carry, getLsbD_seven_rotateRight, rotateRight_isZero]

/-- ASL is ROL with C clear. -/
theorem aslFlags_eq_rolFlags : aslFlags v p = rolFlags v { p with c := false } := by
  simp [aslFlags, rolFlags, setNZ]

/-- LSR is ROR with C clear. -/
theorem lsrFlags_eq_rorFlags : lsrFlags v p = rorFlags v { p with c := false } := by
  simp [lsrFlags, rorFlags, setNZ]

theorem aslFlags_eq :
    aslFlags v p = (v <<< 1, { p with n := v.getLsbD 6, z := decide (v &&& 0x7F = 0), c := v.getLsbD 7 }) := by
  simp [aslFlags_eq_rolFlags, rolFlags_eq]

theorem lsrFlags_eq :
    lsrFlags v p = (v >>> 1, { p with n := false, z := decide (v &&& 0xFE = 0), c := v.getLsbD 0 }) := by
  simp [lsrFlags_eq_rorFlags, rorFlags_eq]

theorem incFlags_eq : incFlags v p = (v + 1, { p with n := (v + 1).getLsbD 7, z := decide (v = 0xFF) }) := by
  have hz : v + 1 = 0 ↔ v = 0xFF := add_eq_zero_iff_eq_neg
  simp only [incFlags, setNZ, hz]

theorem decFlags_eq : decFlags v p = (v - 1, { p with n := (v - 1).getLsbD 7, z := decide (v = 1) }) := by
  have hz : v - 1 = 0 ↔ v = 1 := sub_eq_zero
  simp only [decFlags, setNZ, hz]

end

/-! ## Read-modify-write and internal instructions -/

/-- The list holds opcodes of the mnemonic, for forms that have an address. -/
abbrev MemoryFormsOf (n : Mnem) (forms : List (Mode × Byte)) : Prop :=
  ∀ e ∈ forms, e ∈ n.opcodes ∧ e.1 ≠ .acc ∧ e.1 ≠ .imm

section
variable {k : Operand → Instr} {forms : List (Mode × Byte)} {ok : State → Prop}
  {f : Byte → State → Byte × Byte × Flags} (n : Mnem)

/-- A mnemonic that reads, modifies and writes its operand, over forms of its opcode list. -/
theorem rmwForms_opcodes {op : Byte → State → Byte × State} (hk : MakesTermsOf k n) (hl : MemoryFormsOf n forms)
    (hr : ∀ m s, hasAddress m = true → ok s → exec (k m) s = runSeq (k m) (.rmw m.mode) (.rmw op) s)
    (hf : ∀ v s t, t.a = s.a → t.p = s.p → t.params = s.params → ok s →
      op v t = ((f v s).1, setAP (f v s).2.1 (f v s).2.2 t)) : RmwForms k forms ok f :=
  rmwForms_of
    (fun _ _ h => ⟨formOk_of_mem_opcodes hk (hl _ h).1, hasAddress_of_mode (hl _ h).2⟩)
    hr hf

/-- When the operation acts on the byte and P alone, A is kept. As in `readForms_of_operation`, the premises about the
mnemonic hold by definition, so that a use names the mnemonic, its operation, and what the operation does. -/
theorem rmwForms_onByte (sh : Byte → Flags → Byte × Flags) (hf : ∀ v s, f v s = ((sh v s.p).1, s.a, (sh v s.p).2))
    (hk : MakesTermsOf k n := by exact fun _ => ⟨rfl, rfl, rfl⟩) (hl : MemoryFormsOf n forms := by decide)
    (hr : ∀ m s, hasAddress m = true → exec (k m) s = runSeq (k m) (.rmw m.mode) (.rmw (onByte sh)) s := by
      exact fun _ _ _ => rfl) :
    RmwForms k forms ok f := by
  refine rmwForms_opcodes n hk hl (fun m s hm _ => hr m s hm) fun v s t ha hp _ _ => ?_
  rw [hf, ← ha, ← hp]
  rfl

/-- The memory forms of a shift. -/
theorem rmwForms_shift (sh : Byte → Flags → Byte × Flags) (hf : ∀ v s, f v s = ((sh v s.p).1, s.a, (sh v s.p).2))
    (hk : MakesTermsOf k n := by exact fun _ => ⟨rfl, rfl, rfl⟩) (hl : MemoryFormsOf n forms := by decide)
    (hr : ∀ m s, exec (k m) s
        = runSeq (k m) (if m.mode = .acc then .internal else .rmw m.mode) (shiftOperation sh m) s := by
      exact fun _ _ => rfl) :
    RmwForms k forms ok f := by
  refine rmwForms_onByte n sh hf hk hl fun m s hm => ?_
  rw [hr]
  cases m with
  | acc => cases hm
  | _ => rfl

end

/-- An internal instruction, when its operation sees neither PC, nor the record, nor the phase. -/
theorem internalForm_of_operation {i : Instr} {opc : Byte} {f : State → State} (op : State → State)
    (hf : ∀ s, op s = f s) (hw : WellFormed i := by rfl) (ho : opcodeByte i = opc := by rfl)
    (hr : ∀ s, exec i s = runSeq i .internal (.internal op) s := by exact fun _ => rfl)
    (hmid : ∀ s pc h fl, op (mid s pc h fl) = mid (op s) pc h fl := by exact fun _ _ _ _ => rfl) :
    InternalForm i opc f :=
  internalForm_of hw ho hr fun s pc h fl => by rw [hmid, finish_mid, hf]

/-! ## The instructions -/

/-- Settles O34: each memory form is read-modify-write with `sh`, each accumulator form internal with the same `sh`. -/
theorem memoryShiftsWriteBackTheShiftedByte : Obligations.MemoryShiftsWriteBackTheShiftedByte := by
  refine ⟨?asl, ?lsr, ?rol, ?ror, ?aslAcc, ?lsrAcc, ?rolAcc, ?rorAcc⟩
  case asl => exact rmwForms_shift .asl aslFlags fun v s => by rw [aslFlags_eq]
  case lsr => exact rmwForms_shift .lsr lsrFlags fun v s => by rw [lsrFlags_eq]
  case rol => exact rmwForms_shift .rol rolFlags fun v s => by rw [rolFlags_eq]
  case ror => exact rmwForms_shift .ror rorFlags fun v s => by rw [rorFlags_eq]
  case aslAcc => exact internalForm_of_operation (onAccumulator aslFlags) fun s => by rw [onAccumulator, aslFlags_eq]
  case lsrAcc => exact internalForm_of_operation (onAccumulator lsrFlags) fun s => by rw [onAccumulator, lsrFlags_eq]
  case rolAcc => exact internalForm_of_operation (onAccumulator rolFlags) fun s => by rw [onAccumulator, rolFlags_eq]
  case rorAcc => exact internalForm_of_operation (onAccumulator rorFlags) fun s => by rw [onAccumulator, rorFlags_eq]

/-- Settles O35: INC and DEC are read-modify-write, and the register forms internal, with the same two operations. -/
theorem incrementsAndDecrementsWrapAndKeepCarry : Obligations.IncrementsAndDecrementsWrapAndKeepCarry := by
  refine ⟨?inc, ?dec, ?inx, ?iny, ?dex, ?dey⟩
  case inc => exact rmwForms_onByte .inc incFlags fun v s => by rw [incFlags_eq]
  case dec => exact rmwForms_onByte .dec decFlags fun v s => by rw [decFlags_eq]
  case inx => exact internalForm_of_operation opInx fun s => by rw [opInx, incFlags_eq]
  case iny => exact internalForm_of_operation opIny fun s => by rw [opIny, incFlags_eq]
  case dex => exact internalForm_of_operation opDex fun s => by rw [opDex, decFlags_eq]
  case dey => exact internalForm_of_operation opDey fun s => by rw [opDey, decFlags_eq]

end Sys2Proof.Machine
end

section
/-! Control flow (spec/44_control_flow.md): RAM under pushes, the vector through the bank decode, the instructions. -/

namespace Sys2Proof.Machine

/-! ## RAM under pushes (R12, R23) -/

@[simp] theorem stackAddr_inj {b c : Byte} : stackAddr b = stackAddr c ↔ b = c := by
  refine ⟨fun h => BitVec.eq_of_toNat_eq ?_, congrArg stackAddr⟩
  have h := congrArg BitVec.toNat h
  rw [toNat_stackAddr, toNat_stackAddr] at h
  omega

theorem sp_sub_one_sub_one (b : Byte) : b - 1 - 1 = b - 2 := by bv_omega

/-- Pushes one after the other write to different addresses. -/
theorem stackAddr_ne_of_pushes (b : Byte) :
    stackAddr b ≠ stackAddr (b - 1) ∧ stackAddr b ≠ stackAddr (b - 2)
      ∧ stackAddr (b - 1) ≠ stackAddr (b - 2) := by
  simp only [ne_eq, stackAddr_inj]
  bv_omega

section
variable (s : State) (pc a : Word) (v w status : Byte)

@[simp] theorem ramRead_atBoundary (h : List BusCycle) : ramRead (atBoundary pc h s) a = ramRead s a := rfl

theorem pushed_eq : pushed v s = { s with sp := s.sp - 1, ram := (pushed v s).ram } := rfl

theorem ramRead_pushed : ramRead (pushed v s) a = if a = stackAddr s.sp then v else ramRead s a :=
  ramRead_ramWrite s (stackAddr s.sp) a v

/-- Two pushes change SP and RAM alone. -/
theorem pushed_pushed_eq :
    pushed w (pushed v s) = { s with sp := s.sp - 2, ram := (pushed w (pushed v s)).ram } := by
  rw [← sp_sub_one_sub_one, pushed_eq (pushed v s)]
  simp

theorem ramRead_pushed_pushed :
    ramRead (pushed w (pushed v s)) a
      = if a = stackAddr (s.sp - 1) then w else if a = stackAddr s.sp then v else ramRead s a := by
  rw [ramRead_pushed, ramRead_pushed, pushed_sp]

/-- The three pushes of an interrupt change SP, I and RAM alone. -/
theorem interrupted_eq :
    interrupted pc status s
      = { s with sp := s.sp - 3, p := { s.p with i := true }, ram := (interrupted pc status s).ram } := by
  have e : s.sp - 3 = s.sp - 1 - 1 - 1 := by bv_omega
  rw [interrupted, setP, pushed_eq, e]
  simp

@[simp] theorem interrupted_kernalRom : (interrupted pc status s).kernalRom = s.kernalRom := by
  rw [interrupted_eq]

theorem ramRead_interrupted :
    ramRead (interrupted pc status s) a
      = if a = stackAddr (s.sp - 2) then status
        else if a = stackAddr (s.sp - 1) then lo pc else if a = stackAddr s.sp then hi pc else ramRead s a := by
  rw [interrupted, ramRead_setP, ramRead_pushed, ramRead_pushed_pushed, pushed_sp, pushed_sp, sp_sub_one_sub_one]

variable {a}

theorem ne_stackAddr_of_hi_ne (h : hi a ≠ 1) (b : Byte) : a ≠ stackAddr b :=
  fun e => h (by rw [e, hi_stackAddr])

/-- An interrupt writes to the stack page alone. -/
theorem ramRead_interrupted_of_hi_ne (h : hi a ≠ 1) : ramRead (interrupted pc status s) a = ramRead s a := by
  have ne := ne_stackAddr_of_hi_ne h
  rw [ramRead_interrupted, if_neg (ne _), if_neg (ne _), if_neg (ne _)]

end

/-! ## The vector through the bank decode (R64, R84) -/

section
variable {s : State} {a : Word} (ha : 0xE000 ≤ a.toNat)
include ha

/-- Above 0xE000 HIRAM alone says whether the KERNAL image or RAM answers. -/
theorem busValue_eq_vectorByte : busValue s a = .next (vectorByte s a) := by
  have target := decodeAddr_kernalRange a (ramRead s 1) ha
  unfold vectorByte
  split_ifs at target ⊢
  · exact busValue_of_kernal target
  · exact busValue_of_ram target

theorem ReadsAt.eq_vectorByte {v : Byte} {g h : List BusCycle} (hr : ReadsAt s a v g h) : v = vectorByte s a :=
  Host.Outcome.next.inj (hr.1.symm.trans (busValue_eq_vectorByte ha))

/-- An interrupt's pushes reach neither the bank byte nor the vector. -/
theorem vectorByte_interrupted (pc : Word) (status : Byte) :
    vectorByte (interrupted pc status s) a = vectorByte s a := by
  have page : hi a ≠ 1 := fun e => by
    have h := toNat_hi a
    rw [e] at h
    bv_omega
  rw [vectorByte, vectorByte, ramRead_interrupted_of_hi_ne s pc status (by decide),
    ramRead_interrupted_of_hi_ne s pc status page, interrupted_kernalRom]

end

/-! ## Branches (R260 to R268) -/

/-- A branch, when its instruction is the one of the map that runs the branch sequence with the condition `c`. -/
theorem branchForm_of_condition {k : Byte → Instr} {opc : Byte} {taken : Flags → Prop} (c : Flags → Bool)
    (hc : ∀ p, c p = true ↔ taken p)
    (hw : ∀ off, WellFormed (k off) ∧ opcodeByte (k off) = opc ∧ (k off).operandBytes = [off] := by
      exact fun _ => ⟨rfl, rfl, rfl⟩)
    (hr : ∀ off s, exec (k off) s = runSeq (k off) .branch (.branch c) s := by exact fun _ _ => rfl) :
    BranchForm k opc taken :=
  branchForm_of hw hr hc

/-- Settles O36: the condition of each pair of branches is a flag, or its complement. -/
theorem branchesTestTheirFlag : Obligations.BranchesTestTheirFlag := by
  refine ⟨?bpl, ?bmi, ?bvc, ?bvs, ?bcc, ?bcs, ?bne, ?beq⟩
  case bpl => exact branchForm_of_condition condBpl fun p => iff_of_eq (Bool.not_eq_true' p.n)
  case bmi => exact branchForm_of_condition condBmi fun _ => Iff.rfl
  case bvc => exact branchForm_of_condition condBvc fun p => iff_of_eq (Bool.not_eq_true' p.v)
  case bvs => exact branchForm_of_condition condBvs fun _ => Iff.rfl
  case bcc => exact branchForm_of_condition condBcc fun p => iff_of_eq (Bool.not_eq_true' p.c)
  case bcs => exact branchForm_of_condition condBcs fun _ => Iff.rfl
  case bne => exact branchForm_of_condition condBne fun p => iff_of_eq (Bool.not_eq_true' p.z)
  case beq => exact branchForm_of_condition condBeq fun _ => Iff.rfl

/-! ## Jumps (R269, R270) -/

theorem toNat_pointerHigh (p : Word) :
    (pointerHigh (hi p) (lo p)).toNat = p.toNat / 256 * 256 + (p.toNat + 1) % 256 := by
  have one : (1 : Byte).toNat = 1 := rfl
  rw [pointerHigh, toNat_word, toNat_hi, BitVec.toNat_add, toNat_lo, one]
  omega

/-- Settles O37: the pointer's second byte is read at the address that the model writes `pointerHigh`. -/
theorem jmpGoesToItsTarget : Obligations.JmpGoesToItsTarget := by
  refine ⟨fun t s => runSeq_jmpAbs (i := .jmp (.abs t)) rfl rfl s, fun p second s h hr hr' => ?_⟩
  obtain rfl : second = pointerHigh (hi p) (lo p) := BitVec.eq_of_toNat_eq (h.trans (toNat_pointerHigh p).symm)
  exact runSeq_jmpInd (i := .jmp (.ind p)) rfl rfl hr hr'

/-! ## Subroutines (R271, R272, R275) -/

/-- Settles O38: JSR runs with the high byte as its T6 fetches it, after its two pushes. -/
theorem jsrPushesTheAddressOfItsLastByte : Obligations.JsrPushesTheAddressOfItsLastByte := by
  intro t s r high
  have run := runSeq_jsr (i := .jsr (word (jsrHighByte t s) (lo t))) rfl rfl s
  rw [hi_word, lo_word] at run
  refine ⟨_, run, ?state, ?high, ?low, fun a h h' => ?frame⟩
  case state => exact congrArg (atBoundary _ _) (pushed_pushed_eq ..)
  all_goals rw [ramRead_atBoundary, ramRead_pushed_pushed]
  case high => rw [if_neg (stackAddr_ne_of_pushes s.sp).1, if_pos rfl]
  case low => exact if_pos rfl
  case frame => rw [if_neg h', if_neg h]

/-- Settles O39: RTS pulls its word at SP + 1 and SP + 2. -/
theorem rtsReturnsAfterThePulledAddress : Obligations.RtsReturnsAfterThePulledAddress := by
  intro s low high hr hr'
  exact runSeq_rts (i := .rts) rfl hr hr'

/-- Settles O40: the two bytes that JSR pushed are the ones RTS pulls, and they make `q + 2`. -/
theorem rtsReturnsToTheJsr : Obligations.RtsReturnsToTheJsr := by
  intro t s u w hu hsp hhigh hlow hr hr'
  obtain ⟨u', hu', hstate, hpushedHigh, hpushedLow, -⟩ := jsrPushesTheAddressOfItsLastByte t s
  obtain rfl : u = u' := Host.Outcome.next.inj (hu.symm.trans hu')
  have sp : w.sp = s.sp - 2 := by rw [hsp, hstate]
  have sp1 : w.sp + 1 = s.sp - 1 := by rw [sp]; bv_omega
  have sp2 : w.sp + 2 = s.sp := by rw [sp]; bv_omega
  have pulled : word (ramRead w (stackAddr (w.sp + 2))) (ramRead w (stackAddr (w.sp + 1))) = s.pc + 2 := by
    rw [sp1, sp2, hhigh, hlow, hpushedHigh, hpushedLow, word_hi_lo]
  obtain ⟨-, -, -, h, -, -, run⟩ := rtsReturnsAfterThePulledAddress w hr (pulled ▸ hr')
  refine ⟨sp, _, run, ?pc, sp2⟩
  case pc =>
    change word _ _ + 1 = _
    rw [pulled]
    bv_omega

/-! ## BRK and RTI (R273, R274) -/

/-- BRK, with the vector's bytes as they stood before its pushes. -/
theorem exec_brk (pad : Byte) (s : State) :
    exec (.brk pad) s = .next (atBoundary (word (vectorByte s vectorHigh) (vectorByte s vectorLow))
      (.read vectorHigh (vectorByte s vectorHigh) :: .read vectorLow (vectorByte s vectorLow)
        :: (interruptWrites (s.pc + 2) s.p.pushedByProgram s ++ .read (s.pc + 1) pad :: .read s.pc 0x00 :: s.history))
      (interrupted (s.pc + 2) s.p.pushedByProgram s)) := by
  obtain ⟨low, high, g, h, hlow, hhigh, run⟩ := runSeq_brk (i := .brk pad) rfl rfl s
  obtain rfl := (hlow.eq_vectorByte (by decide)).trans (vectorByte_interrupted (by decide) _ _)
  obtain rfl := (hhigh.eq_vectorByte (by decide)).trans (vectorByte_interrupted (by decide) _ _)
  obtain rfl := hlow.2
  obtain rfl := hhigh.2
  exact run

/-- Settles O41: the three pushed bytes lie at three addresses, and the vector is outside the stack page. -/
theorem brkTakesTheInterruptVector : Obligations.BrkTakesTheInterruptVector := by
  intro pad s r low high
  obtain ⟨h₁, h₂, h₃⟩ := stackAddr_ne_of_pushes s.sp
  refine ⟨_, exec_brk pad s, ?state, ?high, ?low, ?status, fun a h h' h'' => ?frame⟩
  case state => exact congrArg (atBoundary _ _) (interrupted_eq ..)
  all_goals rw [ramRead_atBoundary, ramRead_interrupted]
  case high => rw [if_neg h₂, if_neg h₁, if_pos rfl]
  case low => rw [if_neg h₃, if_pos rfl]
  case status => exact if_pos rfl
  case frame => rw [if_neg h'', if_neg h', if_neg h]

/-- Settles O43: RTI pulls the status at SP + 1 and PC at SP + 2 and SP + 3. -/
theorem rtiPullsStatusAndPc : Obligations.RtiPullsStatusAndPc := by
  intro s status low high hr
  exact runSeq_rti (i := .rti) rfl hr

end Sys2Proof.Machine
end

section
/-! Stack, flag and no-operation instructions (spec/45_stack_flags_nop.md): a push and a pull from their operation, and
the instructions of the family. -/

namespace Sys2Proof.Machine

/-! ## Pushes and pulls (R290 to R293) -/

section
variable {i : Instr} {opc : Byte} {s : State} (hread : readable s (s.pc + 1) = true)
include hread

/-- A push, when the byte it stores does not depend on PC, the record, or the phase. -/
theorem exec_push_of_operation (val : State → Byte) (hw : WellFormed i := by rfl) (ho : opcodeByte i = opc := by rfl)
    (hr : exec i s = runSeq i .push (.push val) s := by rfl)
    (hmid : ∀ pc h fl, val (mid s pc h fl) = val s := by exact fun _ _ _ => rfl) :
    ∃ v h, ReadsAt s (s.pc + 1) v (.read s.pc opc :: s.history) h
      ∧ exec i s = .next (atBoundary (s.pc + 1) (.write (stackAddr s.sp) (val s) (s.pc + 1) :: h)
          (pushed (val s) s)) := by
  subst ho
  obtain ⟨v, h, fl, hdummy, run⟩ := runSeq_push hw hread val
  exact ⟨v, h, hdummy, by rw [hr, run, hmid, pushByte_mid, finish_mid]⟩

/-- A pull, when its operation on the byte sees neither PC, nor the record, nor the phase. -/
theorem exec_pull_of_operation (op : Byte → State → State) (hw : WellFormed i := by rfl)
    (ho : opcodeByte i = opc := by rfl) (hr : exec i s = runSeq i .pull (.pull op) s := by rfl)
    (hmid : ∀ v t pc h fl, op v (mid t pc h fl) = mid (op v t) pc h fl := by exact fun _ _ _ _ _ => rfl) :
    ∃ v h, ReadsAt s (s.pc + 1) v (.read s.pc opc :: s.history) h
      ∧ exec i s = .next (atBoundary (s.pc + 1)
          (ramCycle s (stackAddr (s.sp + 1)) :: ramCycle s (stackAddr s.sp) :: h)
          (op (ramRead s (stackAddr (s.sp + 1))) (bumpSp s))) := by
  subst ho
  obtain ⟨v, h, fl, hdummy, run⟩ := runSeq_pull hw hread op
  exact ⟨v, h, hdummy, by rw [hr, run, hmid, finish_mid]⟩

end

/-- Settles O46: a push ends in the state `pushed`, which differs from the old one at the stack slot and in SP; a pull
ends in its operation on the byte above, with SP raised. -/
theorem pushesAndPullsUseTheStackPage : Obligations.PushesAndPullsUseTheStackPage := by
  refine ⟨?push, ?pull⟩
  case push =>
    intro i opc val s hi hread
    have run : ∃ v h, ReadsAt s (s.pc + 1) v (.read s.pc opc :: s.history) h
        ∧ exec i s = .next (atBoundary (s.pc + 1) (.write (stackAddr s.sp) val (s.pc + 1) :: h) (pushed val s)) := by
      obtain ⟨rfl, rfl, rfl⟩ | ⟨rfl, rfl, rfl⟩ := hi
      · exact exec_push_of_operation hread valPha
      · exact exec_push_of_operation hread valPhp
    obtain ⟨v, h, hdummy, run⟩ := run
    refine ⟨_, v, h, run, hdummy, ?state, ?slot, fun a ha => ?frame⟩
    case state => exact congrArg (atBoundary _ _) (pushed_eq ..)
    all_goals rw [ramRead_atBoundary, ramRead_pushed]
    case slot => exact if_pos rfl
    case frame => exact if_neg ha
  case pull =>
    intro i opc s val after hi hread
    obtain ⟨rfl, rfl⟩ | ⟨rfl, rfl⟩ := hi
    · exact exec_pull_of_operation hread opPla
    · exact exec_pull_of_operation hread opPlp

/-! ## Flags and NOP (R294 to R301) -/

/-- Settles O47: each instruction runs the internal sequence, and its operation is one assignment of P, or none. -/
theorem flagInstructionsWriteOneFlag : Obligations.FlagInstructionsWriteOneFlag := by
  refine ⟨?clc, ?sec, ?cli, ?sei, ?cld, ?sed, ?clv, ?nop⟩
  case clc => exact internalForm_of_operation opClc fun _ => rfl
  case sec => exact internalForm_of_operation opSec fun _ => rfl
  case cli => exact internalForm_of_operation opCli fun _ => rfl
  case sei => exact internalForm_of_operation opSei fun _ => rfl
  case cld => exact internalForm_of_operation opCld fun _ => rfl
  case sed => exact internalForm_of_operation opSed fun _ => rfl
  case clv => exact internalForm_of_operation opClv fun _ => rfl
  case nop => exact internalForm_of_operation opNop fun _ => rfl

end Sys2Proof.Machine
end

section
/-! The unofficial instructions under the three policies, and the illegal opcodes (spec/46_unofficial_illegal.md). -/

namespace Sys2Proof.Machine

/-! ## Two operations in one instruction (R313 to R320) -/

/-- Under `implement` an unofficial instruction runs its own sequence. -/
theorem exec_of_implement {i : Instr} {s : State} (hu : classOf i.mnem = .unofficial)
    (hp : s.params.unofficialPolicy = .implement) : exec i s = runSeq i (instrSeq i) (operationOf i) s := by
  rw [exec_unofficial hu, runUnofficial_implement hp, runInstr]

/-- An unofficial read-modify-write mnemonic over all its forms, when `op` writes no more of the state than A and P, and
what it writes depends only on A, P and the parameters. The premises about the mnemonic hold by definition, so that a
use names the mnemonic, its operation, and what the operation does. -/
theorem rmwForms_of_implement {k : Operand → Instr} {f : Byte → State → Byte × Byte × Flags} (n : Mnem)
    (op : Byte → State → Byte × State) (hf : ∀ v s, op v s = ((f v s).1, setAP (f v s).2.1 (f v s).2.2 s))
    (hsame : ∀ v s t, t.a = s.a → t.p = s.p → t.params = s.params → f v t = f v s := by
      intro v s t ha hp hq; simp only [ha, hp, hq])
    (hk : MakesTermsOf k n := by exact fun _ => ⟨rfl, rfl, rfl⟩) (hl : MemoryFormsOf n n.opcodes := by decide)
    (hu : ∀ m, classOf (k m).mnem = .unofficial := by exact fun _ => rfl)
    (hr : ∀ m s, runSeq (k m) (instrSeq (k m)) (operationOf (k m)) s = runSeq (k m) (.rmw m.mode) (.rmw op) s := by
      exact fun _ _ => rfl) :
    RmwForms k n.opcodes (fun s => s.params.unofficialPolicy = .implement) f :=
  rmwForms_opcodes n hk hl (fun m s _ hs => (exec_of_implement (hu m) hs).trans (hr m s))
    fun v s t ha hp hq _ => by rw [hf, hsame v s t ha hp hq]

/-- Settles O48: under `implement` each instruction runs its own sequence, and its operation is the shift, rotate or
count followed by the operation on A. -/
theorem unofficialInstructionsCombineTwoOperations : Obligations.UnofficialInstructionsCombineTwoOperations := by
  refine ⟨?slo, ?rla, ?sre, ?rra, ?sax, ?lax, ?dcp, ?isc⟩
  case slo => exact rmwForms_of_implement .slo opSlo fun _ _ => rfl
  case rla => exact rmwForms_of_implement .rla opRla fun v s => by simp only [opRla, thenOp, onByte, rolFlags_eq]; rfl
  case sre => exact rmwForms_of_implement .sre opSre fun _ _ => rfl
  case rra =>
    -- ADC overwrites the N and Z of the rotate, and reads its C.
    exact rmwForms_of_implement .rra opRra fun v s => by simp only [opRra, thenOp, onByte, rorFlags_eq]; rfl
  case sax =>
    exact storeForms_opcodes (n := .sax) (op := valSax) (fun _ => ⟨rfl, rfl, rfl⟩) rfl rfl
      (fun _ _ => exec_of_implement rfl) fun _ _ _ _ => rfl
  case lax =>
    exact readForms_opcodes (n := .lax) (op := opLax) (fun _ => ⟨rfl, rfl, rfl⟩) rfl
      (fun _ _ => exec_of_implement rfl) fun _ _ _ _ _ _ => rfl
  case dcp => exact rmwForms_of_implement .dcp opDcp fun v s => by simp only [opDcp, opCmp, compareFlags_eq]; rfl
  case isc => exact rmwForms_of_implement .isc opIsc fun _ _ => rfl

/-! ## The rows of the unofficial set (R113, R156) -/

/-- The row makes the terms of the mnemonic `n`, and lists its opcodes, each with the cycle count of its sequence. For a
row that is written out each field holds by definition. -/
structure IsRowOf (row : (Operand → Instr) × List (Mode × Byte × Nat)) (n : Mnem) : Prop where
  unofficial : classOf n = .unofficial := by rfl
  terms : MakesTermsOf row.1 n := by exact fun _ => ⟨rfl, rfl, rfl⟩
  mnem : ∀ m, (row.1 m).mnem = n := by exact fun _ => rfl
  mode : ∀ m, (row.1 m).mode = m.mode := by exact fun _ => rfl
  entries : row.2 = n.opcodes.map fun e => (e.1, e.2, (seqOf n e.1).baseCycles) := by rfl

theorem exists_isRowOf : ∀ row ∈ unofficialTable, ∃ n, IsRowOf row n := by
  simp only [unofficialTable, List.forall_mem_cons]
  exact ⟨⟨.slo, {}⟩, ⟨.rla, {}⟩, ⟨.sre, {}⟩, ⟨.rra, {}⟩, ⟨.sax, {}⟩, ⟨.lax, {}⟩, ⟨.dcp, {}⟩, ⟨.isc, {}⟩, nofun⟩

/-- The forms of an unofficial mnemonic have an address, and their sequences are longer than their bytes. -/
theorem unofficial_forms {n : Mnem} (hu : classOf n = .unofficial) :
    ∀ e ∈ n.opcodes, (e.1 ≠ .acc ∧ e.1 ≠ .imm)
      ∧ e.1.length < (seqOf n e.1).baseCycles ∧ (seqOf n e.1).baseCycles ≤ longestSequence + 1 := by
  revert hu
  cases n <;> decide

/-- The opcode map reads each byte of a mnemonic's list back. -/
theorem opcodeRow_of_mem_opcodes {n : Mnem} : ∀ e ∈ n.opcodes, opcodeRow e.2 = (n, e.1) := by
  cases n <;> decide

section
variable {row : (Operand → Instr) × List (Mode × Byte × Nat)} {n : Mnem} (hn : IsRowOf row n)
  {m : Operand} {opc : Byte} {cycles : Nat}
include hn

theorem IsRowOf.classOf_mnem (m : Operand) : classOf (row.1 m).mnem = .unofficial := by
  rw [hn.mnem, hn.unofficial]

theorem IsRowOf.mem_opcodes (h : (m.mode, opc, cycles) ∈ row.2) :
    (m.mode, opc) ∈ n.opcodes ∧ cycles = (seqOf n m.mode).baseCycles := by
  rw [hn.entries] at h
  obtain ⟨⟨mode, b⟩, he, heq⟩ := List.mem_map.1 h
  obtain ⟨rfl, rfl, rfl⟩ := by simpa only [Prod.mk.injEq] using heq
  exact ⟨he, rfl⟩

end

/-! ## `nop_with_cycles` (R155, R312) -/

/-- Settles O49: the policy selects the sequence of idle cycles, whose length the row lists. -/
theorem nopWithCyclesOnlyFetchesAndIdles : Obligations.NopWithCyclesOnlyFetchesAndIdles := by
  intro row hrow m opc cycles s hmem hp
  obtain ⟨n, hn⟩ := exists_isRowOf row hrow
  obtain ⟨he, rfl⟩ := hn.mem_opcodes hmem
  obtain ⟨hw, rfl, hb⟩ := formOk_of_mem_opcodes hn.terms he
  obtain ⟨haddr, hcycles⟩ := unofficial_forms hn.unofficial _ he
  rw [exec_unofficial (hn.classOf_mnem m), runUnofficial_nop hp, nopSeq, instrSeq, hn.mnem, hn.mode]
  exact runSeq_nop hw hb (hasAddress_of_mode haddr) _ hcycles s

/-! ## Fetches that halt the core (R132, R311, R321) -/

theorem assemble_mnem (k : Mnem) (m : Mode) (opc b2 b3 : Byte) : (assemble k m opc b2 b3).mnem = k := by
  cases k <;> rfl

/-- The opcode map and the opcode lists of the instructions agree. -/
theorem opcode_instrOf : ∀ opc : Byte, (instrOf opc 0 0).opcode = some opc := by decide +kernel

theorem opcodeByte_instrOf (opc : Byte) : opcodeByte (instrOf opc 0 0) = opc := by
  rw [opcodeByte, opcode_instrOf, Option.getD_some]

theorem instrOf_of_illegal {opc : Byte} (hc : classOf (opcodeRow opc).1 = .illegal) (b2 b3 : Byte) :
    instrOf opc b2 b3 = .illegal opc := by
  rw [instrOf]
  generalize (opcodeRow opc).1 = k at hc ⊢
  cases k with
  | illegal => rfl
  | _ => cases hc

section
variable {s : State} {opc : Byte}

theorem fetchHalt_of_illegal (hc : classOf (opcodeRow opc).1 = .illegal) :
    fetchHalt s opc = .fatalHalt s.pc opc := by
  simp only [fetchHalt, hc]

theorem fetchHalt_of_error (hc : classOf (opcodeRow opc).1 = .unofficial)
    (hp : s.params.unofficialPolicy = .error) : fetchHalt s opc = .unimplementedOpcode s.pc opc := by
  simp only [fetchHalt, hc, hp, if_true]

theorem exec_of_illegal (hc : classOf (opcodeRow opc).1 = .illegal) :
    exec (.illegal opc) s = .next (haltAt (.fatalHalt s.pc opc) opc s) := by
  have ho := opcode_instrOf opc
  rw [instrOf_of_illegal hc] at ho
  exact exec_illegal (wellFormed_of_opcode ho) s

theorem exec_of_error {i : Instr} (hw : WellFormed i) (hu : classOf i.mnem = .unofficial)
    (hp : s.params.unofficialPolicy = .error) :
    exec i s = .next (haltAt (.unimplementedOpcode s.pc (opcodeByte i)) (opcodeByte i) s) := by
  rw [exec_unofficial hu, runUnofficial_error hw hp]

/-- The instruction of a halting opcode does no more than its fetch. -/
theorem exec_of_fetchHalt (h : fetchHalt s opc ≠ .none) :
    exec (instrOf opc 0 0) s = .next (haltAt (fetchHalt s opc) opc s) := by
  cases hc : classOf (opcodeRow opc).1 with
  | documented => exact absurd (by simp only [fetchHalt, hc]) h
  | unofficial =>
    have hp : s.params.unofficialPolicy = .error := by
      by_contra hp
      exact h (by simp only [fetchHalt, hc, hp, if_false])
    rw [exec_of_error (wellFormed_of_opcode (opcode_instrOf opc)) ((congrArg classOf (assemble_mnem ..)).trans hc) hp,
      opcodeByte_instrOf, fetchHalt_of_error hc hp]
  | illegal => rw [instrOf_of_illegal hc, exec_of_illegal hc, fetchHalt_of_illegal hc]

/-- A fetch that halts the core is the whole of the call and of the step. -/
theorem halts_at_fetch {h : Halt} (hf : fetchHalt s opc = h) (hne : h ≠ .none) (hh : s.halt = .none)
    (hp : s.phase = .fetchOpcode) (hq : s.pausePending = false) (hi : (s.irqPending && !s.p.i) = false)
    (hv : busValue s s.pc = .next opc) :
    stepCall s = .next (.halted h, haltAt h opc s) ∧ step s = .next (haltAt h opc s) := by
  subst hf
  constructor
  · rw [stepCall_of_boundary hh hp, fetchOpcodeStep, hq, hi, hv]
    simp only [Bool.false_eq_true, if_false, andThen_next]
  · have fetched : fetchInstr s = .next (instrOf opc 0 0) := by
      rw [fetchInstr, hv, andThen_next, if_pos (.inl hne)]
    calc step s = boundaryStep s := by simp only [step, hh, hp]
      _ = exec (instrOf opc 0 0) s := by
        rw [boundaryStep, hq, hi, fetched]
        simp only [Bool.false_eq_true, if_false, andThen_next]
      _ = .next (haltAt (fetchHalt s opc) opc s) := exec_of_fetchHalt hne

end

/-- Settles O50: the fetch of a row's opcode halts the core, and the instruction is that fetch. -/
theorem errorPolicyHaltsAtTheUnofficialOpcode : Obligations.ErrorPolicyHaltsAtTheUnofficialOpcode := by
  intro row hrow m opc cycles s hmem hp
  obtain ⟨n, hn⟩ := exists_isRowOf row hrow
  obtain ⟨he, -⟩ := hn.mem_opcodes hmem
  have hc : classOf (opcodeRow opc).1 = .unofficial := by rw [opcodeRow_of_mem_opcodes _ he]; exact hn.unofficial
  obtain ⟨hw, rfl, -⟩ := formOk_of_mem_opcodes hn.terms he
  exact ⟨exec_of_error hw (hn.classOf_mnem m) hp, halts_at_fetch (fetchHalt_of_error hc hp) nofun⟩

/-- Settles O51: the fetch of an illegal opcode halts the core, the halted core does nothing, and reset() clears it. -/
theorem illegalOpcodesHaltTheCore : Obligations.IllegalOpcodesHaltTheCore := by
  intro opc s hmem
  have hc : classOf (opcodeRow opc).1 = .illegal := (everyOpcodeIsInOneClass.1 opc).2 hmem
  exact ⟨exec_of_illegal hc, rfl, rfl, halts_at_fetch (fetchHalt_of_illegal hc) nofun⟩

end Sys2Proof.Machine
end

section
/-! One call of the spec's `step()`, in all the ways it can go, and what that says of the halt and of the interrupt
latch (spec/60_exceptions.md R331, R338). -/

namespace Sys2Proof.Machine

/-! ## The ways a call can go (R130, R132, R342) -/

/-- The call fetches or takes an interrupt: the core is running, at a boundary, and not paused. -/
structure Fetching (s : State) : Prop where
  halt : s.halt = .none
  phase : s.phase = .fetchOpcode
  pause : s.pausePending = false

/-- From a state, what one call of the spec's `step()` leaves. -/
inductive CallLeaves (s : State) : State → Prop
  | halted (hh : s.halt ≠ .none) : CallLeaves s s
  | paused (hh : s.halt = .none) (hp : s.phase = .fetchOpcode) (hq : s.pausePending = true) : CallLeaves s s
  | takesIrq (v : Byte) (hf : Fetching s) (hi : (s.irqPending && !s.p.i) = true) (hv : busValue s s.pc = .next v) :
      CallLeaves s
        { record (.read s.pc v) s with
          irqPending := false
          phase := .runMicroSteps { opc := 0x00, seq := .irq, t := 2, latches := {} } }
  | opens (opc : Byte) (hf : Fetching s) (hi : (s.irqPending && !s.p.i) = false) (hv : busValue s s.pc = .next opc)
      (ho : fetchHalt s opc = .none) : CallLeaves s (openInstr opc (fetchSeq s opc) s)
  | halts (opc : Byte) (hf : Fetching s) (hi : (s.irqPending && !s.p.i) = false) (hv : busValue s s.pc = .next opc)
      (ho : fetchHalt s opc ≠ .none) : CallLeaves s (haltAt (fetchHalt s opc) opc s)
  | runs (t : State) (f : InFlight) (hh : s.halt = .none) (hp : s.phase = .runMicroSteps f)
      (h : microStep f s = .next t) : CallLeaves s t

section
variable {s t : State}

theorem fetchOpcodeStep_leaves {r : CallResult × State} (hh : s.halt = .none) (hp : s.phase = .fetchOpcode)
    (h : fetchOpcodeStep s = .next r) : CallLeaves s r.2 := by
  unfold fetchOpcodeStep at h
  split at h
  case isTrue hq =>
    cases h
    exact .paused hh hp hq
  case isFalse hq =>
    have hf : Fetching s := ⟨hh, hp, Bool.eq_false_iff.2 hq⟩
    split at h
    case isTrue hi =>
      obtain ⟨u, hu, e⟩ := andThen_eq_next.1 h
      obtain ⟨v, hv, rfl⟩ := openIrq_eq_next.1 hu
      cases e
      exact .takesIrq v hf hi hv
    case isFalse hi =>
      have hi := Bool.eq_false_iff.2 hi
      obtain ⟨opc, hv, e⟩ := andThen_eq_next.1 h
      split at e
      case h_1 ho =>
        cases e
        exact .opens opc hf hi hv ho
      case h_2 ho =>
        cases e
        exact .halts opc hf hi hv ho

theorem busCycle_leaves (h : busCycle s = .next t) : CallLeaves s t := by
  obtain ⟨r, hr, e⟩ := andThen_eq_next.1 h
  cases e
  by_cases hh : s.halt = .none
  · cases hp : s.phase with
    | fetchOpcode => exact fetchOpcodeStep_leaves hh hp (stepCall_of_boundary hh hp ▸ hr)
    | runMicroSteps f =>
      obtain ⟨u, hu, e⟩ := andThen_eq_next.1 (stepCall_of_inFlight hh hp ▸ hr)
      cases e
      exact .runs u f hh hp hu
  · rw [stepCall_of_halted hh] at hr
    cases hr
    exact .halted hh

theorem microStep_one {f : InFlight} (h : microStep f s = .next t) : OneCycle .bus s t :=
  microCycle_one (operationOf_regsOnly _) h

/-- Loading the ROM images changes nothing but them, and closes their loading. -/
theorem hostAct_loadRoms_frame (kernal : Memory) (basic : Option Memory) (s : State) :
    hostAct (.loadRoms kernal basic) s =
      { s with
        kernalRom := (hostAct (.loadRoms kernal basic) s).kernalRom
        basicRom := (hostAct (.loadRoms kernal basic) s).basicRom
        romsOpen := (hostAct (.loadRoms kernal basic) s).romsOpen } := by
  simp only [hostAct]
  split <;> rfl

/-! ## The halt (R331) -/

theorem busCycle_of_halted (h : s.halt ≠ .none) : busCycle s = .next s := by
  rw [busCycle, stepCall_of_halted h, andThen_next]

theorem step_of_halted (h : s.halt ≠ .none) : step s = .next s := by
  unfold step
  split
  case h_1 hh => exact absurd hh h
  all_goals rfl

end

/-- Settles O11: of the ways a call can go only a halting fetch changes the halt, and of the host actions only
`reset()`. -/
theorem haltIsSetOnlyByAFetch : Obligations.HaltIsSetOnlyByAFetch := by
  refine ⟨fun s t h hne => ?_, fun s h => ⟨stepCall_of_halted h, busCycle_of_halted h, step_of_halted h⟩, fun h s => ?_⟩
  · cases busCycle_leaves h with
    | halts opc hf => exact ⟨hf.halt, hf.phase, rfl, rfl, rfl⟩
    | runs _ f hh hp h => exact absurd (microStep_one h).kept.1.halt hne
    | _ => exact absurd rfl hne
  · cases h with
    | loadRoms kernal basic => rw [hostAct_loadRoms_frame]; rfl
    | _ => rfl

/-! ## The interrupt latch (R338) -/

/-- Settles O12: of the ways a call can go only taking an interrupt clears the latch. -/
theorem interruptLatchIsClearedOnlyByTakingIt : Obligations.InterruptLatchIsClearedOnlyByTakingIt := by
  refine ⟨fun s t h => ?_, fun h s => ?_, fun s => rfl⟩
  · cases busCycle_leaves h with
    | halted hh => simp [hh]
    | paused hh hp hq => simp [hq]
    | takesIrq v hf hi =>
      obtain ⟨-, hi⟩ := Bool.and_eq_true_iff.1 hi
      simp [hf.halt, hf.phase, hf.pause, hi]
    | opens opc hf hi => simpa [hf.halt, hf.phase, hf.pause] using hi
    | halts opc hf hi => simpa [hf.halt, hf.phase, hf.pause] using hi
    | runs _ f hh hp h => simp [(microStep_one h).kept.1.irqPending, hp]
  · cases h with
    | loadRoms kernal basic => rw [hostAct_loadRoms_frame]; rfl
    | _ => rfl

end Sys2Proof.Machine
end

section
/-! Interrupt entry and the return from it (spec/60_exceptions.md R340, R344). -/

namespace Sys2Proof.Machine

/-! ## Interrupt entry (R340) -/

section
variable {s : State}

/-- A request is taken where the next fetch would be. -/
theorem stepCall_of_irq (hh : s.halt = .none) (hp : s.phase = .fetchOpcode) (hq : s.pausePending = false)
    (hirq : s.irqPending = true) (hi : s.p.i = false) :
    stepCall s = andThen (openIrq s) fun t => .next (.ok, t) := by
  rw [stepCall_of_boundary hh hp, fetchOpcodeStep, hq, hirq, hi]
  rfl

theorem step_of_irq (hh : s.halt = .none) (hp : s.phase = .fetchOpcode) (hq : s.pausePending = false)
    (hirq : s.irqPending = true) (hi : s.p.i = false) : step s = takeIrq s := by
  simp only [step, hh, hp, boundaryStep, hq, hirq, hi]
  rfl

/-- IRQ entry, with the vector's bytes as they stood before its pushes. -/
theorem takeIrq_vector (hr : readable s s.pc = true) :
    ∃ v w g h, ReadsAt s s.pc v s.history g ∧ ReadsAt s s.pc w g h
      ∧ takeIrq s = .next (atBoundary (word (vectorByte s vectorHigh) (vectorByte s vectorLow))
          (.read vectorHigh (vectorByte s vectorHigh) :: .read vectorLow (vectorByte s vectorLow)
            :: (interruptWrites s.pc s.p.pushedByIrq s ++ h))
          (interrupted s.pc s.p.pushedByIrq { s with irqPending := false })) := by
  obtain ⟨v, w, g, h, hv, hw, low, high, _, _, hlow, hhigh, run⟩ := takeIrq_eq hr
  obtain rfl := (hlow.eq_vectorByte (by decide)).trans (vectorByte_interrupted (by decide) _ _)
  obtain rfl := (hhigh.eq_vectorByte (by decide)).trans (vectorByte_interrupted (by decide) _ _)
  obtain rfl := hlow.2
  obtain rfl := hhigh.2
  exact ⟨v, w, g, h, hv, hw, run⟩

theorem readable_of_takeIrq {u : State} (h : takeIrq s = .next u) : readable s s.pc = true := by
  obtain ⟨_, ht, -⟩ := andThen_eq_next.1 h
  obtain ⟨_, hv, -⟩ := openIrq_eq_next.1 ht
  exact readable_of_busValue (h := s.history) hv

end

theorem interrupted_sp (pc : Word) (status : Byte) (s : State) : (interrupted pc status s).sp = s.sp - 3 := by
  rw [interrupted_eq]

/-- The three bytes of an interrupt's frame, and the bytes outside it. -/
theorem ramRead_interrupted_frame (pc : Word) (status : Byte) (s : State) :
    ramRead (interrupted pc status s) (stackAddr s.sp) = hi pc
      ∧ ramRead (interrupted pc status s) (stackAddr (s.sp - 1)) = lo pc
      ∧ ramRead (interrupted pc status s) (stackAddr (s.sp - 2)) = status
      ∧ ∀ a, a ≠ stackAddr s.sp → a ≠ stackAddr (s.sp - 1) → a ≠ stackAddr (s.sp - 2) →
          ramRead (interrupted pc status s) a = ramRead s a := by
  obtain ⟨h₁, h₂, h₃⟩ := stackAddr_ne_of_pushes s.sp
  refine ⟨?_, ?_, ?_, fun a h h' h'' => ?_⟩ <;> rw [ramRead_interrupted]
  · rw [if_neg h₂, if_neg h₁, if_pos rfl]
  · rw [if_neg h₃, if_pos rfl]
  · rw [if_pos rfl]
  · rw [if_neg h'', if_neg h', if_neg h]

/-- Settles O42: the step is the interrupt entry, and its three pushes are those of the state `interrupted`. -/
theorem interruptEntryPushesPcAndStatus : Obligations.InterruptEntryPushesPcAndStatus := by
  intro s hh hp hq hirq hi hr low high status
  obtain ⟨v, w, g, h, hv, hw, run⟩ := takeIrq_vector hr
  refine ⟨_, v, w, g, h, (step_of_irq hh hp hq hirq hi).trans run, hv, hw, ?state, ?frame⟩
  case state =>
    rw [hp]
    exact congrArg (atBoundary _ _) (interrupted_eq ..)
  case frame =>
    simp only [ramRead_atBoundary]
    exact ramRead_interrupted_frame s.pc s.p.pushedByIrq { s with irqPending := false }

/-! ## The return (R344) -/

/-- RTI, where the three bytes above SP are an interrupt's frame, gives back the PC and the status that made it. -/
theorem exec_rti_of_interrupted {pc : Word} {status : Byte} {s w : State} (hsp : w.sp = s.sp - 3)
    (hframe : ∀ k : Byte, k.toNat < 3 →
      ramRead w (stackAddr (s.sp - k)) = ramRead (interrupted pc status s) (stackAddr (s.sp - k)))
    (hr : readable w (w.pc + 1) = true) :
    ∃ h, exec .rti w = .next (atBoundary pc h { w with sp := s.sp, p := Flags.fromStack status }) := by
  obtain ⟨hhigh, hlow, hstatus, -⟩ := ramRead_interrupted_frame pc status s
  have sp1 : w.sp + 1 = s.sp - 2 := by rw [hsp]; bv_omega
  have sp2 : w.sp + 2 = s.sp - 1 := by rw [hsp]; bv_omega
  have sp3 : w.sp + 3 = s.sp := by rw [hsp]; bv_omega
  have status_eq : ramRead w (stackAddr (w.sp + 1)) = status := by rw [sp1, hframe 2 (by decide), hstatus]
  have pc_eq : pulledWord 2 w = pc := by
    change word (ramRead w (stackAddr (w.sp + 3))) (ramRead w (stackAddr (w.sp + 2))) = pc
    have hhigh' := hframe 0 (by decide)
    rw [show s.sp - 0 = s.sp from BitVec.sub_zero s.sp, hhigh] at hhigh'
    rw [sp3, sp2, hframe 1 (by decide), hlow, hhigh', word_hi_lo]
  obtain ⟨v, g, -, run⟩ := runSeq_rti (i := .rti) rfl hr
  rw [pc_eq, status_eq, sp3] at run
  exact ⟨_, run⟩

/-- Settles O44: both entries leave the frame that RTI pulls, and bits 4 and 5 of its status byte are not loaded. -/
theorem rtiUndoesAnInterrupt : Obligations.RtiUndoesAnInterrupt := by
  refine ⟨fun s u w hu hsp hframe hr => ?irq, fun pad s u w hu hsp hframe hr => ?brk⟩
  case irq =>
    obtain ⟨_, _, _, _, -, -, run⟩ := takeIrq_vector (readable_of_takeIrq hu)
    cases hu.symm.trans run
    simp only [atBoundary_sp, interrupted_sp, ramRead_atBoundary] at hsp hframe
    obtain ⟨h, hz⟩ := exec_rti_of_interrupted (s := { s with irqPending := false }) hsp hframe hr
    have hp : Flags.fromStack s.p.pushedByIrq = s.p := by rw [s.p.pushedByIrq_eq, Flags.fromStack_toByte]
    rw [hp] at hz
    exact ⟨_, hz, rfl, rfl, rfl, rfl, fun hirq hi hq hh => stepCall_of_irq hh rfl hq hirq hi⟩
  case brk =>
    cases hu.symm.trans (exec_brk pad s)
    simp only [atBoundary_sp, interrupted_sp, ramRead_atBoundary] at hsp hframe
    obtain ⟨h, hz⟩ := exec_rti_of_interrupted hsp hframe hr
    have hp : Flags.fromStack s.p.pushedByProgram = s.p := by
      rw [Flags.pushedByProgram, Flags.fromStack_or_30, Flags.fromStack_toByte]
    exact ⟨_, hz, rfl, hp, rfl⟩

end Sys2Proof.Machine
end

section
/-! The ports of the I/O chips, the serial bus behind CIA2's port A (spec/60_exceptions.md R355 to R380), and the host
actions (R388). -/

namespace Sys2Proof.Machine

/-! ## Port reads (R358) -/

/-- One bit of a port read: the data bit where the direction is output, the external level elsewhere. -/
theorem getLsbD_throughMask (data ext dir : Byte) {k : Nat} (hk : k < 8) :
    ((data &&& dir) ||| (ext &&& ~~~dir)).getLsbD k = if dir.getLsbD k then data.getLsbD k else ext.getLsbD k := by
  simp only [BitVec.getLsbD_or, BitVec.getLsbD_and, BitVec.getLsbD_not, hk, decide_true, Bool.true_and]
  cases dir.getLsbD k <;> simp

/-- The level of the acknowledgement line (R371). -/
theorem ackBit_eq (s : State) :
    ackBit s = if s.params.ackPolarity = .activeLow then !s.serial.ack else s.serial.ack := by
  unfold ackBit
  cases s.params.ackPolarity <;> rfl

/-- A byte with its bit 7 replaced. -/
theorem getLsbD_withBit7 (b : Byte) (line : Bool) {k : Nat} (hk : k < 8) :
    ((b &&& 0x7F) ||| ((BitVec.ofBool line).setWidth 8 <<< 7)).getLsbD k = if k = 7 then line else b.getLsbD k := by
  revert b line
  interval_cases k <;> decide

theorem getLsbD_extA (n : CiaId) (s : State) {k : Nat} (hk : k < 8) :
    (extA n s).getLsbD k
      = if n = .cia2 ∧ k = 7 then ackBit s else (Config.ciaExtA n s.extTime s.history).getLsbD k := by
  cases n with
  | cia1 => simp [extA]
  | cia2 => simp only [extA, getLsbD_withBit7 _ _ hk, true_and]

theorem ciaRead_of_ge_four {off : BitVec 4} (h : 4 ≤ off.toNat) (n : CiaId) (s : State) :
    ciaRead n off s = Config.ciaRead n s.extTime s.history off := by
  have ne : ∀ k : BitVec 4, k.toNat < 4 → off ≠ k := by rintro k hk rfl; omega
  simp only [ciaRead, ne 0 (by decide), ne 1 (by decide), ne 2 (by decide), ne 3 (by decide), if_false]

/-! ## Port writes (R357, R359, R360) -/

theorem CiaPorts.write_eq {off : BitVec 4} (h : off.toNat < 4) (v : Byte) (q : CiaPorts) :
    q.write off v =
      { pra := if off = 0 then v else q.pra, prb := if off = 1 then v else q.prb
        ddra := if off = 2 then v else q.ddra, ddrb := if off = 3 then v else q.ddrb } := by
  have cases4 : off = 0 ∨ off = 1 ∨ off = 2 ∨ off = 3 := by bv_omega
  obtain rfl | rfl | rfl | rfl := cases4 <;> rfl

/-- The output byte becomes the masked data, and the serial bus is notified of its change. -/
theorem updateOutA2_eq (s : State) :
    updateOutA2 s =
      { s with
        outA2 := s.cia2.pra &&& s.cia2.ddra
        serial :=
          if s.cia2.pra &&& s.cia2.ddra = s.outA2 then s.serial
          else s.serial.edgeNotify (s.outA2 ^^^ (s.cia2.pra &&& s.cia2.ddra)) (s.cia2.pra &&& s.cia2.ddra) } := by
  unfold updateOutA2
  split
  case isTrue h => simp only [h, if_true]
  case isFalse h => simp only [h, if_false]

section
variable {off : BitVec 4} (v : Byte) (s : State)

theorem ciaWrite_of_ge_four (h : 4 ≤ off.toNat) (n : CiaId) : ciaWrite n off v s = deliver (.cia n) off.toNat v s :=
  if_neg (by simpa [BitVec.lt_def] using h)

theorem ciaWrite_cia1 (h : off.toNat < 4) : ciaWrite .cia1 off v s = { s with cia1 := s.cia1.write off v } :=
  if_pos (by simpa [BitVec.lt_def] using h)

/-- A write to a register of CIA2 that does not reach port A's pins. -/
theorem ciaWrite_portB (h : off.toNat < 4) (ha : ¬ (off = 0 ∨ off = 2)) :
    ciaWrite .cia2 off v s = { s with cia2 := s.cia2.write off v } := by
  have h4 : off < 4 := by simpa [BitVec.lt_def] using h
  simp only [ciaWrite, h4, ha, and_false, if_true, if_false]
  rfl

theorem ciaWrite_portA (ha : off = 0 ∨ off = 2) :
    ciaWrite .cia2 off v s = updateOutA2 { s with cia2 := s.cia2.write off v } := by
  have h4 : off < 4 := by obtain rfl | rfl := ha <;> decide
  simp only [ciaWrite, h4, ha, and_self, if_true]
  rfl

end

/-- Settles O56: the port register is stored, and on port A of CIA2 the output byte then follows it. -/
theorem portWritesNotifyTheSerialBusOnlyOnAChange : Obligations.PortWritesNotifyTheSerialBusOnlyOnAChange := by
  intro s n off v
  by_cases h : off.toNat < 4
  case neg => exact ⟨fun h' => absurd h' h, fun h' => ciaWrite_of_ge_four v s h' n⟩
  have store := CiaPorts.write_eq h v
  refine ⟨fun _ => ?_, fun h' => absurd h (Nat.not_lt.2 h')⟩
  cases n with
  | cia1 =>
    rw [ciaWrite_cia1 v s h]
    exact ⟨store _, rfl, fun _ => rfl, nofun, rfl, rfl⟩
  | cia2 =>
    by_cases ha : off = 0 ∨ off = 2
    · have hpins : CiaId.cia2 = .cia2 ∧ (off = 0 ∨ off = 2) := ⟨rfl, ha⟩
      rw [if_pos hpins, ciaWrite_portA v s ha, updateOutA2_eq]
      exact ⟨store _, rfl, nofun, fun _ => rfl, rfl, rfl⟩
    · have hpins : ¬ (CiaId.cia2 = .cia2 ∧ (off = 0 ∨ off = 2)) := fun e => ha e.2
      rw [if_neg hpins, ciaWrite_portB v s h ha]
      exact ⟨store _, rfl, nofun, fun _ => rfl, rfl, rfl⟩

/-! ## The acknowledgement line (R371) -/

/-- How one notification can move the serial bus from one state to the next, and the line with it. -/
inductive LineMove : SerialState → Bool → SerialState → Bool → Prop
  | stays (q : SerialState) (line : Bool) : LineMove q line q line
  | attention (line : Bool) : LineMove .idle line .waitCommand true
  | listen (line : Bool) : LineMove .waitCommand line .waitSecondaryAddress false
  | talk (line : Bool) : LineMove .waitCommand line .talk false
  | secondary (line : Bool) : LineMove .waitSecondaryAddress line .eoi false
  | pulse (line : Bool) : LineMove .eoi line .listen line
  | unlisten (line : Bool) : LineMove .listen line .idle false

/-- The line changes on five of the moves, and each of them has its value. -/
theorem LineMove.five_transitions {q q' : SerialState} {line line' : Bool} (h : LineMove q line q' line') :
    (line' ≠ line →
        (q = .idle ∧ q' = .waitCommand) ∨ (q = .waitCommand ∧ q' = .waitSecondaryAddress)
          ∨ (q = .waitCommand ∧ q' = .talk) ∨ (q = .waitSecondaryAddress ∧ q' = .eoi) ∨ (q = .listen ∧ q' = .idle))
      ∧ (q = .idle → q' = .waitCommand → line' = true)
      ∧ (q = .waitCommand → q' = .waitSecondaryAddress ∨ q' = .talk → line' = false)
      ∧ (q = .waitSecondaryAddress → q' = .eoi → line' = false)
      ∧ (q = .listen → q' = .idle → line' = false) := by
  cases h with
  | stays => cases q <;> simp
  | _ => simp

namespace SerialBus

variable (b : SerialBus)

theorem command_lineMove (cmd : Byte) (hb : b.sstate = .waitCommand) :
    LineMove b.sstate b.ack (b.command cmd).sstate (b.command cmd).ack := by
  unfold command
  split_ifs
  · exact hb ▸ .listen _
  · exact hb ▸ .talk _
  · exact .stays _ _

theorem listenByte_lineMove (byte : Byte) (atn : Bool) (hb : b.sstate = .listen) :
    LineMove b.sstate b.ack (b.listenByte byte atn).sstate (b.listenByte byte atn).ack := by
  unfold listenByte
  split_ifs
  · exact hb ▸ .unlisten _
  · exact .stays _ _
  · exact .stays _ _

theorem commandBit_lineMove (bit : Bool) (hb : b.sstate = .waitCommand) :
    LineMove b.sstate b.ack (b.commandBit bit).sstate (b.commandBit bit).ack := by
  unfold commandBit
  dsimp only
  split
  · exact command_lineMove (b.shift bit).clear _ hb
  · exact .stays _ _

theorem secondaryBit_lineMove (bit : Bool) (hb : b.sstate = .waitSecondaryAddress) :
    LineMove b.sstate b.ack (b.secondaryBit bit).sstate (b.secondaryBit bit).ack := by
  unfold secondaryBit
  dsimp only
  split
  · exact hb ▸ .secondary _
  · exact .stays _ _

theorem listenBit_lineMove (bit atn : Bool) (hb : b.sstate = .listen) :
    LineMove b.sstate b.ack (b.listenBit bit atn).sstate (b.listenBit bit atn).ack := by
  unfold listenBit
  dsimp only
  split
  · exact listenByte_lineMove (b.shift bit).clear _ atn hb
  · exact .stays _ _

theorem idleStep_eq (atn clkLow : Bool) :
    b.idleStep atn clkLow =
      if atn = true ∧ clkLow = true then { b with sstate := .waitCommand, nbits := 0, shreg := 0, ack := true }
      else b := by
  simp only [idleStep, Bool.and_eq_true]
  rfl

theorem idleStep_lineMove (atn clkLow : Bool) (hb : b.sstate = .idle) :
    LineMove b.sstate b.ack (b.idleStep atn clkLow).sstate (b.idleStep atn clkLow).ack := by
  rw [idleStep_eq]
  split
  · exact hb ▸ .attention _
  · exact .stays _ _

theorem edgeNotify_lineMove (ch out : Byte) :
    LineMove b.sstate b.ack (b.edgeNotify ch out).sstate (b.edgeNotify ch out).ack := by
  by_cases hidle : b.sstate = .idle
  · rw [edgeNotify_idle b ch out hidle]
    exact idleStep_lineMove b _ _ hidle
  by_cases hr : clkRise ch out = true
  case neg =>
    rw [edgeNotify_noRise b ch out hidle (Bool.eq_false_iff.2 hr)]
    exact .stays _ _
  cases hb : b.sstate with
  | idle => exact absurd hb hidle
  | waitCommand =>
    rw [edgeNotify_waitCommand b ch out hb hr, ← hb]
    exact commandBit_lineMove b _ hb
  | waitSecondaryAddress =>
    rw [edgeNotify_waitSecondary b ch out hb hr, ← hb]
    exact secondaryBit_lineMove b _ hb
  | eoi =>
    rw [edgeNotify_eoi b ch out hb hr]
    exact .pulse _
  | listen =>
    rw [edgeNotify_listen b ch out hb hr, ← hb]
    exact listenBit_lineMove b _ _ hb
  | talk =>
    rw [edgeNotify_talk b ch out hb, ← hb]
    exact .stays _ _

end SerialBus

/-- Settles O55: bit by bit for the two ports, and over the moves of the serial bus for the line. -/
theorem portsPassOutputBitsThroughTheDirectionMask : Obligations.PortsPassOutputBitsThroughTheDirectionMask := by
  refine ⟨fun s n k hk => ⟨?portA, ?portB, rfl, rfl, fun off h => ciaRead_of_ge_four h n s⟩,
    fun b ch out => (b.edgeNotify_lineMove ch out).five_transitions⟩
  case portA =>
    rw [← ackBit_eq, ← getLsbD_extA n s hk]
    exact getLsbD_throughMask _ _ _ hk
  case portB => exact getLsbD_throughMask _ _ _ hk

/-! ## What changes the serial bus (R360, R365) -/

/-- A write keeps the serial bus and the output byte, unless it reaches port A of CIA2 and changes that byte. -/
theorem busStore_serial (a : Word) (v : Byte) (s : State) :
    ((busStore a v s).serial = s.serial ∧ (busStore a v s).outA2 = s.outA2)
      ∨ ((busStore a v s).outA2 ≠ s.outA2 ∧ ∃ off, targetOf s a = .cia .cia2 off ∧ (off = 0 ∨ off = 2)) := by
  cases ht : targetOf s a with
  | cia n off =>
    rw [(busStore_of_cia v ht).1]
    by_cases h : off.toNat < 4
    case neg =>
      rw [ciaWrite_of_ge_four v s (Nat.not_lt.1 h) n]
      exact .inl ⟨rfl, rfl⟩
    cases n with
    | cia1 =>
      rw [ciaWrite_cia1 v s h]
      exact .inl ⟨rfl, rfl⟩
    | cia2 =>
      by_cases ha : off = 0 ∨ off = 2
      case neg =>
        rw [ciaWrite_portB v s h ha]
        exact .inl ⟨rfl, rfl⟩
      rw [ciaWrite_portA v s ha, updateOutA2_eq]
      by_cases hout : (s.cia2.write off v).pra &&& (s.cia2.write off v).ddra = s.outA2
      · exact .inl ⟨if_pos hout, hout⟩
      · exact .inr ⟨hout, off, rfl, ha⟩
  | ram =>
    rw [busStore_ram a v s ht]
    exact .inl ⟨rfl, rfl⟩
  | vic off =>
    rw [busStore_of_vic v ht]
    exact .inl ⟨rfl, rfl⟩
  | basic | kernal | vicGap | charShadow =>
    rw [busStore_discarded v (by simp [ht])]
    exact .inl ⟨rfl, rfl⟩

section
variable {s t : State}

theorem RegsOnly.serial_outA2 (h : RegsOnly s t) : t.serial = s.serial ∧ t.outA2 = s.outA2 := by
  rw [h]
  exact ⟨rfl, rfl⟩

theorem RegsOnly.targetOf (h : RegsOnly s t) (a : Word) : targetOf t a = targetOf s a := by
  rw [h]
  rfl

/-- The cycle writes to port A of CIA2, or to its direction register, and changes the output byte. -/
def WritesPortA (s t : State) : Prop :=
  t.outA2 ≠ s.outA2
    ∧ ∃ a v pc off, t.history = .write a v pc :: s.history ∧ targetOf s a = .cia .cia2 off ∧ (off = 0 ∨ off = 2)

theorem OneCycle.serial {src : Source} (h : OneCycle src s t) :
    (t.serial = s.serial ∧ t.outA2 = s.outA2) ∨ WritesPortA s t := by
  obtain ⟨a, v, -, h⟩ | ⟨a, v, s', hs, ht⟩ | h := h
  · exact .inl h.serial_outA2
  · obtain ⟨serial, outA2⟩ := ht.serial_outA2
    obtain ⟨serial', outA2'⟩ := hs.serial_outA2
    obtain ⟨same, same'⟩ | ⟨hne, off, htarget, hoff⟩ := busStore_serial a v s'
    · exact .inl ⟨serial.trans (same.trans serial'), outA2.trans (same'.trans outA2')⟩
    · refine .inr ⟨fun e => hne (outA2.symm.trans (e.trans outA2'.symm)), a, v, s'.pc, off, ?_,
        hs.targetOf a ▸ htarget, hoff⟩
      rw [ht.history, busWrite_history, hs.history]
  · exact .inl h.serial_outA2

theorem busCycle_serial (h : busCycle s = .next t) :
    (t.serial = s.serial ∧ t.outA2 = s.outA2) ∨ WritesPortA s t := by
  cases busCycle_leaves h with
  | runs _ f hh hp h => exact (microStep_one h).serial
  | _ => exact .inl ⟨rfl, rfl⟩

theorem busCycle_events (h : busCycle s = .next t) : ∃ new, t.serial.events = s.serial.events ++ new := by
  cases busCycle_leaves h with
  | runs _ f hh hp h => exact (microStep_one h).kept.1.events
  | _ => exact ⟨[], (List.append_nil _).symm⟩

end

/-- Settles O57: of the cycles only a write can change the serial bus, and of the host actions only the consumption of
events. -/
theorem serialStateChangesOnlyInAPortAWrite : Obligations.SerialStateChangesOnlyInAPortAWrite := by
  refine ⟨fun s t h hne => ?_, fun s t => busCycle_events, fun h s => ?_⟩
  · exact (busCycle_serial h).resolve_left fun ⟨hserial, hout⟩ => hne.elim (absurd hserial) (absurd hout)
  · cases h with
    | loadRoms kernal basic =>
      rw [hostAct_loadRoms_frame]
      exact ⟨rfl, .inl rfl⟩
    | consumeEvents n => exact ⟨rfl, .inr ⟨n, rfl, rfl⟩⟩
    | _ => exact ⟨rfl, .inl rfl⟩

/-! ## A delivered byte (R369 to R377, R380) -/

namespace SerialBus

variable (b : SerialBus)

theorem command_eq (cmd : Byte) :
    b.command cmd =
      if 0x20 ≤ cmd.toNat ∧ cmd.toNat ≤ 0x3E then
        { b with primary := cmd &&& 0x1F, ack := false, sstate := .waitSecondaryAddress }
      else if 0x40 ≤ cmd.toNat ∧ cmd.toNat ≤ 0x5E then
        { b with primary := cmd &&& 0x1F, ack := false, sstate := .talk }
      else b := by
  simp [command, BitVec.le_def]

theorem listenByte_eq (byte : Byte) (atn : Bool) :
    b.listenByte byte atn =
      if atn = false then { b with queue := b.queue ++ [byte] }
      else if byte = 0x3F then
        { b with
          events := b.events ++ [.openFile b.primary b.secondary b.queue]
          queue := []
          ack := false
          sstate := .idle }
      else b := by
  cases atn <;> rfl

theorem edgeNotify_attention {ch out : Byte} (hb : b.sstate = .idle) (ha : lineAtn out = true)
    (hc : lineClkLow out = true) :
    b.edgeNotify ch out = { b with sstate := .waitCommand, nbits := 0, shreg := 0, ack := true } := by
  rw [edgeNotify_idle b ch out hb, idleStep_eq, if_pos ⟨ha, hc⟩]

end SerialBus

section
variable {b : SerialBus} {byte : Byte} {atn : Bool} {ns : List Notification} (hd : Delivers byte atn ns)
  (h0 : b.nbits = 0) (h1 : b.shreg = 0)
include hd h0 h1

theorem notifyAll_of_command (hb : b.sstate = .waitCommand) : b.notifyAll ns = b.command byte := by
  rw [notifyAll_of_delivers hd (.inl hb) h0 h1, hb]

theorem notifyAll_of_secondary (hb : b.sstate = .waitSecondaryAddress) :
    b.notifyAll ns = { b with secondary := byte, ack := false, sstate := .eoi } := by
  rw [notifyAll_of_delivers hd (.inr (.inl hb)) h0 h1, hb]

theorem notifyAll_of_listen (hb : b.sstate = .listen) : b.notifyAll ns = b.listenByte byte atn := by
  rw [notifyAll_of_delivers hd (.inr (.inr hb)) h0 h1, hb]

end

/-- Settles O58: a delivered byte is acted on as the state says, and each single notification by its own rule. -/
theorem eightRisesDeliverOneByte : Obligations.EightRisesDeliverOneByte := by
  refine ⟨?delivered, ?idle, ?eoi, fun b ns hb => notifyAll_of_talk ns b hb, ?listen⟩
  case delivered =>
    intro b byte atn ns hd h0 h1
    exact ⟨fun hb => (notifyAll_of_command hd h0 h1 hb).trans (b.command_eq byte),
      notifyAll_of_secondary hd h0 h1,
      fun hb => (notifyAll_of_listen hd h0 h1 hb).trans (b.listenByte_eq byte atn)⟩
  case idle =>
    intro b ch out hb
    rw [b.edgeNotify_idle ch out hb, b.idleStep_eq]
  case eoi =>
    intro b ch out hb
    split
    case isTrue hr => exact b.edgeNotify_eoi ch out hb hr
    case isFalse hr => exact b.edgeNotify_noRise ch out (by simp [hb]) (Bool.eq_false_iff.2 hr)
  case listen =>
    intro b ch out byte atn ns hb ha hc hlow hhigh hd
    rw [b.edgeNotify_attention hb ha hc, notifyAll_of_command hd rfl rfl rfl, SerialBus.command_eq,
      if_pos ⟨hlow, hhigh⟩]

/-! ## Host actions (R388) -/

/-- Settles O60: each action is its own assignment, and a raw write is one into the RAM array. -/
theorem hostActionsHaveTheirEffectsOnly : Obligations.HostActionsHaveTheirEffectsOnly := by
  intro s a v on n kernal basic
  exact ⟨rfl, rfl, rfl, rfl, fun hopen => if_pos hopen, rfl, rfl, rfl, fun b => ramRead_ramWrite s a b v, fun _ => rfl⟩

end Sys2Proof.Machine
end

section
/-! An instruction in progress sees neither the interrupt latch nor the pause latch (spec/60_exceptions.md R342): each
cycle of each sequence commutes with a change of the two. -/

namespace Sys2Proof.Machine

/-- The state with other values in the two latches that only the FetchOpcode step examines. -/
def withPending (irq pause : Bool) (s : State) : State := { s with irqPending := irq, pausePending := pause }

/-- The second result is the first with `φ` applied to its value. -/
def MapsBy {α : Type} (φ : α → α) (r r' : Result α) : Prop := r' = andThen r fun v => .next (φ v)

/-- The operation and a change of the two latches commute. -/
def Operation.commutes : Operation → Prop
  | .read g | .pull g => ∀ irq pause v s, g v (withPending irq pause s) = withPending irq pause (g v s)
  | .rmw g => ∀ irq pause v s, g v (withPending irq pause s) = Prod.map id (withPending irq pause) (g v s)
  | .internal g => ∀ irq pause s, g (withPending irq pause s) = withPending irq pause (g s)
  | .write g | .push g => ∀ irq pause s, g (withPending irq pause s) = g s
  | .branch _ | .fixed => True

theorem operationOf_commutes (i : Instr) : (operationOf i).commutes := by
  cases i with
  | asl m | lsr m | rol m | ror m => cases m <;> first | exact fun _ _ _ => rfl | exact fun _ _ _ _ => rfl
  | _ => first | exact True.intro | exact fun _ _ _ => rfl | exact fun _ _ _ _ => rfl

section
variable {irq pause : Bool} {s : State}

/-! ## Writes -/

theorem ciaWrite_withPending (n : CiaId) (off : BitVec 4) (v : Byte) :
    ciaWrite n off v (withPending irq pause s) = withPending irq pause (ciaWrite n off v s) := by
  by_cases h : off.toNat < 4
  case neg =>
    have h := Nat.not_lt.1 h
    rw [ciaWrite_of_ge_four v _ h, ciaWrite_of_ge_four v _ h]
    rfl
  cases n with
  | cia1 =>
    rw [ciaWrite_cia1 v _ h, ciaWrite_cia1 v _ h]
    rfl
  | cia2 =>
    by_cases ha : off = 0 ∨ off = 2
    · rw [ciaWrite_portA v _ ha, ciaWrite_portA v _ ha, updateOutA2_eq, updateOutA2_eq]
      rfl
    · rw [ciaWrite_portB v _ h ha, ciaWrite_portB v _ h ha]
      rfl

theorem busWrite_withPending (a : Word) (v : Byte) :
    busWrite a v (withPending irq pause s) = withPending irq pause (busWrite a v s) := by
  have target : targetOf (withPending irq pause s) a = targetOf s a := rfl
  have store : busStore a v (withPending irq pause s) = withPending irq pause (busStore a v s) := by
    unfold busStore
    rw [target]
    cases targetOf s a with
    | cia n off => exact ciaWrite_withPending n off v
    | _ => rfl
  rw [busWrite, store]
  rfl

theorem pushByte_withPending (v : Byte) :
    pushByte v (withPending irq pause s) = withPending irq pause (pushByte v s) := by
  rw [pushByte_eq, pushByte_eq]
  rfl

/-! ## Reads, and what follows them -/

section
variable {α : Type} {φ : α → α}

theorem mapsBy_ite {c : Prop} [Decidable c] {r₁ r₂ r₁' r₂' : Result α} (h₁ : MapsBy φ r₁ r₁') (h₂ : MapsBy φ r₂ r₂') :
    MapsBy φ (if c then r₁ else r₂) (if c then r₁' else r₂') := by
  split
  · exact h₁
  · exact h₂

theorem mapsBy_read {a : Word} {k k' : Byte × State → Result α}
    (h : ∀ v, MapsBy φ (k (v, record (.read a v) s)) (k' (v, withPending irq pause (record (.read a v) s)))) :
    MapsBy φ (andThen (busRead a s) k) (andThen (busRead a (withPending irq pause s)) k') := by
  have value : busValue (withPending irq pause s) a = busValue s a := rfl
  rw [busRead, busRead, value]
  cases busValue s a with
  | next v => exact h v
  | _ => rfl

theorem mapsBy_dummy {a : Word} {k k' : State → Result α}
    (h : ∀ v, MapsBy φ (k (record (.read a v) s)) (k' (withPending irq pause (record (.read a v) s)))) :
    MapsBy φ (andThen (dummyRead a s) k) (andThen (dummyRead a (withPending irq pause s)) k') := by
  rw [dummyRead, dummyRead, andThen_assoc, andThen_assoc]
  exact mapsBy_read h

theorem mapsBy_fetch {src : Source} {b : OperandByte} {k k' : Byte × State → Result α}
    (h : ∀ v, MapsBy φ (k (v, setPc (s.pc + 1) (record (.read s.pc v) s)))
      (k' (v, withPending irq pause (setPc (s.pc + 1) (record (.read s.pc v) s))))) :
    MapsBy φ (andThen (fetchOperand src b s) k) (andThen (fetchOperand src b (withPending irq pause s)) k') := by
  cases src with
  | bus =>
    simp only [fetchOperand, andThen_assoc]
    exact mapsBy_read h
  | given b2 b3 => cases b <;> exact h _

end

/-! ## The cycles of each sequence -/

variable {src : Source} {f : InFlight}

/-- The cycle `k` and a change of the two latches commute. -/
def Commutes (k : State → Result State) : Prop :=
  ∀ irq pause s, MapsBy (withPending irq pause) (k s) (k (withPending irq pause s))

theorem addressCycle_commutes (m : Mode) (t : Nat) (l : Latches) :
    MapsBy (Prod.map id (withPending irq pause)) (addressCycle src m t l s)
      (addressCycle src m t l (withPending irq pause s)) := by
  unfold addressCycle
  split <;> first
    | exact mapsBy_fetch fun _ => rfl
    | exact mapsBy_dummy fun _ => rfl
    | exact mapsBy_read fun _ => rfl
    | rfl

theorem mapsBy_finish {u u' : State} (h : u' = withPending irq pause u) :
    MapsBy (withPending irq pause) (.next (finish u)) (.next (finish u')) := by
  subst h
  rfl

theorem mapsBy_proceed {l : Latches} {u u' : State} (h : u' = withPending irq pause u) :
    MapsBy (withPending irq pause) (.next (proceed f l u)) (.next (proceed f l u')) := by
  subst h
  rfl

theorem entryCycle_commutes {st : Flags → Byte} : Commutes (entryCycle st f) := by
  intro irq pause s
  unfold entryCycle
  split
  · exact mapsBy_proceed (pushByte_withPending _)
  · exact mapsBy_proceed (pushByte_withPending _)
  · exact mapsBy_proceed (congrArg (fun u => setP { u.p with i := true } u) (pushByte_withPending _))
  · exact mapsBy_read fun _ => rfl
  · exact mapsBy_read fun _ => rfl
  · rfl

theorem stackPreRead_commutes :
    MapsBy (withPending irq pause) (andThen (stackPreRead s) fun u => .next (proceed f f.latches u))
      (andThen (stackPreRead (withPending irq pause s)) fun u => .next (proceed f f.latches u)) := by
  rw [stackPreRead, stackPreRead, andThen_assoc, andThen_assoc]
  exact mapsBy_dummy fun _ => rfl

theorem returnCycle_commutes : Commutes (returnCycle f) := by
  intro irq pause s
  unfold returnCycle
  split
  · exact mapsBy_dummy fun _ => rfl
  · exact stackPreRead_commutes
  · exact mapsBy_read fun _ => rfl
  · exact mapsBy_read fun _ => rfl
  · exact mapsBy_read fun _ => rfl
  · rfl

theorem readAccess_commutes {g : Byte → State → State} (hg : (Operation.read g).commutes) (m : Mode) (k : Nat) :
    Commutes (readAccess g m k f) := by
  intro irq pause s
  have final (a : Word) :
      MapsBy (withPending irq pause) (finalRead g a s) (finalRead g a (withPending irq pause s)) :=
    mapsBy_read fun v => mapsBy_finish (hg irq pause v _)
  unfold readAccess
  split
  · exact final _
  · exact mapsBy_ite (mapsBy_read fun _ => rfl) (final _)
  · exact final _
  · rfl

theorem writeAccess_commutes {g : State → Byte} (hg : (Operation.write g).commutes) (m : Mode) (k : Nat) :
    Commutes (writeAccess g m k f) := by
  intro irq pause s
  have final : busWrite f.latches.ea (g (withPending irq pause s)) (withPending irq pause s)
      = withPending irq pause (busWrite f.latches.ea (g s) s) := by
    rw [hg irq pause s, busWrite_withPending]
  unfold writeAccess
  split
  · exact mapsBy_dummy fun _ => rfl
  · exact mapsBy_finish final
  · exact mapsBy_finish final
  · rfl

theorem rmwAccess_commutes {g : Byte → State → Byte × State} (hg : (Operation.rmw g).commutes) (m : Mode) (k : Nat) :
    Commutes (rmwAccess g m k f) := by
  intro irq pause s
  have read : MapsBy (withPending irq pause) (rmwRead f s) (rmwRead f (withPending irq pause s)) :=
    mapsBy_read fun _ => rfl
  have dummy : MapsBy (withPending irq pause) (.next (rmwDummyWrite f s))
      (.next (rmwDummyWrite f (withPending irq pause s))) := mapsBy_proceed (busWrite_withPending _ _)
  have final : MapsBy (withPending irq pause) (.next (rmwFinalWrite g f s))
      (.next (rmwFinalWrite g f (withPending irq pause s))) := by
    refine mapsBy_finish ?_
    rw [hg irq pause]
    exact busWrite_withPending _ _
  unfold rmwAccess
  split
  · exact mapsBy_dummy fun _ => rfl
  · exact read
  · exact read
  · exact dummy
  · exact dummy
  · exact final
  · exact final
  · rfl

theorem accessCycle_commutes {m : Mode} {access : Nat → InFlight → State → Result State}
    (ha : ∀ k, Commutes (access k f)) : Commutes (accessCycle src m access f) := by
  intro irq pause s
  unfold accessCycle
  refine mapsBy_ite ?_ (ha _ irq pause s)
  rw [addressCycle_commutes (irq := irq) (pause := pause) (s := s) m f.t f.latches]
  cases addressCycle src m f.t f.latches s <;> rfl

theorem immediateCycle_commutes {g : Byte → State → State} (hg : (Operation.read g).commutes) :
    Commutes (immediateCycle src g f) := by
  intro irq pause s
  unfold immediateCycle
  split
  · exact mapsBy_fetch fun v => mapsBy_finish (hg irq pause v _)
  · rfl

theorem internalCycle_commutes {g : State → State} (hg : (Operation.internal g).commutes) :
    Commutes (internalCycle g f) := by
  intro irq pause s
  unfold internalCycle
  split
  · exact mapsBy_dummy fun _ => mapsBy_finish (hg irq pause _)
  · rfl

theorem branchCycle_commutes {g : Flags → Bool} : Commutes (branchCycle src g f) := by
  intro irq pause s
  unfold branchCycle
  split
  · exact mapsBy_fetch fun _ => mapsBy_ite rfl rfl
  · exact mapsBy_dummy fun _ => mapsBy_ite rfl rfl
  · exact mapsBy_dummy fun _ => rfl
  · rfl

theorem jmpAbsCycle_commutes : Commutes (jmpAbsCycle src f) := by
  intro irq pause s
  unfold jmpAbsCycle
  split
  · exact mapsBy_fetch fun _ => rfl
  · exact mapsBy_fetch fun _ => rfl
  · rfl

theorem jmpIndCycle_commutes : Commutes (jmpIndCycle src f) := by
  intro irq pause s
  unfold jmpIndCycle
  split
  · exact mapsBy_fetch fun _ => rfl
  · exact mapsBy_fetch fun _ => rfl
  · exact mapsBy_read fun _ => rfl
  · exact mapsBy_read fun _ => rfl
  · rfl

theorem jsrCycle_commutes : Commutes (jsrCycle src f) := by
  intro irq pause s
  unfold jsrCycle
  split
  · exact mapsBy_fetch fun _ => rfl
  · exact mapsBy_dummy fun _ => rfl
  · exact mapsBy_proceed (pushByte_withPending _)
  · exact mapsBy_proceed (pushByte_withPending _)
  · exact mapsBy_fetch fun _ => rfl
  · rfl

theorem rtsCycle_commutes : Commutes (rtsCycle f) := by
  intro irq pause s
  unfold rtsCycle
  split
  · exact mapsBy_dummy fun _ => rfl
  · exact stackPreRead_commutes
  · exact mapsBy_read fun _ => rfl
  · exact mapsBy_read fun _ => rfl
  · exact mapsBy_dummy fun _ => rfl
  · rfl

theorem pushCycle_commutes {g : State → Byte} (hg : (Operation.push g).commutes) : Commutes (pushCycle g f) := by
  intro irq pause s
  unfold pushCycle
  split
  · exact mapsBy_dummy fun _ => rfl
  · refine mapsBy_finish ?_
    rw [hg irq pause s, pushByte_withPending]
  · rfl

theorem pullCycle_commutes {g : Byte → State → State} (hg : (Operation.pull g).commutes) :
    Commutes (pullCycle g f) := by
  intro irq pause s
  unfold pullCycle
  split
  · exact mapsBy_dummy fun _ => rfl
  · exact stackPreRead_commutes
  · exact mapsBy_read fun v => mapsBy_finish (hg irq pause v _)
  · rfl

theorem brkCycle_commutes : Commutes (brkCycle src f) := by
  intro irq pause s
  unfold brkCycle
  split
  · exact mapsBy_fetch fun _ => rfl
  · exact entryCycle_commutes irq pause s

theorem irqCycle_commutes : Commutes (irqCycle f) := by
  intro irq pause s
  unfold irqCycle
  split
  · exact mapsBy_dummy fun _ => rfl
  · exact entryCycle_commutes irq pause s

theorem nopCycle_commutes (len cycles : Nat) : Commutes (nopCycle src len cycles f) := by
  intro irq pause s
  have until_commutes (u : State) : MapsBy (withPending irq pause) (.next (proceedUntil cycles f u))
      (.next (proceedUntil cycles f (withPending irq pause u))) := by
    unfold proceedUntil
    split <;> rfl
  unfold nopCycle
  refine mapsBy_ite rfl (mapsBy_ite ?_ ?_)
  · exact mapsBy_fetch fun _ => until_commutes _
  · exact until_commutes (record .idle s)

theorem microCycle_commutes {op : Operation} (hop : op.commutes) : Commutes (microCycle src op f) := by
  intro irq pause s
  unfold microCycle
  split
  · exact internalCycle_commutes hop irq pause s
  · exact immediateCycle_commutes hop irq pause s
  · exact accessCycle_commutes (readAccess_commutes hop _) irq pause s
  · exact accessCycle_commutes (writeAccess_commutes hop _) irq pause s
  · exact accessCycle_commutes (rmwAccess_commutes hop _) irq pause s
  · exact branchCycle_commutes irq pause s
  · exact jmpAbsCycle_commutes irq pause s
  · exact jmpIndCycle_commutes irq pause s
  · exact jsrCycle_commutes irq pause s
  · exact rtsCycle_commutes irq pause s
  · exact returnCycle_commutes irq pause s
  · exact pushCycle_commutes hop irq pause s
  · exact pullCycle_commutes hop irq pause s
  · exact brkCycle_commutes irq pause s
  · exact irqCycle_commutes irq pause s
  · exact nopCycle_commutes _ _ irq pause s
  · rfl

end

/-! ## The order at a boundary (R342) -/

theorem stepCall_of_fetch {s : State} {opc : Byte} (hh : s.halt = .none) (hp : s.phase = .fetchOpcode)
    (hq : s.pausePending = false) (hi : (s.irqPending && !s.p.i) = false) (hv : busValue s s.pc = .next opc)
    (hf : fetchHalt s opc = .none) : stepCall s = .next (.ok, openInstr opc (fetchSeq s opc) s) := by
  rw [stepCall_of_boundary hh hp, fetchOpcodeStep, hq, hi, hv]
  simp only [Bool.false_eq_true, if_false, andThen_next, hf]

/-- Within an instruction the call and a change of the two latches commute. -/
theorem stepCall_withPending {s : State} {f : InFlight} (hh : s.halt = .none) (hp : s.phase = .runMicroSteps f)
    (irq pause : Bool) :
    stepCall (withPending irq pause s) = andThen (stepCall s) fun r => .next (r.1, withPending irq pause r.2) := by
  rw [stepCall_of_inFlight hh hp, stepCall_of_inFlight (s := withPending irq pause s) hh hp, microStep, microStep,
    microCycle_commutes (operationOf_commutes _) irq pause s, andThen_assoc, andThen_assoc]
  rfl

/-- Settles O10: at a boundary by the branches of the FetchOpcode step, within an instruction by the cycles of its
sequence, none of which sees the two latches. -/
theorem fetchChecksPauseThenInterruptThenOpcode : Obligations.FetchChecksPauseThenInterruptThenOpcode := by
  intro s
  refine ⟨stepCall_of_halted, fun hh hp hq => ?_, stepCall_of_irq, fun hh hp hq hi opc => stepCall_of_fetch hh hp hq hi,
    fun f irq pause hh hp => stepCall_withPending hh hp irq pause⟩
  rw [stepCall_of_boundary hh hp, fetchOpcodeStep_of_paused hq]

end Sys2Proof.Machine
end

section
/-! Encoding and decoding (spec/30_encoding.md): the opcode map that decodes and the opcode lists that encode are
inverse to each other. -/

namespace Sys2Proof.Machine

/-! ## An instruction's bytes (R101, R115) -/

theorem operandBytes_length (i : Instr) : i.operandBytes.length + 1 = i.mode.length := by
  cases i with
  | lda m | ldx m | ldy m | sta m | stx m | sty m | adc m | sbc m | and m | ora m | eor m | bit m | cmp m | cpx m
  | cpy m | asl m | lsr m | rol m | ror m | inc m | dec m | slo m | rla m | sre m | rra m | sax m | lax m | dcp m
  | isc m => exact Laws.EncodeLength.operand m
  | jmp t => cases t <;> rfl
  | _ => rfl

theorem Mode.length_cases (m : Mode) : m.length = 1 ∨ m.length = 2 ∨ m.length = 3 := by
  cases m <;> decide

/-- The opcode map gives back the row that an instruction's opcode was taken from. -/
theorem opcodeRow_of_opcode {i : Instr} {opc : Byte} (h : i.opcode = some opc) : opcodeRow opc = (i.mnem, i.mode) := by
  have row {k : Mnem} {m : Mode} (h : k.opcodes.lookup m = some opc) : opcodeRow opc = (k, m) := by
    obtain ⟨l₁, l₂, he, -⟩ := List.lookup_eq_some_iff.1 h
    exact opcodeRow_of_mem_opcodes (m, opc) (by simp [he])
  have illegal : ∀ b ∈ illegalOpcodes, opcodeRow b = (.illegal, .none) := by decide
  cases i with
  | illegal b =>
    obtain ⟨hb, h⟩ := Option.ite_none_right_eq_some.1 h
    cases h
    exact illegal opc (List.contains_iff_mem.1 hb)
  | _ => exact row h

theorem operandOf_bytes (m : Operand) : operandOf m.mode (m.bytes.getD 0 0) (m.bytes.getD 1 0) = m := by
  cases m <;> simp [operandOf, Operand.mode, Operand.bytes]

theorem jumpOperandOf_bytes (t : JumpOperand) :
    jumpOperandOf t.mode (t.bytes.getD 0 0) (t.bytes.getD 1 0) = t := by
  cases t <;> simp [jumpOperandOf, JumpOperand.mode, JumpOperand.bytes]

/-- An instruction is assembled from its mnemonic, its mode and its bytes. -/
theorem assemble_of_opcode {i : Instr} {opc : Byte} (h : i.opcode = some opc) :
    assemble i.mnem i.mode opc (i.operandBytes.getD 0 0) (i.operandBytes.getD 1 0) = i := by
  cases i with
  | lda | ldx | ldy | sta | stx | sty | adc | sbc | and | ora | eor | bit | cmp | cpx | cpy | asl | lsr | rol | ror
  | inc | dec | slo | rla | sre | rra | sax | lax | dcp | isc =>
    simp only [assemble, Instr.mnem, Instr.mode, Instr.operandBytes, operandOf_bytes]
  | jmp t => simp only [assemble, Instr.mnem, Instr.mode, Instr.operandBytes, jumpOperandOf_bytes]
  | jsr t => simp [assemble, Instr.mnem, Instr.operandBytes]
  | illegal b =>
    obtain ⟨-, h⟩ := Option.ite_none_right_eq_some.1 h
    cases h
    rfl
  | _ => rfl

theorem instrOf_of_opcode {i : Instr} {opc : Byte} (h : i.opcode = some opc) :
    instrOf opc (i.operandBytes.getD 0 0) (i.operandBytes.getD 1 0) = i := by
  rw [instrOf, opcodeRow_of_opcode h, assemble_of_opcode h]

/-! ## The instruction of an opcode byte (R110, R111) -/

section
variable (opc b2 b3 : Byte)

theorem operandOf_mode (m : Mode) : (operandOf m b2 b3).mode = (operandOf m 0 0).mode := by
  cases m <;> rfl

theorem jumpOperandOf_mode (m : Mode) : (jumpOperandOf m b2 b3).mode = (jumpOperandOf m 0 0).mode := by
  cases m <;> rfl

/-- The operand bytes do not choose the mode. -/
theorem assemble_mode (k : Mnem) (m : Mode) : (assemble k m opc b2 b3).mode = (assemble k m opc 0 0).mode := by
  cases k with
  | lda | ldx | ldy | sta | stx | sty | adc | sbc | and | ora | eor | bit | cmp | cpx | cpy | asl | lsr | rol | ror
  | inc | dec | slo | rla | sre | rra | sax | lax | dcp | isc => exact operandOf_mode b2 b3 m
  | jmp => exact jumpOperandOf_mode b2 b3 m
  | _ => rfl

theorem instrOf_mnem : (instrOf opc b2 b3).mnem = (opcodeRow opc).1 := assemble_mnem ..

/-- The opcode is a function of the mnemonic and the mode, and an illegal opcode is its own. -/
theorem instrOf_opcode : (instrOf opc b2 b3).opcode = some opc := by
  rw [← opcode_instrOf opc, instrOf, instrOf]
  have hmode := assemble_mode opc b2 b3 (opcodeRow opc).1 (opcodeRow opc).2
  generalize (opcodeRow opc).1 = k at hmode ⊢
  cases k with
  | illegal => rfl
  | _ => exact congrArg (List.lookup · _) hmode

theorem instrOf_wellFormed : WellFormed (instrOf opc b2 b3) := wellFormed_of_opcode (instrOf_opcode opc b2 b3)

theorem instrOf_mode : (instrOf opc b2 b3).mode = (opcodeRow opc).2 := by
  rw [opcodeRow_of_opcode (instrOf_opcode opc b2 b3)]

/-- The assembled operand holds as many of the two bytes as its mode has. -/
theorem operandOf_operandBytes (m : Mode) :
    (operandOf m b2 b3).bytes = [b2, b3].take ((operandOf m b2 b3).mode.length - 1) := by
  cases m <;> simp [operandOf, Operand.bytes, Operand.mode, Mode.length]

theorem jumpOperandOf_operandBytes (m : Mode) :
    (jumpOperandOf m b2 b3).bytes = [b2, b3].take ((jumpOperandOf m b2 b3).mode.length - 1) := by
  cases m <;> simp [jumpOperandOf, JumpOperand.bytes, JumpOperand.mode, Mode.length]

theorem assemble_operandBytes (k : Mnem) (m : Mode) :
    (assemble k m opc b2 b3).operandBytes = [b2, b3].take ((assemble k m opc b2 b3).mode.length - 1) := by
  cases k with
  | lda | ldx | ldy | sta | stx | sty | adc | sbc | and | ora | eor | bit | cmp | cpx | cpy | asl | lsr | rol | ror
  | inc | dec | slo | rla | sre | rra | sax | lax | dcp | isc => exact operandOf_operandBytes b2 b3 m
  | jmp => exact jumpOperandOf_operandBytes b2 b3 m
  | jsr => simp [assemble, Instr.operandBytes, Instr.mode, Mode.length]
  | _ => rfl

theorem instrOf_operandBytes : (instrOf opc b2 b3).operandBytes = [b2, b3].take (lengthOf opc - 1) := by
  rw [lengthOf, ← instrOf_mode opc b2 b3, instrOf, assemble_operandBytes]

end

/-! ## The round trip -/

theorem take_getD {bs : List Byte} (h : bs.length ≤ 2) : [bs.getD 0 0, bs.getD 1 0].take bs.length = bs := by
  match bs, h with
  | [], _ => rfl
  | [_], _ => rfl
  | [_, _], _ => rfl

theorem operands_length_le {opc : Byte} {bs : List Byte} (h : bs.length + 1 = lengthOf opc) : bs.length ≤ 2 := by
  have := Mode.length_cases (opcodeRow opc).2
  rw [lengthOf] at h
  omega

/-- Decoding splits the bytes into an opcode, as many operand bytes as it has, and the rest. -/
theorem decode_eq_ok_iff {bytes rest : List Byte} {i : Instr} :
    decode bytes = .ok (i, rest) ↔
      ∃ opc bs, bytes = opc :: (bs ++ rest) ∧ bs.length + 1 = lengthOf opc
        ∧ i = instrOf opc (bs.getD 0 0) (bs.getD 1 0) := by
  constructor
  · intro h
    unfold decode at h
    split at h
    case h_1 => cases h
    case h_2 opc tail =>
      split at h
      case h_1 hl => cases h; exact ⟨opc, [], rfl, hl.symm, rfl⟩
      case h_2 b2 tail hl => cases h; exact ⟨opc, [b2], rfl, hl.symm, rfl⟩
      case h_3 b2 b3 tail hl => cases h; exact ⟨opc, [b2, b3], rfl, hl.symm, rfl⟩
      case h_4 => cases h
  · rintro ⟨opc, bs, rfl, hl, rfl⟩
    match bs, operands_length_le hl with
    | [], _ => simp [decode, ← hl]
    | [_], _ => simp [decode, ← hl]
    | [_, _], _ => simp [decode, ← hl]

/-- Settles O5: the opcode map gives the row of the opcode, and with the operand bytes it assembles the instruction. -/
theorem decodeOfEncodeIsTheInstruction : Obligations.DecodeOfEncodeIsTheInstruction := by
  intro i rest hw
  have ho := opcode_of_wellFormed hw
  refine decode_eq_ok_iff.2 ⟨opcodeByte i, i.operandBytes, by rw [Laws.encode_eq hw, List.cons_append], ?length,
    (instrOf_of_opcode ho).symm⟩
  rw [lengthOf, opcodeRow_of_opcode ho, operandBytes_length]

/-- Settles O6: the instruction of an opcode byte has that opcode and the bytes it was assembled from. -/
theorem encodeOfDecodeIsTheBytes : Obligations.EncodeOfDecodeIsTheBytes := by
  refine ⟨fun bytes rest i h => ?encode, fun b1 b2 b3 rest => ?total⟩
  case encode =>
    obtain ⟨opc, bs, rfl, hl, rfl⟩ := decode_eq_ok_iff.1 h
    refine ⟨instrOf_wellFormed .., ?_⟩
    rw [encode, instrOf_opcode, instrOf_operandBytes, ← hl, Nat.add_sub_cancel, take_getD (operands_length_le hl)]
    rfl
  case total =>
    refine ⟨_, [b2, b3].drop (lengthOf b1 - 1) ++ rest, decode_eq_ok_iff.2
      ⟨b1, [b2, b3].take (lengthOf b1 - 1), ?_, ?_, rfl⟩⟩
    · rw [← List.append_assoc, List.take_append_drop]
      rfl
    · obtain h | h | h := Mode.length_cases (opcodeRow b1).2 <;> simp [lengthOf, h]

/-- Settles O3: each word is decoded by the map. -/
theorem wordsDecodeToTheirInstructions : Obligations.WordsDecodeToTheirInstructions := by
  unfold Obligations.WordsDecodeToTheirInstructions
  and_intros <;> rfl

end Sys2Proof.Machine
end

section
/-! One instruction as a step and as bus cycles: the sequence in progress does not see where its operand bytes come from
once they are fetched, so that fetching an instruction and executing it is running its sequence on the bus. -/

namespace Sys2Proof.Machine

/-! ## An instruction in progress, and its operation -/

/-- The instruction in progress is in a cycle of its sequence, and the operation is one for the sequence. -/
structure InSequence (op : Operation) (f : InFlight) : Prop where
  compatible : compatible f.seq op = true
  begun : 2 ≤ f.t
  within : f.t ≤ lastCycle f.seq

/-- The operation of the opcode in progress. -/
abbrev InFlight.operation (f : InFlight) : Operation := operationOf (instrOf f.opc 0 0)

section
variable {op : Operation} {f : InFlight} {s t : State}

theorem inSequence_of_sound (h : f.sound = true) : InSequence f.operation f := by
  simp only [InFlight.sound, Bool.and_eq_true, decide_eq_true_eq] at h
  obtain ⟨⟨fits, begun⟩, within⟩ := h
  exact ⟨compatible_of_fits fits, begun, within⟩

/-- The next cycle of a sequence that has one is in the sequence too. -/
theorem InSequence.next (h : InSequence op f) (hl : f.t < lastCycle f.seq) (l : Latches) :
    InSequence op { f with t := f.t + 1, latches := l } :=
  ⟨h.compatible, Nat.le_succ_of_le h.begun, hl⟩

theorem InSequence.progress (h : InSequence op f) (src : Source) (s : State) : Progress s f (microCycle src op f s) :=
  microCycle_progress h.compatible h.begun h.within s

theorem runCycles_inFlight (src : Source) (op : Operation) (n : Nat) (hp : s.phase = .runMicroSteps f) :
    runCycles src op (n + 1) s = andThen (microCycle src op f s) (runCycles src op n) := by
  simp only [runCycles, hp]

/-- What follows a cycle of a sequence may be replaced by what does the same at a boundary and in the next cycle of that
sequence. -/
theorem InSequence.andThen_congr {α : Type} {src : Source} {k k' : State → Result α} (h : InSequence op f)
    (boundary : ∀ t, microCycle src op f s = .next t → t.phase = .fetchOpcode → k t = k' t)
    (next : ∀ t l, microCycle src op f s = .next t → InSequence op { f with t := f.t + 1, latches := l } →
      t.phase = .runMicroSteps { f with t := f.t + 1, latches := l } → k t = k' t) :
    andThen (microCycle src op f s) k = andThen (microCycle src op f s) k' := by
  obtain ⟨t, e, hp | ⟨hl, l, hp⟩⟩ | ⟨e, -⟩ := h.progress src s
  · rw [e]; exact boundary t e hp
  · rw [e]; exact next t l e (h.next hl l) hp
  · rw [e]; rfl

end

/-! ## How many bytes a sequence fetches -/

/-- How many bytes of the instruction a sequence fetches, the opcode included. -/
def Seq.length : Seq → Nat
  | .read m | .write m | .rmw m => m.length
  | .branch | .brk => 2
  | .jmpAbs | .jmpInd | .jsr => 3
  | .nop len _ => len
  | .internal | .rts | .rti | .push | .pull | .irq => 1

section
variable {src src' : Source} {op : Operation} {opc : Byte} {q : Seq} {f : InFlight} {s : State}

theorem addressCycle_source {m : Mode} {t : Nat} (h : m.length < t) (src src' : Source) (l : Latches) (s : State) :
    addressCycle src m t l s = addressCycle src' m t l s := by
  unfold addressCycle
  split <;> first | rfl | (simp only [Mode.length] at h; omega)

theorem accessCycle_source {m : Mode} (h : m.length < f.t) (src src' : Source)
    (access : Nat → InFlight → State → Result State) (s : State) :
    accessCycle src m access f s = accessCycle src' m access f s := by
  simp only [accessCycle, addressCycle_source h src src']

/-- Past as many cycles as it has bytes, a sequence fetches no more; only JSR leaves its last byte to a later cycle. -/
theorem microCycle_source (hj : f.seq ≠ .jsr) (h : f.seq.length < f.t) (src src' : Source) (op : Operation) (s : State) :
    microCycle src op f s = microCycle src' op f s := by
  have past (n : Nat) (hn : f.t = n) : f.seq.length < n := hn ▸ h
  unfold microCycle
  split <;> simp only [Seq.length, Mode.length, *] at h hj past
  case h_2 =>
    unfold immediateCycle
    split
    case h_1 ht => exact absurd (past 2 ht) (by decide)
    case h_2 => rfl
  case h_3 | h_4 | h_5 => exact accessCycle_source h ..
  case h_6 =>
    unfold branchCycle
    split
    case h_1 ht => exact absurd (past 2 ht) (by decide)
    all_goals rfl
  case h_7 =>
    unfold jmpAbsCycle
    split
    case h_1 ht => exact absurd (past 2 ht) (by decide)
    case h_2 ht => exact absurd (past 3 ht) (by decide)
    case h_3 => rfl
  case h_8 =>
    unfold jmpIndCycle
    split
    case h_1 ht => exact absurd (past 2 ht) (by decide)
    case h_2 ht => exact absurd (past 3 ht) (by decide)
    all_goals rfl
  case h_9 => exact absurd rfl hj
  case h_14 =>
    unfold brkCycle
    split
    case h_1 ht => exact absurd (past 2 ht) (by decide)
    case h_2 => rfl
  case h_16 => simp only [nopCycle, Nat.not_le.2 h, if_false]
  all_goals rfl

/-- So from there on a run on the bus is a run on any bytes. -/
theorem runCycles_source (src src' : Source) (n : Nat) : ∀ {s : State} {f : InFlight}, s.phase = .runMicroSteps f →
    InSequence op f → f.seq ≠ .jsr → f.seq.length < f.t → runCycles src op n s = runCycles src' op n s := by
  induction n with
  | zero => intros; rfl
  | succ n ih =>
    intro s f hp hf hj hl
    rw [runCycles_inFlight src op n hp, runCycles_inFlight src' op n hp, microCycle_source hj hl src src']
    refine hf.andThen_congr (fun t _ ht => ?_) fun t l _ hf' ht => ih ht hf' hj (Nat.lt_succ_of_lt hl)
    rw [runCycles_boundary src op n ht, runCycles_boundary src' op n ht]

/-- The same after the cycle that fetches the last byte. -/
theorem runCycles_source_after (src₀ src src' : Source) (n : Nat) (hf : InSequence op f) (hj : f.seq ≠ .jsr)
    (hl : f.seq.length ≤ f.t) :
    andThen (microCycle src₀ op f s) (runCycles src op n) = andThen (microCycle src₀ op f s) (runCycles src' op n) := by
  refine hf.andThen_congr (fun t _ ht => ?_) fun t l _ hf' ht =>
    runCycles_source src src' n ht hf' hj (Nat.lt_succ_of_le hl)
  rw [runCycles_boundary src op n ht, runCycles_boundary src' op n ht]

/-! ## The cycles that fetch -/

/-- The sequence reaches its operand through a mode that has an effective address. -/
def Addressed (q : Seq) (op : Operation) (m : Mode) : Prop :=
  (q = .read m ∧ m ≠ .imm ∧ ∃ g, op = .read g) ∨ (q = .write m ∧ ∃ g, op = .write g) ∨ (q = .rmw m ∧ ∃ g, op = .rmw g)

theorem Addressed.length {m : Mode} (h : Addressed q op m) : q.length = m.length := by
  obtain ⟨rfl, -⟩ | ⟨rfl, -⟩ | ⟨rfl, -⟩ := h <;> rfl

theorem addressed_of_compatible (hc : compatible q op = true) :
    (∃ m, addressMode m = true ∧ Addressed q op m) ∨ (q = .read .imm ∧ ∃ g, op = .read g)
      ∨ ∀ m, q ≠ .read m ∧ q ≠ .write m ∧ q ≠ .rmw m := by
  cases q with
  | read m =>
    cases op with
    | read g =>
      simp only [compatible, Bool.or_eq_true, decide_eq_true_eq] at hc
      obtain hm | rfl := hc
      · have himm : m ≠ .imm := by rintro rfl; cases hm
        exact .inl ⟨m, hm, .inl ⟨rfl, himm, g, rfl⟩⟩
      · exact .inr (.inl ⟨rfl, g, rfl⟩)
    | _ => cases hc
  | write m =>
    cases op with
    | write g => exact .inl ⟨m, hc, .inr (.inl ⟨rfl, g, rfl⟩)⟩
    | _ => cases hc
  | rmw m =>
    cases op with
    | rmw g => exact .inl ⟨m, hc, .inr (.inr ⟨rfl, g, rfl⟩)⟩
    | _ => cases hc
  | _ => exact .inr (.inr fun m => ⟨nofun, nofun, nofun⟩)

/-- The cycle is the fetch of an operand byte, and then the sequence goes on with a latch of it. -/
def GoesOnWith (op : Operation) (f : InFlight) (k : OperandByte) : Prop :=
  ∃ l : Byte → Latches, ∀ src s,
    microCycle src op f s = andThen (fetchOperand src k s) fun r => .next (proceed f (l r.1) r.2)

/-- The cycle is the fetch of an operand byte, and what it does with the byte does not see the source. -/
def FetchesThen (op : Operation) (f : InFlight) (k : OperandByte) : Prop :=
  ∃ next, ∀ src s, microCycle src op f s = andThen (fetchOperand src k s) next

theorem GoesOnWith.fetchesThen {k : OperandByte} (h : GoesOnWith op f k) : FetchesThen op f k := by
  obtain ⟨l, h⟩ := h
  exact ⟨_, h⟩

theorem addressCycle_second {m : Mode} (hm : addressMode m = true) (l : Latches) :
    ∃ l' : Byte → Latches, ∀ src s,
      addressCycle src m 2 l s = andThen (fetchOperand src .second s) fun r => .next (l' r.1, r.2) := by
  cases m with
  | zp => exact ⟨fun b => { l with ea := zext16 b }, fun _ _ => rfl⟩
  | zpx | zpy | abs | abx | aby => exact ⟨fun b => { l with bal := b }, fun _ _ => rfl⟩
  | izx | izy => exact ⟨fun b => { l with ptr := b }, fun _ _ => rfl⟩
  | _ => cases hm

theorem addressCycle_third {m : Mode} (hm : addressMode m = true) (hl : m.length = 3) (l : Latches) :
    ∃ next, ∀ src s, addressCycle src m 3 l s = andThen (fetchOperand src .third s) next := by
  cases m with
  | abs | abx | aby => exact ⟨_, fun _ _ => rfl⟩
  | zp | zpx | zpy | izx | izy => cases hl
  | _ => cases hm

/-- The operand bytes are fetched in the address cycles. -/
theorem length_le_addressCycles {m : Mode} (hm : addressMode m = true) : m.length < 2 + addressCycles m := by
  cases m with
  | zp | zpx | zpy | abs | abx | aby | izx | izy => decide
  | _ => cases hm

theorem two_le_length {m : Mode} (hm : addressMode m = true) : 2 ≤ m.length := by
  cases m with
  | zp | zpx | zpy | abs | abx | aby | izx | izy => decide
  | _ => cases hm

theorem goesOnWith_second_of_addressed {m : Mode} (hm : addressMode m = true) (hq : Addressed q op m) (l : Latches) :
    GoesOnWith op ⟨opc, q, 2, l⟩ .second := by
  obtain ⟨l', h⟩ := addressCycle_second hm l
  refine ⟨l', fun src s => ?_⟩
  rw [microCycle_address (f := ⟨opc, q, 2, l⟩) hq ((two_le_length hm).trans_lt (length_le_addressCycles hm)), h, andThen_assoc]
  rfl

/-- T2 of a sequence of more than one byte fetches the second byte. -/
theorem fetchesThen_second (hc : compatible q op = true) (hl : 2 ≤ q.length) (hw : q.length ≤ lastCycle q) (l : Latches) :
    FetchesThen op ⟨opc, q, 2, l⟩ .second := by
  obtain ⟨m, hm, hq⟩ | ⟨rfl, g, rfl⟩ | hq := addressed_of_compatible hc
  · exact (goesOnWith_second_of_addressed hm hq l).fetchesThen
  · exact ⟨_, fun _ _ => rfl⟩
  cases q with
  | read m => exact absurd rfl (hq m).1
  | write m => exact absurd rfl (hq m).2.1
  | rmw m => exact absurd rfl (hq m).2.2
  | branch =>
    cases op with
    | branch c => exact ⟨_, fun _ _ => rfl⟩
    | _ => cases hc
  | jmpAbs | jmpInd | jsr | brk => exact ⟨_, fun _ _ => rfl⟩
  | nop len cycles =>
    refine ⟨fun r => .next (proceedUntil cycles ⟨opc, .nop len cycles, 2, l⟩ r.2), fun src s => ?_⟩
    have : ¬ (2 < 2 ∨ cycles < 2) := by
      simp only [Seq.length, lastCycle, Seq.baseCycles] at hl hw
      omega
    simp only [microCycle, nopCycle, if_neg this, if_true]
    exact if_pos hl
  | internal | rts | rti | push | pull | irq => exact absurd hl (by decide)

/-- In a sequence of three bytes T2 does nothing but fetch the second. -/
theorem goesOnWith_second (hc : compatible q op = true) (hl : q.length = 3) (hw : q.length ≤ lastCycle q) (l : Latches) :
    GoesOnWith op ⟨opc, q, 2, l⟩ .second := by
  obtain ⟨m, hm, hq⟩ | ⟨rfl, -⟩ | hq := addressed_of_compatible hc
  · exact goesOnWith_second_of_addressed hm hq l
  · cases hl
  cases q with
  | read m => exact absurd rfl (hq m).1
  | write m => exact absurd rfl (hq m).2.1
  | rmw m => exact absurd rfl (hq m).2.2
  | jmpAbs | jmpInd | jsr => exact ⟨fun b => { l with bal := b }, fun _ _ => rfl⟩
  | nop len cycles =>
    refine ⟨fun _ => l, fun src s => ?_⟩
    have : ¬ cycles < 2 ∧ 2 ≤ len ∧ 2 < cycles := by
      simp only [Seq.length, lastCycle, Seq.baseCycles] at hl hw
      omega
    simp only [microCycle, nopCycle, proceedUntil, this, Nat.lt_irrefl, or_self, if_false, if_true]
  | _ => cases hl

/-- Its T3 fetches the third byte, but for JSR. -/
theorem fetchesThen_third (hc : compatible q op = true) (hl : q.length = 3) (hw : q.length ≤ lastCycle q) (hj : q ≠ .jsr)
    (l : Latches) : FetchesThen op ⟨opc, q, 3, l⟩ .third := by
  obtain ⟨m, hm, hq⟩ | ⟨rfl, -⟩ | hq := addressed_of_compatible hc
  · have hm3 := hq.length.symm.trans hl
    obtain ⟨next, h⟩ := addressCycle_third hm hm3 l
    refine ⟨fun r => andThen (next r) fun r => .next (proceed ⟨opc, q, 3, l⟩ r.1 r.2), fun src s => ?_⟩
    rw [microCycle_address (f := ⟨opc, q, 3, l⟩) hq (hm3 ▸ length_le_addressCycles hm), h, andThen_assoc]
  · cases hl
  cases q with
  | read m => exact absurd rfl (hq m).1
  | write m => exact absurd rfl (hq m).2.1
  | rmw m => exact absurd rfl (hq m).2.2
  | jmpAbs | jmpInd => exact ⟨_, fun _ _ => rfl⟩
  | jsr => exact absurd rfl hj
  | nop len cycles =>
    refine ⟨fun r => .next (proceedUntil cycles ⟨opc, .nop len cycles, 3, l⟩ r.2), fun src s => ?_⟩
    have : ¬ cycles < 3 ∧ 3 ≤ len := by
      simp only [Seq.length, lastCycle, Seq.baseCycles] at hl hw
      omega
    simp [microCycle, nopCycle, -not_lt, this]
  | _ => cases hl

/-! ## Fetching on the bus, and running on the bytes that were fetched -/

/-- The source that delivers the byte that the bus gave makes the same fetch. -/
theorem fetchOperand_given_second {r : Byte × State} (h : fetchOperand .bus .second s = .next r) (b3 : Byte) :
    fetchOperand (.given r.1 b3) .second s = .next r := by
  rw [fetchOperand, ← (fetchOperand_eq_next h).2]

theorem fetchOperand_given_third {r : Byte × State} (h : fetchOperand .bus .third s = .next r) (b2 : Byte) :
    fetchOperand (.given b2 r.1) .third s = .next r := by
  rw [fetchOperand, ← (fetchOperand_eq_next h).2]

/-- What is done with the fetched byte alone is done with the value that the bus has. -/
theorem fetchOperand_bus_andThen {α : Type} (b : OperandByte) (k : Byte → Result α) :
    (andThen (fetchOperand .bus b s) fun r => k r.1) = andThen (busValue s s.pc) k := by
  simp only [fetchOperand, busRead, andThen_assoc, andThen_next]

/-- The last fetch of a sequence: the run on the bus fetches the byte and is the run on it. -/
theorem runCycles_lastFetch {k : OperandByte} (hp : s.phase = .runMicroSteps f) (hf : InSequence op f)
    (hk : FetchesThen op f k) (hj : f.seq ≠ .jsr) (hl : f.seq.length ≤ f.t) (bytes : Byte → Source)
    (hbytes : ∀ r, fetchOperand .bus k s = .next r → fetchOperand (bytes r.1) k s = .next r) (n : Nat) :
    runCycles .bus op (n + 1) s = andThen (busValue s s.pc) fun b => runCycles (bytes b) op (n + 1) s := by
  obtain ⟨next, hnext⟩ := hk
  rw [← fetchOperand_bus_andThen k fun b => runCycles (bytes b) op (n + 1) s, runCycles_inFlight .bus op n hp, hnext]
  cases hr : fetchOperand .bus k s with
  | next r =>
    have cycle : microCycle (bytes r.1) op f s = next r := by rw [hnext, hbytes r hr, andThen_next]
    rw [andThen_next, andThen_next, runCycles_inFlight _ op n hp, ← cycle]
    exact runCycles_source_after _ _ _ n hf hj hl
  | fault x => rfl
  | refused x => rfl

/-- An instruction of one byte. -/
theorem runCycles_oneByte (hf : InSequence op ⟨opc, q, 2, {}⟩) (hl : q.length = 1) (src : Source) (n : Nat) :
    runCycles .bus op n (openInstr opc q s) = runCycles src op n (openInstr opc q s) :=
  runCycles_source .bus src n rfl hf (by rintro rfl; cases hl) (hl.trans_lt Nat.one_lt_two)

/-- An instruction of two bytes fetches its second byte and runs on it. -/
theorem runCycles_twoBytes (hf : InSequence op ⟨opc, q, 2, {}⟩) (hl : q.length = 2) (n : Nat) :
    runCycles .bus op (n + 1) (openInstr opc q s)
      = andThen (busValue (openInstr opc q s) (openInstr opc q s).pc) fun b2 =>
          runCycles (.given b2 0) op (n + 1) (openInstr opc q s) :=
  runCycles_lastFetch rfl hf (fetchesThen_second hf.compatible hl.ge (hl ▸ hf.within) {}) (by rintro rfl; cases hl)
    hl.le (.given · 0) (fun _ hr => fetchOperand_given_second hr 0) n

/-- An instruction of three bytes fetches them one after the other. JSR has the stack's cycles between them. -/
theorem runCycles_threeBytes (hf : InSequence op ⟨opc, q, 2, {}⟩) (hl : q.length = 3) (hw : q.length ≤ lastCycle q)
    (hj : q ≠ .jsr) (n : Nat) :
    runCycles .bus op (n + 2) (openInstr opc q s)
      = andThen (fetchOperand .bus .second (openInstr opc q s)) fun r =>
          andThen (busValue r.2 r.2.pc) fun b3 => runCycles (.given r.1 b3) op (n + 2) (openInstr opc q s) := by
  obtain ⟨l, hsecond⟩ := goesOnWith_second (opc := opc) hf.compatible hl hw {}
  have cycle (src : Source) : runCycles src op (n + 2) (openInstr opc q s)
      = andThen (fetchOperand src .second (openInstr opc q s)) fun r =>
          runCycles src op (n + 1) (proceed ⟨opc, q, 2, {}⟩ (l r.1) r.2) := by
    rw [runCycles_inFlight src op (n + 1) (openInstr_phase s opc q), hsecond, andThen_assoc]
    rfl
  rw [cycle]
  cases hr : fetchOperand .bus .second (openInstr opc q s) with
  | next r =>
    simp only [andThen_next, cycle, fetchOperand_given_second hr]
    exact runCycles_lastFetch rfl (hf.next (hl.ge.trans hw) (l r.1))
      (fetchesThen_third hf.compatible hl hw hj (l r.1)) hj hl.le (.given r.1)
      (fun _ hr => fetchOperand_given_third hr r.1) n
  | fault x => rfl
  | refused x => rfl

end

/-! ## JSR (R148, R271) -/

theorem fetchOperand_bus_mid (b : OperandByte) (s : State) (pc : Word) (h : List BusCycle) (f : InFlight) :
    fetchOperand .bus b (mid s pc h f)
      = andThen (busValue (withHistory h s) pc) fun v => .next (v, mid s (pc + 1) (.read pc v :: h) f) := by
  simp only [fetchOperand, mid_pc, busRead_mid, andThen_assoc, andThen_next, setPc_mid]

theorem jsrPushes_mid (s : State) (pc : Word) (h : List BusCycle) (f : InFlight) :
    jsrPushes (mid s pc h f)
      = .next (mid (pushed (lo pc) (pushed (hi pc) s)) pc (.write (stackAddr (s.sp - 1)) (lo pc) pc
          :: .write (stackAddr s.sp) (hi pc) pc :: ramCycle s (stackAddr s.sp) :: h) f) := by
  simp only [jsrPushes, dummyRead, mid_sp, mid_pc, busRead_mid, busValue_withHistory_stackAddr, andThen_next,
    pushByte_mid, pushed_sp]
  rfl

/-- JSR fetches its second byte, pushes the return address, and fetches its last byte. -/
theorem runCycles_jsr (opc : Byte) (n : Nat) (s : State) :
    runCycles .bus .fixed (n + 5) (openInstr opc .jsr s)
      = andThen (fetchOperand .bus .second (openInstr opc .jsr s)) fun r => andThen (jsrPushes r.2) fun s3 =>
          andThen (busValue s3 s3.pc) fun b3 => runCycles (.given r.1 b3) .fixed (n + 5) (openInstr opc .jsr s) := by
  simp only [openInstr_eq_mid, runCycles_mid, microCycle, jsrCycle, fetchOperand_bus_mid, fetchSecond_mid,
    fetchThird_mid, andThen_assoc, andThen_next, proceed_mid, setPc_mid, jsrPushes_mid, dummyRead, mid_sp, mid_pc,
    busRead_mid, busValue_withHistory_stackAddr, pushByte_mid, pushed_sp, busValue_mid, runCycles_finish]
  rfl

/-- A JSR whose third byte is what its T6 fetches keeps that byte as its target's high byte. -/
theorem jsrHighByte_of_pushes {opc b2 b3 : Byte} {s s3 : State} {r : Byte × State}
    (hr : fetchOperand .bus .second (openInstr opc .jsr s) = .next r) (hp : jsrPushes r.2 = .next s3)
    (hb : busValue s3 s3.pc = .next b3) : jsrHighByte (word b3 b2) s = b3 := by
  rw [openInstr_eq_mid, fetchOperand_bus_mid] at hr
  obtain ⟨v, -, hr⟩ := andThen_eq_next.1 hr
  cases hr
  rw [jsrPushes_mid] at hp
  cases hp
  simp only [mid_pc, busValue_mid, branchNext] at hb
  rw [jsrHighByte]
  generalize s.pc + 2 = a at hb ⊢
  split_ifs with h₁ h₂
  · subst h₁
    rw [busValue_withHistory_stackAddr, ramRead_pushed_pushed, if_pos rfl] at hb
    cases hb
    rfl
  · subst h₂
    rw [busValue_withHistory_stackAddr, ramRead_pushed_pushed, if_neg h₁, if_pos rfl] at hb
    cases hb
    rfl
  · exact hi_word b3 b2

/-! ## The sequence of a fetched opcode (R133, R155) -/

/-- The sequence fetches `n` bytes, it has a cycle for each of them and one more than the opcode's, and it has 8 cycles
at most (R156). -/
abbrev Seq.Spans (q : Seq) (n : Nat) : Prop := q.length = n ∧ n ≤ lastCycle q ∧ 2 ≤ lastCycle q ∧ lastCycle q ≤ 8

theorem instrSeq_spans : ∀ opc : Byte, classOf (opcodeRow opc).1 ≠ .illegal →
    (instrSeq (instrOf opc 0 0)).Spans (lengthOf opc) := by decide +kernel

theorem nopSeq_spans : ∀ opc : Byte, classOf (opcodeRow opc).1 = .unofficial →
    (nopSeq (instrOf opc 0 0)).Spans (lengthOf opc) := by decide +kernel

/-- Only IRQ entry is no opcode's sequence. -/
theorem spans_of_fits {f : InFlight} (h : seqFits f = true) : ∃ n, f.seq.Spans n := by
  simp only [seqFits, Bool.or_eq_true, Bool.and_eq_true, beq_iff_eq, bne_iff_ne, instrOf_mnem] at h
  obtain (h | ⟨hc, h⟩) | ⟨hc, h⟩ := h <;> rw [h]
  · exact ⟨1, by decide⟩
  · exact ⟨_, instrSeq_spans f.opc hc⟩
  · exact ⟨_, nopSeq_spans f.opc hc⟩

section
variable {s : State} {opc : Byte}

/-- An opcode that does not halt the core selects the sequence of its instruction, or under `nop_with_cycles` that of
R155. -/
theorem fetchSeq_cases (ho : fetchHalt s opc = .none) :
    (classOf (opcodeRow opc).1 = .documented ∧ fetchSeq s opc = instrSeq (instrOf opc 0 0))
      ∨ (classOf (opcodeRow opc).1 = .unofficial ∧ s.params.unofficialPolicy = .implement
        ∧ fetchSeq s opc = instrSeq (instrOf opc 0 0))
      ∨ (classOf (opcodeRow opc).1 = .unofficial ∧ s.params.unofficialPolicy = .nopWithCycles
        ∧ fetchSeq s opc = nopSeq (instrOf opc 0 0)) := by
  unfold fetchSeq
  unfold fetchHalt at ho
  cases hc : classOf (opcodeRow opc).1 <;> cases hp : s.params.unofficialPolicy <;>
    simp_all [instrOf_mnem]

theorem fetchSeq_fits (ho : fetchHalt s opc = .none) : seqFits ⟨opc, fetchSeq s opc, 2, {}⟩ = true := by
  obtain ⟨hc, hq⟩ | ⟨hc, -, hq⟩ | ⟨hc, -, hq⟩ := fetchSeq_cases ho <;> simp [seqFits, hq, instrOf_mnem, hc]

theorem fetchSeq_spans (ho : fetchHalt s opc = .none) : (fetchSeq s opc).Spans (lengthOf opc) := by
  obtain ⟨hc, hq⟩ | ⟨hc, -, hq⟩ | ⟨hc, -, hq⟩ := fetchSeq_cases ho <;> rw [hq]
  · exact instrSeq_spans opc (by rw [hc]; decide)
  · exact instrSeq_spans opc (by rw [hc]; decide)
  · exact nopSeq_spans opc hc

/-- The fetch of an opcode begins a sound sequence. -/
theorem fetchSeq_sound (ho : fetchHalt s opc = .none) : InFlight.sound ⟨opc, fetchSeq s opc, 2, {}⟩ = true := by
  obtain ⟨-, -, htwo, -⟩ := fetchSeq_spans ho
  rw [InFlight.sound, fetchSeq_fits ho]
  simpa using htwo

/-! ## The instruction of a fetched opcode -/

section
variable (opc b2 b3 : Byte)

theorem operationOf_instrOf : operationOf (instrOf opc b2 b3) = operationOf (instrOf opc 0 0) := by
  have shifts (sh : Byte → Flags → Byte × Flags) (m : Mode) :
      shiftOperation sh (operandOf m b2 b3) = shiftOperation sh (operandOf m 0 0) := by cases m <;> rfl
  rw [instrOf, instrOf]
  generalize (opcodeRow opc).1 = k
  cases k with
  | asl | lsr | rol | ror => exact shifts _ _
  | _ => rfl

theorem instrSeq_instrOf : instrSeq (instrOf opc b2 b3) = instrSeq (instrOf opc 0 0) := by
  simp only [instrSeq, instrOf_mnem, instrOf_mode]

theorem nopSeq_instrOf : nopSeq (instrOf opc b2 b3) = nopSeq (instrOf opc 0 0) := by
  simp only [nopSeq, instrOf_mode, instrSeq_instrOf opc b2 b3]

end

/-- An instruction with a fetched opcode runs the sequence that the fetch selects. JSR runs it on another byte. -/
theorem exec_of_fetched (ho : fetchHalt s opc = .none) (hj : (opcodeRow opc).1 ≠ .jsr) (b2 b3 : Byte) :
    exec (instrOf opc b2 b3) s
      = runSeq (instrOf opc b2 b3) (fetchSeq s opc) (operationOf (instrOf opc 0 0)) s := by
  have hm := instrOf_mnem opc b2 b3
  have hop := operationOf_instrOf opc b2 b3
  obtain ⟨hc, hq⟩ | ⟨hc, hp, hq⟩ | ⟨hc, hp, hq⟩ := fetchSeq_cases ho <;> rw [hq]
  · rw [exec_documented (hm ▸ hc) (hm ▸ hj), hop, runInstr, instrSeq_instrOf]
  · rw [exec_unofficial (hm ▸ hc), hop, runUnofficial_implement hp, runInstr, instrSeq_instrOf]
  · rw [exec_unofficial (hm ▸ hc), hop, runUnofficial_nop hp, nopSeq_instrOf]

/-- A JSR that its fetch cycles have delivered runs on the bytes that they delivered. -/
theorem exec_jsr_of_fetched {b2 b3 : Byte} (h : jsrHighByte (word b3 b2) s = b3) :
    exec (.jsr (word b3 b2)) s = runCycles (.given b2 b3) .fixed longestSequence (openInstr 0x20 .jsr s) := by
  have hs : sourceOf (.jsr (word b3 b2)) = .given b2 b3 := by simp [sourceOf, Instr.operandBytes]
  rw [exec_jsr, h, lo_word, ← hs]
  rfl

theorem opcode_of_jsr : ∀ opc : Byte, (opcodeRow opc).1 = .jsr → opc = 0x20 := by decide

theorem runSeq_instrOf (b2 b3 : Byte) (q : Seq) (op : Operation) :
    runSeq (instrOf opc b2 b3) q op s
      = runCycles (.given (([b2, b3].take (lengthOf opc - 1)).getD 0 0) (([b2, b3].take (lengthOf opc - 1)).getD 1 0)) op
          longestSequence (openInstr opc q s) := by
  rw [runSeq, instrOf_opcode, sourceOf, instrOf_operandBytes]

/-! ## The fetch (R81) -/

theorem fetchInstr_oneByte (hv : busValue s s.pc = .next opc) (hl : lengthOf opc = 1) :
    fetchInstr s = .next (instrOf opc 0 0) := by
  rw [fetchInstr, hv, andThen_next, if_pos (.inr hl)]

section
variable (hv : busValue s s.pc = .next opc) (ho : fetchHalt s opc = .none)
include hv ho

/-- The fetch goes on after the opcode with the second byte. -/
theorem fetchInstr_of_length (hl : lengthOf opc ≠ 1) :
    fetchInstr s = andThen (fetchOperand .bus .second (openInstr opc (fetchSeq s opc) s)) fun r2 =>
      if lengthOf opc = 2 then .next (instrOf opc r2.1 0)
      else andThen (if (opcodeRow opc).1 = .jsr then jsrPushes r2.2 else .next r2.2) fun s3 =>
        andThen (busValue s3 s3.pc) fun b3 => .next (instrOf opc r2.1 b3) := by
  rw [fetchInstr, hv, andThen_next, if_neg (not_or.2 ⟨not_not.2 ho, hl⟩)]

theorem fetchInstr_twoBytes (hl : lengthOf opc = 2) :
    fetchInstr s = andThen (busValue (openInstr opc (fetchSeq s opc) s) (s.pc + 1)) fun b2 =>
      .next (instrOf opc b2 0) := by
  simp only [fetchInstr_of_length hv ho (by rw [hl]; decide), hl, if_true]
  exact fetchOperand_bus_andThen .second fun b2 => .next (instrOf opc b2 0)

theorem fetchInstr_threeBytes (hl : lengthOf opc = 3) (hj : (opcodeRow opc).1 ≠ .jsr) :
    fetchInstr s = andThen (fetchOperand .bus .second (openInstr opc (fetchSeq s opc) s)) fun r =>
      andThen (busValue r.2 r.2.pc) fun b3 => .next (instrOf opc r.1 b3) := by
  have h2 : ¬ lengthOf opc = 2 := by rw [hl]; decide
  simp only [fetchInstr_of_length hv ho (by rw [hl]; decide), h2, hj, if_false, andThen_next]

end

theorem fetchInstr_jsr (hv : busValue s s.pc = .next 0x20) :
    fetchInstr s = andThen (fetchOperand .bus .second (openInstr 0x20 .jsr s)) fun r => andThen (jsrPushes r.2) fun s3 =>
      andThen (busValue s3 s3.pc) fun b3 => .next (.jsr (word b3 r.1)) :=
  fetchInstr_of_length hv rfl (by decide)

theorem instrSeq_ne_jsr : ∀ opc : Byte, (opcodeRow opc).1 ≠ .jsr → instrSeq (instrOf opc 0 0) ≠ .jsr := by
  decide +kernel

theorem fetchSeq_ne_jsr (ho : fetchHalt s opc = .none) (hj : (opcodeRow opc).1 ≠ .jsr) : fetchSeq s opc ≠ .jsr := by
  obtain ⟨-, hq⟩ | ⟨-, -, hq⟩ | ⟨-, -, hq⟩ := fetchSeq_cases ho <;> rw [hq]
  · exact instrSeq_ne_jsr opc hj
  · exact instrSeq_ne_jsr opc hj
  · nofun

/-- JSR fetches its last byte after its pushes, in the run as in the fetch. -/
theorem fetchInstr_exec_jsr (hv : busValue s s.pc = .next 0x20) :
    (andThen (fetchInstr s) fun i => exec i s)
      = runCycles .bus .fixed longestSequence (openInstr 0x20 .jsr s) := by
  rw [fetchInstr_jsr hv, longestSequence, runCycles_jsr 0x20 2 s, andThen_assoc]
  cases hr : fetchOperand .bus .second (openInstr 0x20 .jsr s) with
  | next r =>
    simp only [andThen_next]
    cases hp : jsrPushes r.2 with
    | next s3 =>
      simp only [andThen_next]
      cases hb : busValue s3 s3.pc with
      | next b3 => exact exec_jsr_of_fetched (jsrHighByte_of_pushes hr hp hb)
      | fault x => rfl
      | refused x => rfl
    | fault x => rfl
    | refused x => rfl
  | fault x => rfl
  | refused x => rfl

/-- Fetching an instruction and executing it is running the sequence of its opcode on the bus. -/
theorem fetchInstr_exec (hv : busValue s s.pc = .next opc) (ho : fetchHalt s opc = .none) :
    (andThen (fetchInstr s) fun i => exec i s)
      = runCycles .bus (operationOf (instrOf opc 0 0)) longestSequence (openInstr opc (fetchSeq s opc) s) := by
  by_cases hj : (opcodeRow opc).1 = .jsr
  · obtain rfl := opcode_of_jsr opc hj
    exact fetchInstr_exec_jsr hv
  obtain ⟨hlen, hw, -, -⟩ := fetchSeq_spans ho
  have hf : InSequence (operationOf (instrOf opc 0 0)) ⟨opc, fetchSeq s opc, 2, {}⟩ :=
    inSequence_of_sound (fetchSeq_sound ho)
  have run := exec_of_fetched ho hj
  obtain hl | hl | hl := Mode.length_cases (opcodeRow opc).2
  · rw [fetchInstr_oneByte hv hl, andThen_next, run, runSeq_instrOf]
    exact (runCycles_oneByte hf (hlen.trans hl) _ _).symm
  · simp only [fetchInstr_twoBytes hv ho hl, andThen_assoc, andThen_next, run, runSeq_instrOf, lengthOf, hl]
    exact (runCycles_twoBytes hf (hlen.trans hl) 6).symm
  · simp only [fetchInstr_threeBytes hv ho hl hj, andThen_assoc, andThen_next, run, runSeq_instrOf, lengthOf, hl]
    exact (runCycles_threeBytes hf (hlen.trans hl) (hlen ▸ hw) (fetchSeq_ne_jsr ho hj) 5).symm

end

/-! ## Calls of the spec's `step()` up to the boundary -/

theorem cyclesToBoundary_boundary (n : Nat) {s : State} (hp : s.phase = .fetchOpcode) :
    cyclesToBoundary n s = .next s := by
  cases n with
  | zero => rfl
  | succ n => simp only [cyclesToBoundary, hp]

theorem busCycle_of_inFlight {s : State} {f : InFlight} (hh : s.halt = .none) (hp : s.phase = .runMicroSteps f) :
    busCycle s = microCycle .bus f.operation f s := by
  rw [busCycle, stepCall_of_inFlight hh hp, andThen_assoc, microStep]
  cases microCycle .bus f.operation f s <;> rfl

/-- Within an instruction the calls run its sequence on the bus. -/
theorem cyclesToBoundary_eq_runCycles (n : Nat) : ∀ {s : State} {f : InFlight}, s.halt = .none →
    s.phase = .runMicroSteps f → InSequence f.operation f → cyclesToBoundary n s = runCycles .bus f.operation n s := by
  induction n with
  | zero => intros; rfl
  | succ n ih =>
    intro s f hh hp hf
    simp only [cyclesToBoundary, hp, busCycle_of_inFlight hh hp, runCycles_inFlight .bus _ n hp]
    refine hf.andThen_congr (fun t _ ht => ?boundary) fun t l hcycle hf' ht => ?next
    case boundary => rw [runCycles_boundary _ _ n ht, cyclesToBoundary_boundary n ht]
    case next => exact ih (f := { f with t := f.t + 1, latches := l }) ((microStep_one hcycle).kept.1.halt.trans hh) ht hf'

theorem runCycles_add (src : Source) (op : Operation) (n m : Nat) (s : State) :
    runCycles src op (n + m) s = andThen (runCycles src op n s) (runCycles src op m) := by
  induction n generalizing s with
  | zero => rw [Nat.zero_add]; rfl
  | succ n ih =>
    rw [Nat.add_right_comm]
    cases hp : s.phase with
    | fetchOpcode => simp only [runCycles_boundary src op _ hp, andThen_next]
    | runMicroSteps f =>
      rw [runCycles_inFlight src op (n + m) hp, runCycles_inFlight src op n hp, andThen_assoc]
      exact congrArg (andThen _) (funext ih)

/-- A run that has been given enough cycles for its sequence needs no more. -/
theorem runCycles_enough {src : Source} {op : Operation} (hop : op.regsOnly) {s : State} {f : InFlight} {n : Nat}
    (hp : s.phase = .runMicroSteps f) (hf : InSequence op f) (hn : lastCycle f.seq < f.t + n) (m : Nat) :
    runCycles src op (n + m) s = runCycles src op n s := by
  rw [runCycles_add]
  obtain ⟨t, e, ht⟩ | ⟨e, -⟩ := runCycles_progress (src := src) hop n s f hp hf.compatible hf.begun hf.within hn
  · rw [e, andThen_next, runCycles_boundary src op m ht]
  · rw [e, andThen_refused]

theorem lastCycle_le_of_sound {f : InFlight} (h : f.sound = true) : lastCycle f.seq ≤ 8 := by
  simp only [InFlight.sound, Bool.and_eq_true] at h
  obtain ⟨n, -, -, -, hle⟩ := spans_of_fits h.1.1
  exact hle

section
variable {s : State}

/-- The rest of an instruction, call by call. -/
theorem completeInstr_eq {f : InFlight} (hh : s.halt = .none) (hp : s.phase = .runMicroSteps f) (hf : f.sound = true) :
    completeInstr f s = andThen (busCycle s) (cyclesToBoundary 7) := by
  have hseq := inSequence_of_sound hf
  have hlast := lastCycle_le_of_sound hf
  have hbegun := hseq.begun
  rw [completeInstr, longestSequence, busCycle_of_inFlight hh hp, runCycles_inFlight .bus _ 6 hp]
  refine hseq.andThen_congr (fun t _ ht => ?boundary) fun t l hcycle hf' ht => ?next
  case boundary => rw [runCycles_boundary _ _ 6 ht, cyclesToBoundary_boundary 7 ht]
  case next =>
    rw [cyclesToBoundary_eq_runCycles (f := { f with t := f.t + 1, latches := l }) 7
      ((microStep_one hcycle).kept.1.halt.trans hh) ht hf']
    exact (runCycles_enough (operationOf_regsOnly _) ht hf' (by dsimp only; omega) 1).symm

/-- Interrupt entry, call by call. -/
theorem takeIrq_eq_cycles (hh : s.halt = .none) : takeIrq s = andThen (openIrq s) (cyclesToBoundary 7) := by
  unfold takeIrq
  cases h : openIrq s with
  | next t =>
    obtain ⟨v, -, ht⟩ := openIrq_eq_next.1 h
    have hh' : t.halt = .none := by rw [ht]; exact hh
    have hp : t.phase = .runMicroSteps ⟨0x00, .irq, 2, {}⟩ := by rw [ht]
    exact (cyclesToBoundary_eq_runCycles 7 hh' hp (inSequence_of_sound (by decide))).symm
  | fault x => rfl
  | refused x => rfl

/-- An instruction from its opcode fetch, call by call. -/
theorem fetchInstr_exec_eq_cycles (hf : Fetching s) (hi : (s.irqPending && !s.p.i) = false) :
    (andThen (fetchInstr s) fun i => exec i s) = andThen (busCycle s) (cyclesToBoundary 7) := by
  obtain ⟨hh, hp, hq⟩ := hf
  cases hv : busValue s s.pc with
  | next opc =>
    by_cases ho : fetchHalt s opc = .none
    · rw [fetchInstr_exec hv ho, busCycle, stepCall_of_fetch hh hp hq hi hv ho, andThen_next, andThen_next]
      exact (cyclesToBoundary_eq_runCycles (s := openInstr opc (fetchSeq s opc) s) 7 hh (openInstr_phase ..)
        (inSequence_of_sound (fetchSeq_sound ho))).symm
    · have hhalt : (haltAt (fetchHalt s opc) opc s).phase = .fetchOpcode := hp
      rw [fetchInstr, hv, andThen_next, if_pos (.inl ho), andThen_next, exec_of_fetchHalt ho, busCycle,
        (halts_at_fetch rfl ho hh hp hq hi hv).1, andThen_next, andThen_next, cyclesToBoundary_boundary 7 hhalt]
  | fault x => simp [fetchInstr, busCycle, stepCall_of_boundary hh hp, fetchOpcodeStep, hq, hi, hv]
  | refused x => simp [fetchInstr, busCycle, stepCall_of_boundary hh hp, fetchOpcodeStep, hq, hi, hv]

/-! ## A step at a boundary -/

theorem step_of_boundary (hh : s.halt = .none) (hp : s.phase = .fetchOpcode) : step s = boundaryStep s := by
  simp only [step, hh, hp]

theorem step_of_inFlight {f : InFlight} (hh : s.halt = .none) (hp : s.phase = .runMicroSteps f) :
    step s = completeInstr f s := by
  simp only [step, hh, hp]

theorem step_of_fetching (hf : Fetching s) (hi : (s.irqPending && !s.p.i) = false) :
    step s = andThen (fetchInstr s) fun i => exec i s := by
  rw [step_of_boundary hf.halt hf.phase, boundaryStep, hf.pause, hi, if_neg Bool.false_ne_true,
    if_neg Bool.false_ne_true]

theorem boundaryStep_eq_cycles (hh : s.halt = .none) (hp : s.phase = .fetchOpcode) :
    boundaryStep s = andThen (busCycle s) (cyclesToBoundary 7) := by
  by_cases hq : s.pausePending = true
  · rw [boundaryStep, if_pos hq, busCycle, stepCall_of_boundary hh hp, fetchOpcodeStep_of_paused hq, andThen_next,
      andThen_next, cyclesToBoundary_boundary 7 hp]
  have hq := Bool.eq_false_iff.2 hq
  by_cases hi : (s.irqPending && !s.p.i) = true
  · obtain ⟨hirq, hoff⟩ := Bool.and_eq_true_iff.1 hi
    have hoff : s.p.i = false := by simpa using hoff
    rw [← step_of_boundary hh hp, step_of_irq hh hp hq hirq hoff, takeIrq_eq_cycles hh, busCycle,
      stepCall_of_irq hh hp hq hirq hoff, andThen_assoc, andThen_assoc]
    rfl
  · have hi := Bool.eq_false_iff.2 hi
    rw [← step_of_boundary hh hp, step_of_fetching ⟨hh, hp, hq⟩ hi, fetchInstr_exec_eq_cycles ⟨hh, hp, hq⟩ hi]

end

/-- Settles O8: at a boundary the fetched bytes are those the cycles fetch, and within an instruction the calls run its
sequence, which the rest of a step gives enough cycles. -/
theorem stepIsTheBusCyclesOfOneInstruction : Obligations.StepIsTheBusCyclesOfOneInstruction := by
  intro s hs
  by_cases hh : s.halt = .none
  case pos =>
    cases hp : s.phase with
    | fetchOpcode => rw [step_of_boundary hh hp, boundaryStep_eq_cycles hh hp]
    | runMicroSteps f =>
      simp only [phaseSound, hp, Bool.and_eq_true] at hs
      rw [step_of_inFlight hh hp, completeInstr_eq hh hp hs.1]
  case neg =>
    have hp : s.phase = .fetchOpcode := by
      cases hp : s.phase with
      | fetchOpcode => rfl
      | runMicroSteps f => simp [phaseSound, hp, hh] at hs
    rw [step_of_halted hh, busCycle_of_halted hh, andThen_next, cyclesToBoundary_boundary 7 hp]

end Sys2Proof.Machine
end

section
/-! What holds of every run: what bus cycles, steps and host actions keep, the invariant, and that only an absent BASIC
image stops the core (spec/10_state.md, 60_exceptions.md, 70_reset_and_hazards.md). -/

namespace Sys2Proof.Machine

/-! ## Inductions over runs -/

section
variable {P : State → Prop}

/-- What each call of the spec's `step()` keeps, the calls up to a boundary keep. -/
theorem cyclesToBoundary_induction (hcycle : ∀ s t, P s → busCycle s = .next t → P t) (n : Nat) :
    ∀ {s t : State}, P s → cyclesToBoundary n s = .next t → P t := by
  induction n with
  | zero => rintro s t hs ⟨⟩; exact hs
  | succ n ih =>
    intro s t hs h
    cases hp : s.phase with
    | fetchOpcode =>
      rw [cyclesToBoundary_boundary _ hp] at h
      cases h
      exact hs
    | runMicroSteps f =>
      simp only [cyclesToBoundary, hp] at h
      obtain ⟨u, hu, h⟩ := andThen_eq_next.1 h
      exact ih (hcycle s u hs hu) h

/-- What each call keeps, a step from a sound phase keeps. -/
theorem step_induction (hcycle : ∀ s t, P s → busCycle s = .next t → P t) {s t : State} (hsound : phaseSound s = true)
    (hs : P s) (h : step s = .next t) : P t := by
  rw [stepIsTheBusCyclesOfOneInstruction s hsound] at h
  obtain ⟨u, hu, h⟩ := andThen_eq_next.1 h
  exact cyclesToBoundary_induction hcycle 7 (hcycle s u hs hu) h

/-- What each happening keeps, a run of them keeps. -/
theorem runHappenings_induction {es : List Happening}
    (hhappen : ∀ e ∈ es, ∀ s t, P s → happen e s = .next t → P t) :
    ∀ {s t : State}, P s → runHappenings es s = .next t → P t := by
  induction es with
  | nil => rintro s t hs ⟨⟩; exact hs
  | cons e es ih =>
    intro s t hs h
    obtain ⟨u, hu, h⟩ := andThen_eq_next.1 h
    exact ih (fun e he => hhappen e (.tail _ he)) (hhappen e (.head _) s u hs hu) h

end

/-! ## What every call keeps -/

/-- What bus cycles keep whatever the call does: the ROM images, the parameters, the pause latch, the external time; a
set redraw flag; the deliveries and the record so far; the canonical memories and the sound serial bus. -/
structure Persists (s t : State) : Prop where
  kernalRom : t.kernalRom = s.kernalRom
  basicRom : t.basicRom = s.basicRom
  romsOpen : t.romsOpen = s.romsOpen
  params : t.params = s.params
  pausePending : t.pausePending = s.pausePending
  extTime : t.extTime = s.extTime
  redraw : s.redrawNeeded = true → t.redrawNeeded = true
  deliveries : ∃ new, t.deliveries = s.deliveries ++ new
  history : ∃ new, t.history = new ++ s.history
  memory : memorySound s = true → memorySound t = true
  serial : serialSound s = true → serialSound t = true

section
variable {s t u : State}

theorem Kept.persists (h : Kept s t) : Persists s t where
  kernalRom := h.kernalRom
  basicRom := h.basicRom
  romsOpen := h.romsOpen
  params := h.params
  pausePending := h.pausePending
  extTime := h.extTime
  redraw := h.redraw
  deliveries := h.deliveries
  history := h.history
  memory := h.memory
  serial := h.serial

theorem Persists.refl (s : State) : Persists s s := (Kept.refl s).persists

theorem Persists.trans (h : Persists s t) (k : Persists t u) : Persists s u where
  kernalRom := k.kernalRom.trans h.kernalRom
  basicRom := k.basicRom.trans h.basicRom
  romsOpen := k.romsOpen.trans h.romsOpen
  params := k.params.trans h.params
  pausePending := k.pausePending.trans h.pausePending
  extTime := k.extTime.trans h.extTime
  redraw := k.redraw ∘ h.redraw
  deliveries := by
    obtain ⟨a, ha⟩ := h.deliveries
    obtain ⟨b, hb⟩ := k.deliveries
    exact ⟨a ++ b, by rw [hb, ha, List.append_assoc]⟩
  history := by
    obtain ⟨a, ha⟩ := h.history
    obtain ⟨b, hb⟩ := k.history
    exact ⟨b ++ a, by rw [hb, ha, List.append_assoc]⟩
  memory := k.memory ∘ h.memory
  serial := k.serial ∘ h.serial

/-- None of this is the PC, the phase, the interrupt latch or the halt. -/
theorem Persists.withControl (h : Persists s t) (pc : Word) (phase : Phase) (irq : Bool) (halt : Halt) :
    Persists s { t with pc := pc, phase := phase, irqPending := irq, halt := halt } where
  kernalRom := h.kernalRom
  basicRom := h.basicRom
  romsOpen := h.romsOpen
  params := h.params
  pausePending := h.pausePending
  extTime := h.extTime
  redraw := h.redraw
  deliveries := h.deliveries
  history := h.history
  memory := h.memory
  serial := h.serial

theorem busCycle_persists (h : busCycle s = .next t) : Persists s t := by
  have recorded (c : BusCycle) := (record_kept c s).persists.withControl
  cases busCycle_leaves h with
  | halted | paused => exact .refl s
  | takesIrq v => exact recorded (.read s.pc v) s.pc _ false s.halt
  | opens opc => exact recorded (.read s.pc opc) _ _ s.irqPending s.halt
  | halts opc => exact recorded (.read s.pc opc) s.pc s.phase s.irqPending _
  | runs _ f hh hp h => exact (microStep_one h).kept.1.persists

/-- A step keeps it too, from any phase. -/
theorem step_persists (h : step s = .next t) : Persists s t := by
  by_cases hh : s.halt = .none
  case neg =>
    rw [step_of_halted hh] at h
    cases h
    exact .refl s
  cases hp : s.phase with
  | fetchOpcode =>
    exact step_induction (P := Persists s) (fun _ _ hs h => hs.trans (busCycle_persists h))
      (by simp only [phaseSound, hp]) (.refl s) h
  | runMicroSteps f =>
    rw [step_of_inFlight hh hp] at h
    exact (runCycles_kept (operationOf_regsOnly _) _ _ _ h).1.persists

/-! ## ROM images and parameters (R39, R402) -/

theorem happen_params (e : Happening) (h : happen e s = .next t) : t.params = s.params := by
  cases e with
  | cycle => exact (busCycle_persists h).params
  | host a =>
    cases h
    cases a with
    | loadRoms kernal basic => rw [hostAct_loadRoms_frame]
    | _ => rfl

/-- Once the images can no longer be loaded, nothing changes them. -/
theorem happen_roms (e : Happening) (h : happen e s = .next t) (hs : s.romsOpen = false) :
    t.romsOpen = false ∧ t.kernalRom = s.kernalRom ∧ t.basicRom = s.basicRom := by
  cases e with
  | cycle =>
    have hp := busCycle_persists h
    exact ⟨hp.romsOpen.trans hs, hp.kernalRom, hp.basicRom⟩
  | host a =>
    cases h
    cases a with
    | loadRoms kernal basic => simp [hostAct, hs]
    | reset => exact ⟨rfl, rfl, rfl⟩
    | _ => exact ⟨hs, rfl, rfl⟩

theorem runHappenings_roms {es : List Happening} (hs : s.romsOpen = false) (h : runHappenings es s = .next t) :
    t.romsOpen = false ∧ t.kernalRom = s.kernalRom ∧ t.basicRom = s.basicRom := by
  refine runHappenings_induction (P := fun u => u.romsOpen = false ∧ u.kernalRom = s.kernalRom ∧ u.basicRom = s.basicRom)
    (fun e _ u v hu hv => ?_) ⟨hs, rfl, rfl⟩ h
  obtain ⟨hopen, hkernal, hbasic⟩ := hu
  obtain ⟨hopen', hkernal', hbasic'⟩ := happen_roms e hv hopen
  exact ⟨hopen', hkernal'.trans hkernal, hbasic'.trans hbasic⟩

/-- The happenings after which no image is loaded any more. -/
def ClosesRoms (e : Happening) : Prop := e = .host .reset ∨ ∃ kernal basic, e = .host (.loadRoms kernal basic)

theorem romsOpen_of_closesRoms {e : Happening} (he : ClosesRoms e) (h : happen e s = .next t) : t.romsOpen = false := by
  obtain rfl | ⟨kernal, basic, rfl⟩ := he
  · cases h
    rfl
  · cases h
    cases hs : s.romsOpen <;> simp [hostAct, hs]

theorem romsOpen_of_runHappenings {es : List Happening} (he : ∃ e ∈ es, ClosesRoms e) :
    ∀ {s t : State}, runHappenings es s = .next t → t.romsOpen = false := by
  induction es with
  | nil => obtain ⟨e, he, -⟩ := he; cases he
  | cons e es ih =>
    intro s t h
    obtain ⟨u, hu, h⟩ := andThen_eq_next.1 h
    obtain ⟨e', he' | ⟨_, he'⟩, hc⟩ := he
    · exact (runHappenings_roms (romsOpen_of_closesRoms hc hu) h).1
    · exact ih ⟨e', he', hc⟩ h

end

/-- Settles O13: of the calls and steps by what they keep, of whole runs by what each happening keeps once the images
are closed. -/
theorem romsParametersAndHostLatchesAreKept : Obligations.RomsParametersAndHostLatchesAreKept := by
  refine ⟨fun s t h => ?kept, fun es s t h => ?params, fun before after s t u hb ht hu => ?roms⟩
  case kept =>
    have hp : Persists s t := h.elim busCycle_persists step_persists
    exact ⟨hp.kernalRom, hp.basicRom, hp.params, hp.pausePending, hp.romsOpen, hp.extTime, hp.redraw, hp.history,
      hp.deliveries⟩
  case params =>
    exact runHappenings_induction (P := fun u => u.params = s.params) (fun e _ u v hu hv => (happen_params e hv).trans hu)
      rfl h
  case roms =>
    have hclosed : ∃ e ∈ before, ClosesRoms e := by
      obtain h | ⟨kernal, basic, h⟩ := hb
      · exact ⟨_, h, .inl rfl⟩
      · exact ⟨_, h, .inr ⟨kernal, basic, rfl⟩⟩
    exact (runHappenings_roms (romsOpen_of_runHappenings hclosed ht) hu).2

/-! ## The phase -/

section
variable {s t : State} {f : InFlight}

theorem phaseSound_of_boundary (hp : s.phase = .fetchOpcode) : phaseSound s = true := by
  simp only [phaseSound, hp]

theorem phaseSound_of_inFlight (hp : s.phase = .runMicroSteps f) :
    phaseSound s = true ↔ f.sound = true ∧ s.halt = .none := by
  simp only [phaseSound, hp, Bool.and_eq_true, decide_eq_true_eq]

theorem sound_next (hf : f.sound = true) (ht : f.t < lastCycle f.seq) (l : Latches) :
    InFlight.sound { f with t := f.t + 1, latches := l } = true := by
  simp only [InFlight.sound, Bool.and_eq_true, decide_eq_true_eq] at hf ⊢
  obtain ⟨⟨fits, begun⟩, -⟩ := hf
  exact ⟨⟨fits, Nat.le_succ_of_le begun⟩, ht⟩

theorem microStep_progress (hf : f.sound = true) (s : State) : Progress s f (microStep f s) :=
  (inSequence_of_sound hf).progress .bus s

theorem busCycle_phaseSound (hs : phaseSound s = true) (h : busCycle s = .next t) : phaseSound t = true := by
  cases busCycle_leaves h with
  | halted | paused => exact hs
  | takesIrq v hf => exact (phaseSound_of_inFlight rfl).2 ⟨by decide, hf.halt⟩
  | opens opc hf _ _ ho => exact (phaseSound_of_inFlight rfl).2 ⟨fetchSeq_sound ho, hf.halt⟩
  | halts opc hf => exact phaseSound_of_boundary hf.phase
  | runs _ f hh hp h =>
    have hf := ((phaseSound_of_inFlight hp).1 hs).1
    obtain ⟨u, hu, hmoves⟩ | ⟨hr, -⟩ := microStep_progress hf s
    · cases hu.symm.trans h
      obtain hp' | ⟨hlt, l, hp'⟩ := hmoves
      · exact phaseSound_of_boundary hp'
      · exact (phaseSound_of_inFlight hp').2 ⟨sound_next hf hlt l, (microStep_one h).kept.1.halt.trans hh⟩
    · cases hr.symm.trans h

/-! ## The invariant -/

theorem busCycle_inv (hs : Inv s) (h : busCycle s = .next t) : Inv t := by
  obtain ⟨hmemory, hserial, hphase⟩ := hs
  have hp := busCycle_persists h
  exact ⟨hp.memory hmemory, hp.serial hserial, busCycle_phaseSound hphase h⟩

/-- A ROM image that a happening loads is canonical. -/
def LoadsCanonical (e : Happening) : Prop :=
  ∀ kernal basic, e = .host (.loadRoms kernal basic) →
    kernal.wf romUnlisted 8192 = true ∧ ∀ rom, basic = some rom → rom.wf romUnlisted 8192 = true

theorem memorySound_iff :
    memorySound s = true ↔ s.ram.wf ramUnlisted 65536 = true ∧ s.kernalRom.wf romUnlisted 8192 = true
      ∧ ∀ rom, s.basicRom = some rom → rom.wf romUnlisted 8192 = true := by
  cases hb : s.basicRom <;> simp [memorySound, hb, and_assoc]

theorem hostAct_inv {a : HostAction} (ha : LoadsCanonical (.host a)) (hs : Inv s) : Inv (hostAct a s) := by
  obtain ⟨hmemory, hserial, hphase⟩ := hs
  obtain ⟨hram, hkernal, hbasic⟩ := memorySound_iff.1 hmemory
  cases a with
  | loadRoms kernal basic =>
    obtain ⟨hkernal', hbasic'⟩ := ha kernal basic rfl
    simp only [hostAct]
    split
    · exact ⟨memorySound_iff.2 ⟨hram, hkernal', hbasic'⟩, hserial, hphase⟩
    · exact ⟨hmemory, hserial, hphase⟩
  | reset => exact ⟨hmemory, hserial, rfl⟩
  | rawWrite a v => exact ⟨memorySound_iff.2 ⟨ram_wf_ramWrite s a v hram, hkernal, hbasic⟩, hserial, hphase⟩
  | requestInterrupt | setPause | clearRedraw | consumeEvents | advancePeripherals => exact ⟨hmemory, hserial, hphase⟩

theorem happen_inv {e : Happening} (he : LoadsCanonical e) (hs : Inv s) (h : happen e s = .next t) : Inv t := by
  cases e with
  | cycle => exact busCycle_inv hs h
  | host a =>
    cases h
    exact hostAct_inv he hs

end

/-- Settles O14: each part of the invariant is evaluated in the reset state. -/
theorem invariantHoldsAtReset : Obligations.InvariantHoldsAtReset := by
  refine ⟨?memory, ?serial, ?phase⟩ <;> decide

/-- Settles O15: each bus cycle and each host action keeps the invariant, and a step is bus cycles. -/
theorem invariantIsKeptByEveryHappening : Obligations.InvariantIsKeptByEveryHappening := by
  refine ⟨fun es s t hs hload h => ?run, fun s t hs h => ?step⟩
  case run =>
    exact runHappenings_induction
      (fun e he u v => happen_inv fun kernal basic hk => hload kernal basic (hk ▸ he)) hs h
  case step => exact step_induction (fun _ _ => busCycle_inv) hs.2.2 hs h

/-! ## Progress (R67) -/

/-- A next value, or the refusal of a read of the absent BASIC image. -/
def GoesOrMissesBasic {α : Type} (s : State) (r : Result α) : Prop :=
  (∃ v, r = .next v) ∨ (r = .refused .basicRomAbsent ∧ s.basicRom = none)

section
variable {α β : Type} {s t : State}

theorem goes_next (v : α) : GoesOrMissesBasic s (.next v) := .inl ⟨v, rfl⟩

theorem GoesOrMissesBasic.andThen {r : Result α} {k : α → Result β} (hr : GoesOrMissesBasic s r)
    (hk : ∀ v, r = .next v → GoesOrMissesBasic s (k v)) : GoesOrMissesBasic s (andThen r k) := by
  obtain ⟨v, rfl⟩ | ⟨rfl, hb⟩ := hr
  · exact hk v rfl
  · exact .inr ⟨rfl, hb⟩

theorem busValue_goes (s : State) (a : Word) : GoesOrMissesBasic s (busValue s a) := by
  obtain ⟨-, hv⟩ | ⟨hr, hq⟩ := busValue_readable s a
  · exact .inl hv
  · exact .inr ⟨hq, by simpa using (Bool.or_eq_false_iff.1 hr).2⟩

theorem openIrq_goes (s : State) : GoesOrMissesBasic s (openIrq s) := by
  simp only [openIrq, dummyRead, busRead, andThen_assoc]
  exact (busValue_goes s s.pc).andThen fun v _ => goes_next _

theorem fetchOpcodeStep_goes (s : State) : GoesOrMissesBasic s (fetchOpcodeStep s) := by
  unfold fetchOpcodeStep
  split
  · exact goes_next _
  split
  · exact (openIrq_goes s).andThen fun t _ => goes_next _
  · refine (busValue_goes s s.pc).andThen fun opc _ => ?_
    split <;> exact goes_next _

theorem microStep_goes {f : InFlight} (hf : f.sound = true) (s : State) : GoesOrMissesBasic s (microStep f s) :=
  (microStep_progress hf s).imp (fun ⟨t, h, _⟩ => ⟨t, h⟩) id

theorem busCycle_goes (hs : phaseSound s = true) : GoesOrMissesBasic s (busCycle s) := by
  by_cases hh : s.halt = .none
  case neg => exact .inl ⟨s, busCycle_of_halted hh⟩
  cases hp : s.phase with
  | fetchOpcode =>
    rw [busCycle, stepCall_of_boundary hh hp]
    exact (fetchOpcodeStep_goes s).andThen fun r _ => goes_next _
  | runMicroSteps f =>
    rw [busCycle_of_inFlight hh hp]
    exact microStep_goes ((phaseSound_of_inFlight hp).1 hs).1 s

theorem cyclesToBoundary_goes (n : Nat) : ∀ {s : State}, phaseSound s = true →
    GoesOrMissesBasic s (cyclesToBoundary n s) := by
  induction n with
  | zero => exact fun _ => goes_next _
  | succ n ih =>
    intro s hs
    unfold cyclesToBoundary
    split
    · exact goes_next s
    · refine (busCycle_goes hs).andThen fun t ht => ?_
      have hb := (busCycle_persists ht).basicRom
      exact (ih (busCycle_phaseSound hs ht)).imp_right (.imp_right hb.symm.trans)

theorem step_goes (hs : phaseSound s = true) : GoesOrMissesBasic s (step s) := by
  rw [stepIsTheBusCyclesOfOneInstruction s hs]
  refine (busCycle_goes hs).andThen fun t ht => ?_
  have hb := (busCycle_persists ht).basicRom
  exact (cyclesToBoundary_goes 7 (busCycle_phaseSound hs ht)).imp_right (.imp_right hb.symm.trans)

/-- The three ways in which a result can be asked about. -/
theorem GoesOrMissesBasic.outcomes {r : Result State} (h : GoesOrMissesBasic s r) :
    (∀ f, r ≠ .fault f) ∧ (∀ q, r = .refused q → q = .basicRomAbsent ∧ s.basicRom = none)
      ∧ (s.basicRom.isSome = true → ∃ t, r = .next t) := by
  obtain ⟨t, rfl⟩ | ⟨rfl, hb⟩ := h
  · exact ⟨nofun, nofun, fun _ => ⟨t, rfl⟩⟩
  · refine ⟨nofun, fun q hq => ?_, fun hsome => ?_⟩
    · cases hq
      exact ⟨rfl, hb⟩
    · rw [hb] at hsome
      cases hsome

end

/-- Settles O16: in a sound phase a call goes on or misses the BASIC image, and so do the calls that make a step. -/
theorem noFaultAndOnlyAnAbsentBasicImageRefuses : Obligations.NoFaultAndOnlyAnAbsentBasicImageRefuses := by
  rintro s ⟨-, -, hs⟩
  obtain ⟨noFault, refusal, next⟩ := (busCycle_goes hs).outcomes
  obtain ⟨noFault', refusal', next'⟩ := (step_goes hs).outcomes
  exact ⟨fun f => ⟨noFault f, noFault' f⟩, fun q hq => hq.elim (refusal q) (refusal' q), fun hb => ⟨next hb, next' hb⟩⟩

/-! ## The end of a step (R30, R135, R156) -/

section
variable {s t : State}

theorem busCycle_length (h : busCycle s = .next t) : t.history.length ≤ s.history.length + 1 := by
  cases busCycle_leaves h with
  | halted | paused => exact Nat.le_succ _
  | takesIrq | opens | halts => exact Nat.le_refl _
  | runs _ f hh hp h =>
    obtain ⟨-, c, hc⟩ := (microStep_one h).kept
    rw [hc, List.length_cons]

theorem cyclesToBoundary_length (n : Nat) : ∀ {s t : State}, cyclesToBoundary n s = .next t →
    t.history.length ≤ s.history.length + n := by
  induction n with
  | zero => rintro s _ ⟨⟩; exact Nat.le_refl _
  | succ n ih =>
    intro s t h
    unfold cyclesToBoundary at h
    split at h
    · cases h
      exact Nat.le_add_right _ _
    · obtain ⟨u, hu, h⟩ := andThen_eq_next.1 h
      have h₁ := busCycle_length hu
      have h₂ := ih h
      omega

/-- Seven calls lead from anywhere in an instruction to its boundary: the longest sequence has 8 cycles. -/
theorem cyclesToBoundary_ends (hs : phaseSound s = true) (h : cyclesToBoundary 7 s = .next t) : t.phase = .fetchOpcode := by
  cases hp : s.phase with
  | fetchOpcode =>
    rw [cyclesToBoundary_boundary 7 hp] at h
    cases h
    exact hp
  | runMicroSteps f =>
    obtain ⟨hf, hh⟩ := (phaseSound_of_inFlight hp).1 hs
    have hseq := inSequence_of_sound hf
    have hlast := lastCycle_le_of_sound hf
    have hbegun := hseq.begun
    rw [cyclesToBoundary_eq_runCycles 7 hh hp hseq] at h
    obtain ⟨u, hu, hb⟩ | ⟨hr, -⟩ := runCycles_progress (src := .bus) (operationOf_regsOnly _) 7 s f hp hseq.compatible
      hbegun hseq.within (by omega)
    · cases hu.symm.trans h
      exact hb
    · cases hr.symm.trans h

end

/-- Settles O17: a step is one call and up to seven more, and no sequence has more than 8 cycles. -/
theorem stepEndsAtABoundary : Obligations.StepEndsAtABoundary := by
  intro s t hs h
  rw [stepIsTheBusCyclesOfOneInstruction s hs] at h
  obtain ⟨u, hu, h⟩ := andThen_eq_next.1 h
  have h₁ := busCycle_length hu
  have h₇ := cyclesToBoundary_length 7 h
  exact ⟨cyclesToBoundary_ends (busCycle_phaseSound hs hu) h, by omega⟩

/-! ## reset() (R403, R404, R406) -/

/-- Settles O1: `hostReset` is this assignment. -/
theorem resetSetsItsFieldsAndKeepsTheRest : Obligations.ResetSetsItsFieldsAndKeepsTheRest := fun _ => rfl

end Sys2Proof.Machine
end

section
/-! The instruction whose bytes stand in memory is the one that a step runs (spec/20_memory.md R81, R89). -/

namespace Sys2Proof.Machine

/-! ## A byte of memory -/

section
variable {s : State} {a : Word} {b : Byte}

theorem busValue_of_memoryByte (h : memoryByte s a = some b) : busValue s a = .next b := by
  unfold memoryByte at h
  unfold busValue
  cases ht : targetOf s a <;> simp only [ht] at h ⊢
  case basic =>
    obtain ⟨rom, hrom, rfl⟩ := Option.map_eq_some_iff.1 h
    rw [hrom]
  all_goals first | (cases h; rfl) | cases h

theorem busValue_withHistory_of_memoryByte (h : memoryByte s a = some b) (g : List BusCycle) :
    busValue (withHistory g s) a = .next b :=
  busValue_of_memoryByte (s := withHistory g s) h

theorem targetOf_pushed (v : Byte) (s : State) (a : Word) : targetOf (pushed v s) a = targetOf s a := by
  have : (1 : Word) ≠ stackAddr s.sp := ne_stackAddr_of_hi_ne (by decide) s.sp
  rw [targetOf, ramRead_pushed, if_neg this, targetOf]

/-- A push leaves every byte of memory outside its stack slot. -/
theorem memoryByte_pushed (v : Byte) (ha : a ≠ stackAddr s.sp) : memoryByte (pushed v s) a = memoryByte s a := by
  simp only [memoryByte, targetOf_pushed, ramRead_pushed, if_neg ha, pushed_basicRom, pushed_kernalRom]

/-- After a JSR's pushes its last byte is the one in memory, or the pushed byte that has overwritten it (R271). -/
theorem busValue_after_pushes {t : Word} (h : memoryByte s (s.pc + 2) = some (hi t)) (g : List BusCycle) :
    busValue (withHistory g (pushed (lo (s.pc + 2)) (pushed (hi (s.pc + 2)) s))) (s.pc + 2)
      = .next (jsrHighByte t s) := by
  rw [jsrHighByte]
  generalize s.pc + 2 = a at h ⊢
  split_ifs with h₁ h₂
  · subst h₁
    rw [busValue_withHistory_stackAddr, ramRead_pushed_pushed, if_pos rfl]
  · subst h₂
    rw [busValue_withHistory_stackAddr, ramRead_pushed_pushed, if_neg h₁, if_pos rfl]
  · refine busValue_withHistory_of_memoryByte ?_ g
    rw [memoryByte_pushed _ (by rwa [pushed_sp]), memoryByte_pushed _ h₂, h]

end

/-! ## An instruction that stands in memory -/

/-- An instruction whose opcode halts the core does no more than its fetch, whatever its operand bytes are. -/
theorem exec_of_halting {s : State} {opc : Byte} (ho : fetchHalt s opc ≠ .none) (b2 b3 : Byte) :
    exec (instrOf opc b2 b3) s = .next (haltAt (fetchHalt s opc) opc s) := by
  cases hc : classOf (opcodeRow opc).1 with
  | documented => exact absurd (by simp only [fetchHalt, hc]) ho
  | unofficial =>
    have hp : s.params.unofficialPolicy = .error := by
      by_contra hp
      exact ho (by simp only [fetchHalt, hc, hp, if_false])
    rw [exec_of_error (instrOf_wellFormed ..) (by rw [instrOf_mnem, hc]) hp, opcodeByte, instrOf_opcode,
      Option.getD_some, fetchHalt_of_error hc hp]
  | illegal => rw [instrOf_of_illegal hc, exec_of_illegal hc, fetchHalt_of_illegal hc]

section
variable {s : State} {opc b2 b3 : Byte}

theorem fetchSecond_of_memoryByte (q : Seq) (h2 : memoryByte s (s.pc + 1) = some b2) :
    fetchOperand .bus .second (openInstr opc q s)
      = .next (b2, mid s (s.pc + 2) (.read (s.pc + 1) b2 :: .read s.pc opc :: s.history) ⟨opc, q, 2, {}⟩) := by
  rw [openInstr_eq_mid, fetchOperand_bus_mid, busValue_withHistory_of_memoryByte h2, branchNext,
    andThen_next]

theorem fetchInstr_of_halting (hv : busValue s s.pc = .next opc) (ho : fetchHalt s opc ≠ .none) :
    fetchInstr s = .next (instrOf opc 0 0) := by
  rw [fetchInstr, hv, andThen_next, if_pos (.inl ho)]

theorem fetchInstr_of_twoBytes (hv : busValue s s.pc = .next opc) (ho : fetchHalt s opc = .none)
    (h2 : memoryByte s (s.pc + 1) = some b2) (hl : lengthOf opc = 2) : fetchInstr s = .next (instrOf opc b2 0) := by
  rw [fetchInstr_twoBytes hv ho hl, busValue_of_memoryByte (s := openInstr _ _ s) h2, andThen_next]

theorem fetchInstr_of_threeBytes (hv : busValue s s.pc = .next opc) (ho : fetchHalt s opc = .none)
    (h2 : memoryByte s (s.pc + 1) = some b2) (h3 : memoryByte s (s.pc + 2) = some b3) (hl : lengthOf opc = 3)
    (hj : (opcodeRow opc).1 ≠ .jsr) : fetchInstr s = .next (instrOf opc b2 b3) := by
  rw [fetchInstr_threeBytes hv ho hl hj, fetchSecond_of_memoryByte _ h2, andThen_next, mid_pc,
    busValue_of_memoryByte (s := mid s _ _ _) h3, andThen_next]

/-- The byte that a JSR sees does not depend on the one it replaces. -/
theorem jsrHighByte_jsrHighByte (t : Word) (l : Byte) (s : State) :
    jsrHighByte (word (jsrHighByte t s) l) s = jsrHighByte t s := by
  unfold jsrHighByte
  split_ifs
  · rfl
  · rfl
  · exact hi_word (hi t) l

/-- A JSR fetches what the pushes have left of its last byte, and executes alike with that byte. -/
theorem fetchInstr_exec_of_jsr (hv : busValue s s.pc = .next 0x20)
    (h2 : memoryByte s (s.pc + 1) = some b2) (h3 : memoryByte s (s.pc + 2) = some b3) :
    (andThen (fetchInstr s) fun i => exec i s) = exec (.jsr (word b3 b2)) s := by
  have h3' : memoryByte s (s.pc + 2) = some (hi (word b3 b2)) := h3.trans (by rw [hi_word])
  rw [fetchInstr_jsr hv, fetchSecond_of_memoryByte _ h2, andThen_next, jsrPushes_mid, andThen_next, mid_pc, busValue_mid,
    busValue_after_pushes h3', andThen_next, andThen_next, exec_jsr, exec_jsr, jsrHighByte_jsrHighByte, lo_word, lo_word]

/-- Fetching and executing is executing the instruction whose bytes stand in memory. -/
theorem fetchInstr_exec_of_memory {bs : List Byte} (hv : busValue s s.pc = .next opc) (hl : bs.length + 1 = lengthOf opc)
    (hb : ∀ k (h : k < bs.length), memoryByte s (s.pc + BitVec.ofNat 16 (k + 1)) = some bs[k]) :
    (andThen (fetchInstr s) fun i => exec i s) = exec (instrOf opc (bs.getD 0 0) (bs.getD 1 0)) s := by
  by_cases ho : fetchHalt s opc = .none
  case neg => rw [fetchInstr_of_halting hv ho, andThen_next, exec_of_halting ho, exec_of_halting ho]
  match bs, operands_length_le hl with
  | [], _ => rw [fetchInstr_oneByte hv hl.symm, andThen_next]; rfl
  | [b2], _ => rw [fetchInstr_of_twoBytes hv ho (hb 0 Nat.one_pos) hl.symm, andThen_next]; rfl
  | [b2, b3], _ =>
    have h2 : memoryByte s (s.pc + 1) = some b2 := hb 0 Nat.two_pos
    have h3 : memoryByte s (s.pc + 2) = some b3 := hb 1 Nat.one_lt_two
    by_cases hj : (opcodeRow opc).1 = .jsr
    · obtain rfl := opcode_of_jsr opc hj
      exact fetchInstr_exec_of_jsr hv h2 h3
    · rw [fetchInstr_of_threeBytes hv ho h2 h3 hl.symm hj, andThen_next]; rfl

end

/-- Settles O7: at a boundary with nothing pending a step fetches and executes, and the fetch delivers the bytes that
stand in memory. -/
theorem stepRunsTheDecodedInstruction : Obligations.StepRunsTheDecodedInstruction := by
  intro s hh hp hq hi
  have hstep := step_of_fetching ⟨hh, hp, hq⟩ hi
  refine ⟨fun bytes i hd hmem => ?decoded, fun i hf => ?fetched⟩
  case decoded =>
    obtain ⟨opc, bs, rfl, hl, rfl⟩ := decode_eq_ok_iff.1 hd
    have hv : busValue s s.pc = .next opc := by
      have h0 := hmem 0 (Nat.succ_pos _)
      rw [show s.pc + BitVec.ofNat 16 0 = s.pc from BitVec.add_zero s.pc] at h0
      exact busValue_of_memoryByte h0
    rw [hstep]
    refine fetchInstr_exec_of_memory hv hl fun k h => ?_
    simpa using hmem (k + 1) (by simpa using h)
  case fetched => rw [hstep, hf, andThen_next]

end Sys2Proof.Machine
end

section
/-! Overflow and decimal digits (spec/42_arith_logic_compare.md section 2). -/

namespace Sys2Proof.Machine

/-! ## Overflow (R201, R202) -/

section
variable (a m : Byte) (p : Flags)

theorem and_80_ne_zero (b : Byte) : b &&& 0x80 ≠ 0 ↔ 128 ≤ b.toNat := by revert b; decide

/-- The sign bits of two operands and of a result, as ADC compares them. -/
theorem signs_differ (r : Byte) :
    (a ^^^ r) &&& (m ^^^ r) &&& 0x80 ≠ 0 ↔ (128 ≤ a.toNat ↔ 128 ≤ m.toNat) ∧ ¬ (128 ≤ a.toNat ↔ 128 ≤ r.toNat) := by
  have bit (b : Byte) : b.getLsbD 7 = decide (128 ≤ b.toNat) := by revert b; decide
  have h : (a ^^^ r) &&& (m ^^^ r) &&& 0x80 ≠ 0 ↔ ((a ^^^ r) &&& (m ^^^ r)).getLsbD 7 = true := by
    rw [and_80_ne_zero, bit, decide_eq_true_iff]
  rw [h, BitVec.getLsbD_and, BitVec.getLsbD_xor, BitVec.getLsbD_xor, bit, bit, bit]
  by_cases h₁ : 128 ≤ a.toNat <;> by_cases h₂ : 128 ≤ m.toNat <;> by_cases h₃ : 128 ≤ r.toNat <;> simp [h₁, h₂, h₃]

/-- V says that the signed sum does not fit: the operands have one sign and the result has the other. -/
theorem adcBinary_v :
    (adcBinary a m p).2.v = true ↔ a.toInt + m.toInt + p.c.toNat < -128 ∨ 127 < a.toInt + m.toInt + p.c.toNat := by
  have ha := a.isLt
  have hm := m.isLt
  have hc := p.c.toNat_le
  have v : (adcBinary a m p).2.v = true ↔ _ := decide_eq_true_iff.trans (signs_differ a m _)
  rw [v, BitVec.toNat_ofNat, BitVec.toInt_eq_toNat_cond, BitVec.toInt_eq_toNat_cond]
  split <;> split <;> omega

end

/-- Settles O31: for ADC by the signs, and SBC adds the complement. -/
theorem overflowIsSignedOverflow : Obligations.OverflowIsSignedOverflow := by
  intro a m p
  have complement : (~~~m).toInt = -m.toInt - 1 := by revert m; decide
  rw [adcFlags_of_binary a m (.inl rfl), sbcFlags_of_binary a m (.inl rfl), sbcBinary_eq_adcBinary_not, adcBinary_v,
    adcBinary_v, complement]
  refine ⟨Iff.rfl, ?_⟩
  omega

/-! ## Decimal digits (R203, R204) -/

theorem toNat_and_0F (b : Byte) : (b &&& 0x0F).toNat = b.toNat % 16 := by revert b; decide

theorem toNat_and_F0 (b : Byte) : (b &&& 0xF0).toNat = 16 * (b.toNat / 16) := by revert b; decide

theorem toNat_decide_ite (P : Prop) [Decidable P] : (decide P).toNat = if P then 1 else 0 := by
  by_cases h : P <;> simp [h]

section
variable {a m : Byte} (p : Flags) (ha : isBcd a) (hm : isBcd m)
include ha hm

/-- Decimal ADC on decimal digits: each digit's sum is corrected when it is above 9, and carries into the next. -/
theorem adcDecimal_isBcd :
    isBcd (adcDecimal a m p).1
      ∧ bcdValue (adcDecimal a m p).1 + 100 * (adcDecimal a m p).2.c.toNat = bcdValue a + bcdValue m + p.c.toNat := by
  obtain ⟨ha₁, ha₀⟩ := ha
  obtain ⟨hm₁, hm₀⟩ := hm
  have hc := p.c.toNat_le
  simp only [adcDecimal, isBcd, bcdValue, toNat_and_0F, toNat_and_F0, BitVec.toNat_ofNat, toNat_decide_ite]
  split_ifs <;> omega

theorem sbcDecimal_isBcd :
    isBcd (sbcDecimal a m p).1
      ∧ (bcdValue (sbcDecimal a m p).1 : Int)
          = bcdValue a - bcdValue m - (1 - p.c.toNat) + 100 * (1 - (sbcDecimal a m p).2.c.toNat) := by
  obtain ⟨ha₁, ha₀⟩ := ha
  obtain ⟨hm₁, hm₀⟩ := hm
  have hc := p.c.toNat_le
  simp only [sbcDecimal, isBcd, bcdValue, toNat_and_0F, toNat_and_F0, BitVec.toNat_ofInt, sbcBinary, setNZ,
    toNat_decide_ite]
  split_ifs <;> omega

end

/-- Settles O29: the decimal results, by their digits. -/
theorem decimalArithmeticIsRightOnDecimalDigits : Obligations.DecimalArithmeticIsRightOnDecimalDigits := by
  intro a m p ha hm hd
  rw [adcFlags_of_decimal a m ⟨rfl, hd⟩, sbcFlags_of_decimal a m ⟨rfl, hd⟩]
  have hadc := adcDecimal_isBcd p ha hm
  have hsbc := sbcDecimal_isBcd p ha hm
  exact ⟨hadc.1, hadc.2, hsbc.1, hsbc.2⟩

end Sys2Proof.Machine
end

section
/-! The registers that each instruction writes, and where it leaves PC (spec/10_state.md section 1,
spec/40_microsteps.md section 4). -/

namespace Sys2Proof.Machine

/-! ## A, X, Y and SP (R21 to R23) -/

/-- A, X, Y and SP, with those blanked that an instruction may write. -/
def unwrittenRegs (k : Mnem) (r : Regs) : Byte × Byte × Byte × Byte :=
  match k with
  | .lda | .txa | .tya | .adc | .sbc | .and | .ora | .eor | .asl | .lsr | .rol | .ror | .slo | .rla | .sre | .rra
  | .isc => (0, r.x, r.y, r.sp)
  | .ldx | .tax | .tsx | .inx | .dex => (r.a, 0, r.y, r.sp)
  | .lax => (0, 0, r.y, r.sp)
  | .ldy | .tay | .iny | .dey => (r.a, r.x, 0, r.sp)
  | .pla => (0, r.x, r.y, 0)
  | .txs | .pha | .php | .plp | .jsr | .rts | .brk | .rti => (r.a, r.x, r.y, 0)
  | .sta | .stx | .sty | .bit | .cmp | .cpx | .cpy | .inc | .dec | .bpl | .bmi | .bvc | .bvs | .bcc | .bcs | .bne | .beq
  | .jmp | .clc | .sec | .cli | .sei | .cld | .sed | .clv | .nop | .sax | .dcp | .illegal => (r.a, r.x, r.y, r.sp)

theorem operationOf_keeps_unwrittenRegs (i : Instr) : (operationOf i).keeps (unwrittenRegs i.mnem) := by
  cases i with
  | asl m | lsr m | rol m | ror m => cases m <;> first | exact fun _ _ => rfl | exact fun _ => rfl
  | _ => first | exact True.intro | exact fun _ _ => rfl | exact fun _ => rfl

theorem instrSeq_keeps_unwrittenRegs (i : Instr) : (instrSeq i).keeps (unwrittenRegs i.mnem) := by
  cases i with
  | asl m | lsr m | rol m | ror m => cases m <;> exact True.intro
  | jmp t => cases t <;> exact True.intro
  | brk => exact ⟨fun _ _ => rfl, fun _ => rfl⟩
  | rti => exact ⟨fun _ _ => rfl, fun _ _ => rfl⟩
  | jsr | rts | pha | php | pla | plp => exact fun _ _ => rfl
  | _ => exact True.intro

/-- Executing an instruction keeps every register that it may not write. -/
theorem exec_unwrittenRegs {i : Instr} {s t : State} (h : exec i s = .next t) :
    unwrittenRegs i.mnem t.regs = unwrittenRegs i.mnem s.regs :=
  exec_keeps (operationOf_keeps_unwrittenRegs i) (instrSeq_keeps_unwrittenRegs i) h

/-! ## PC (R158) -/

/-- The mnemonics that transfer control or halt the core. -/
def transfersControl : List Mnem :=
  [.bpl, .bmi, .bvc, .bvs, .bcc, .bcs, .bne, .beq, .jmp, .jsr, .rts, .brk, .rti, .illegal]

/-- The terminal operation of an instruction leaves PC as it was. -/
def Operation.keepsPc : Operation → Prop
  | .read g | .pull g => ∀ v s, (g v s).pc = s.pc
  | .rmw g => ∀ v s, (g v s).2.pc = s.pc
  | .internal g => ∀ s, (g s).pc = s.pc
  | .write _ | .branch _ | .push _ | .fixed => True

theorem operationOf_keepsPc (i : Instr) : (operationOf i).keepsPc := by
  cases i with
  | asl m | lsr m | rol m | ror m => cases m <;> first | exact fun _ _ => rfl | exact fun _ => rfl
  | _ => first | exact True.intro | exact fun _ _ => rfl | exact fun _ => rfl

/-- If the result is a next state, its PC is `pc`. -/
def EndsAt (pc : Word) (r : Result State) : Prop := ∀ t, r = .next t → t.pc = pc

section
variable {s : State} {i : Instr} (hw : WellFormed i) {m : Operand}
include hw

theorem endsAt_read {g : Byte → State → State} (hg : (Operation.read g).keepsPc) (hb : i.operandBytes = m.bytes)
    (hm : m ≠ .acc) : EndsAt (nextPc m s) (runSeq i (.read m.mode) (.read g) s) := by
  intro t h
  obtain ⟨v, k, f, -, e⟩ := runSeq_read hw hb hm (runSeq_read_readable hw hb hm h) g
  cases e.symm.trans h
  rw [finish_pc, hg, mid_pc]

theorem endsAt_write {g : State → Byte} (hb : i.operandBytes = m.bytes) (hm : hasAddress m = true) :
    EndsAt (nextPc m s) (runSeq i (.write m.mode) (.write g) s) := by
  intro t h
  obtain ⟨k, f, -, e⟩ := runSeq_write hw hb hm (runSeq_write_readable hw hb hm h) g
  cases e.symm.trans h
  rw [finish_pc, busWrite_pc, mid_pc]

theorem endsAt_rmw {g : Byte → State → Byte × State} (hg : (Operation.rmw g).keepsPc) (hb : i.operandBytes = m.bytes)
    (hm : hasAddress m = true) : EndsAt (nextPc m s) (runSeq i (.rmw m.mode) (.rmw g) s) := by
  intro t h
  obtain ⟨v, k, l, f, -, -, e⟩ := runSeq_rmw hw hb hm (runSeq_rmw_readable hw hb hm h) g
  cases e.symm.trans h
  rw [finish_pc, busWrite_pc, hg, mid_pc]

theorem endsAt_internal {g : State → State} (hg : (Operation.internal g).keepsPc) :
    EndsAt (s.pc + 1) (runSeq i .internal (.internal g) s) := by
  intro t h
  obtain ⟨v, k, f, -, e⟩ := runSeq_internal hw (runSeq_internal_readable hw h) g
  cases e.symm.trans h
  rw [finish_pc, hg, mid_pc]

theorem endsAt_push {g : State → Byte} : EndsAt (s.pc + 1) (runSeq i .push (.push g) s) := by
  intro t h
  obtain ⟨v, k, f, -, e⟩ := runSeq_push hw (runSeq_push_readable hw h) g
  cases e.symm.trans h
  rw [finish_pc, pushByte_mid, mid_pc]

theorem endsAt_pull {g : Byte → State → State} (hg : (Operation.pull g).keepsPc) :
    EndsAt (s.pc + 1) (runSeq i .pull (.pull g) s) := by
  intro t h
  obtain ⟨v, k, f, -, e⟩ := runSeq_pull hw (runSeq_pull_readable hw h) g
  cases e.symm.trans h
  rw [finish_pc, hg, mid_pc]

/-- A shift: on the accumulator it is an implied instruction. -/
theorem endsAt_shift {sh : Byte → Flags → Byte × Flags} (hg : (shiftOperation sh m).keepsPc)
    (hb : i.operandBytes = m.bytes) (hm : m.mode ≠ .imm) :
    EndsAt (nextPc m s)
      (runSeq i (if m.mode = .acc then .internal else .rmw m.mode) (shiftOperation sh m) s) := by
  cases m with
  | acc => exact endsAt_internal hw hg
  | imm b => exact absurd rfl hm
  | _ => exact endsAt_rmw hw hg hb rfl

end

/-- An instruction that runs its own sequence and does not transfer control ends after its bytes. -/
theorem endsAt_runInstr {i : Instr} (hi : i.mnem ∉ transfersControl) (s : State) :
    EndsAt (s.pc + BitVec.ofNat 16 i.mode.length) (runInstr i (operationOf i) s) := by
  intro t h
  have hw := wellFormed_of_runSeq h
  have ho := operationOf_keepsPc i
  revert t
  cases i with
  | lda m | ldx m | ldy m | adc m | sbc m | and m | ora m | eor m | bit m | cmp m | cpx m | cpy m | lax m =>
    exact endsAt_read hw ho rfl (ne_acc_of_mode (mode_ne_of_forms hw rfl))
  | sta m | stx m | sty m | sax m => exact endsAt_write hw rfl (hasAddress_of_forms hw rfl rfl)
  | asl m | lsr m | rol m | ror m => exact endsAt_shift hw ho rfl (mode_ne_of_forms hw rfl)
  | inc m | dec m | slo m | rla m | sre m | rra m | dcp m | isc m =>
    exact endsAt_rmw hw ho rfl (hasAddress_of_forms hw rfl rfl)
  | tax | tay | txa | tya | tsx | txs | inx | iny | dex | dey | clc | sec | cli | sei | cld | sed | clv | nop =>
    exact endsAt_internal hw ho
  | pha | php => exact endsAt_push hw
  | pla | plp => exact endsAt_pull hw ho
  | bpl off | bmi off | bvc off | bvs off | bcc off | bcs off | bne off | beq off | jmp w | jsr w | rts | brk b | rti
  | illegal opc => exact absurd (by simp [transfersControl, Instr.mnem]) hi

/-- The sequence of an unofficial instruction is longer than its bytes. -/
theorem baseCycles_of_unofficial {i : Instr} (hu : classOf i.mnem = .unofficial) (hw : i.mode ∈ i.mnem.forms) :
    i.mode.length < (instrSeq i).baseCycles ∧ (instrSeq i).baseCycles ≤ 8 := by
  obtain ⟨opc, hopc⟩ := opcodes_of_forms (by rintro h; rw [h] at hu; cases hu) hw
  obtain ⟨l₁, l₂, he, -⟩ := List.lookup_eq_some_iff.1 hopc
  exact (unofficial_forms hu (i.mode, opc) (by simp [he])).2

/-- Under `nop_with_cycles` an unofficial instruction ends after its bytes. -/
theorem endsAt_nop {i : Instr} (hu : classOf i.mnem = .unofficial) (op : Operation) (s : State) :
    EndsAt (s.pc + BitVec.ofNat 16 i.mode.length) (runSeq i (nopSeq i) op s) := by
  intro t h
  have hw := wellFormed_of_runSeq h
  cases i with
  | slo m | rla m | sre m | rra m | sax m | lax m | dcp m | isc m =>
    have hm : hasAddress m = true := hasAddress_of_forms hw rfl rfl
    have hc := baseCycles_of_unofficial hu (List.contains_iff_mem.1 hw)
    cases (runSeq_nop hw rfl hm op hc s).symm.trans h
    rfl
  | _ => cases hu

/-- An instruction that neither transfers control nor halts ends after its bytes. -/
theorem endsAt_exec {i : Instr} (hi : i.mnem ∉ transfersControl) {s : State}
    (hp : classOf i.mnem = .unofficial → s.params.unofficialPolicy ≠ .error) :
    EndsAt (s.pc + BitVec.ofNat 16 i.mode.length) (exec i s) := by
  cases hc : classOf i.mnem with
  | documented =>
    rw [exec_documented hc fun hj => hi (by rw [hj]; decide)]
    exact endsAt_runInstr hi s
  | unofficial =>
    rw [exec_unofficial hc]
    cases hpol : s.params.unofficialPolicy with
    | error => exact absurd hpol (hp hc)
    | nopWithCycles => rw [runUnofficial_nop hpol]; exact endsAt_nop hc _ s
    | implement => rw [runUnofficial_implement hpol]; exact endsAt_runInstr hi s
  | illegal =>
    cases i with
    | illegal opc => exact absurd (by simp [transfersControl, Instr.mnem]) hi
    | _ => cases hc

/-- Settles O53: an instruction whose mnemonic is not in a register's list has that register in its `unwrittenRegs`,
which it keeps; where PC ends is `endsAt_exec`. -/
theorem registersAreWrittenOnlyByTheirInstructions : Obligations.RegistersAreWrittenOnlyByTheirInstructions := by
  intro i s t h
  have hpc := fun hi hp => endsAt_exec (i := i) hi hp t h
  have hk := exec_unwrittenRegs h
  refine ⟨?a, ?x, ?y, ?sp, hpc⟩
  all_goals
    clear hpc
    generalize i.mnem = k at hk ⊢
    cases k <;> simp_all [unwrittenRegs, State.regs]

end Sys2Proof.Machine
end

section
/-! A whole OPEN transaction on the serial bus (spec/60_exceptions.md section 5). -/

namespace Sys2Proof.Machine

/-- The LISTEN byte of a device is in the LISTEN range, and its low five bits are the device. -/
theorem listenByte_range (device : Byte) (h : device.toNat ≤ 30) :
    0x20 ≤ (0x20 + device).toNat ∧ (0x20 + device).toNat ≤ 0x3E ∧ (0x20 + device) &&& 0x1F = device := by
  revert device
  decide

/-- Attention and the LISTEN byte address a device: it waits for the secondary address (R370, R372). -/
theorem notifyAll_listen {b : SerialBus} {ch out device : Byte} {atn : Bool} {ns : List Notification}
    (hb : b.sstate = .idle) (ha : lineAtn out = true) (hc : lineClkLow out = true) (hdev : device.toNat ≤ 30)
    (hd : Delivers (0x20 + device) atn ns) :
    (b.edgeNotify ch out).notifyAll ns
      = { b with sstate := .waitSecondaryAddress, nbits := 0, shreg := 0, primary := device, ack := false } := by
  obtain ⟨hlow, hhigh, hprimary⟩ := listenByte_range device hdev
  obtain ⟨-, -, -, -, listen⟩ := eightRisesDeliverOneByte
  rw [listen b ch out _ atn ns hb ha hc hlow hhigh hd, hprimary]

/-- UNLISTEN ends the transaction with its one event (R376). -/
theorem notifyAll_unlisten {b : SerialBus} {ns : List Notification} (hd : Delivers 0x3F true ns) (h0 : b.nbits = 0)
    (h1 : b.shreg = 0) (hb : b.sstate = .listen) : b.notifyAll ns = b.unlisten :=
  notifyAll_of_listen hd h0 h1 hb

/-- Settles O59: the phases of the transaction one after the other; the name is an induction over its bytes. -/
theorem openTransactionEmitsTheFileName : Obligations.OpenTransactionEmitsTheFileName := by
  intro b ch out device sa name atn atn' chE outE nsListen nsSecondary nsName nsUnlisten hb hq ha hc hdev hListen
    hSecondary hE hName hUnlisten
  simp only [notifyAll_append]
  rw [notifyAll_listen hb ha hc hdev hListen, notifyAll_of_secondary hSecondary rfl rfl rfl, notifyAll_cons,
    SerialBus.edgeNotify_eoi _ _ _ rfl hE, notifyAll_of_deliversAll name nsName _ hName rfl rfl rfl,
    notifyAll_unlisten hUnlisten rfl rfl rfl]
  simp [SerialBus.unlisten, SerialBus.eoiPulse, SerialBus.clear, SerialBus.notifyAll, hq]

end Sys2Proof.Machine
end
